-- ==== Sys2Proof/Word.lean ====
section
/-! DEFINITION. The word types of the block and their plainest arithmetic (00_scope.md R9, R12, R13). -/

namespace Sys2Proof

/-- A 32-bit bus word: a register, a token, a length or an index as it is stored (R9, R70). -/
abbrev Word := BitVec 32

/-- A symbol of the base alphabet, and an 8-bit register field (R8). -/
abbrev Byte := BitVec 8

/-- A 64-bit value: a frequency, a weight or the bits of a code (R9, R46). -/
abbrev DWord := BitVec 64

/-- `lo = v[31:0]` of a 64-bit value (R13). -/
def DWord.lo (v : DWord) : Word := v.extractLsb' 0 32

/-- `hi = v[63:32]` of a 64-bit value (R13). -/
def DWord.hi (v : DWord) : Word := v.extractLsb' 32 32

end Sys2Proof
end

