-- ==== Sys2Proof/Config.lean ====
section
/-! DEFINITION. The parameters of the block (00_scope.md R10), its constants, and the free values the spec leaves open. -/

namespace Sys2Proof

/-- The parameters a platform chooses (R10).  `NODE_CAP` is derived: `Config.nodeCap`. -/
structure Config where
  /-- `BASE`: the bus address of offset 0. -/
  base : Nat
  /-- `SYM_CAP`. -/
  symCap : Nat
  /-- `TOK_CAP`. -/
  tokCap : Nat
  /-- `BIT_CAP`. -/
  bitCap : Nat
  /-- `DICT_CAP`. -/
  dictCap : Nat
  /-- `CODE_MAXLEN`. -/
  codeMaxLen : Nat
  deriving DecidableEq, Repr

namespace Config

/-- `NODE_CAP = 2*DICT_CAP - 1` (R10). -/
def nodeCap (c : Config) : Nat := 2 * c.dictCap - 1

/-- The reference configuration of R10.  DESIGN CHOICE (log 2, unsafe): `BASE` has no reference value
and is 0 here; no rule of the block depends on it beyond `offset = address - BASE` (R70). -/
def reference : Config where
  base := 0
  symCap := 65536
  tokCap := 65536
  bitCap := 1048576
  dictCap := 4096
  codeMaxLen := 64

/-- The constant the ID register reads (10_state.md R22). -/
def idValue : Word := 0x484C5A01#32

end Config

/-- The five buffers the host reads and writes and whose contents reset leaves unspecified
(10_state.md R40 to R44). -/
inductive BufId where
  | sym | tok | bits | freq | node
  deriving DecidableEq, Repr

/-- The free value of word `index` of buffer `b` in the free draw number `draw`: what an unspecified
buffer word holds after reset or after a failure (93_implementation_defined.md section 1: "any value",
drawn per word).  No body: nothing can be proved of it (log 5, safe). -/
opaque Config.freeWord (draw : Nat) (b : BufId) (index : Nat) : Word

/-- The free value a read outstanding at reset number `draw` returns (70_reset_and_hazards.md R340; log 12, safe). -/
opaque Config.freeRead (draw : Nat) : Word

end Sys2Proof
end

