-- ==== Sys2Proof/Syntax.lean ====
section
/-! DEFINITION. The command set, one constructor per row of spec/opcode_table.json (30_encoding.md R103). -/

namespace Sys2Proof

/-- A command of the HLZ command set, version 1.  Commands carry no operand field: every operand is
implicit (R101, R105), so no constructor has an argument. -/
inductive Instr where
  /-- LZW_ENC, 0x01 (40_lzw.md R133). -/
  | lzwEnc
  /-- LZW_DEC, 0x02 (40_lzw.md R141). -/
  | lzwDec
  /-- FREQ_COUNT, 0x03 (41_huffman.md R171). -/
  | freqCount
  /-- HUFF_BUILD, 0x04 (41_huffman.md R180). -/
  | huffBuild
  /-- HUFF_CODES, 0x05 (41_huffman.md R195). -/
  | huffCodes
  /-- ENT_ENC, 0x06 (42_entropy.md R221). -/
  | entEnc
  /-- ENT_DEC, 0x07 (42_entropy.md R230). -/
  | entDec
  /-- COMPRESS, 0x08 (43_control.md R266). -/
  | compress
  /-- DECOMPRESS, 0x09 (43_control.md R267). -/
  | decompress
  /-- CLEAR, 0x0A (43_control.md R270). -/
  | clear
  deriving DecidableEq, Repr

end Sys2Proof
end

