-- ==== Sys2Proof/WellFormed.lean ====
section
/-! DEFINITION. The static checks: a legal configuration (00_scope.md R10), a legal command word (30_encoding.md R102),
a well-formed command, and a well-formed bus access (20_memory.md R70). -/

namespace Sys2Proof

/-- The legal parameter ranges of R10. -/
def Config.legal (c : Config) : Bool :=
  decide (c.base % 2 ^ 24 = 0)
    && decide (1 ≤ c.symCap) && decide (c.symCap ≤ 2 ^ 18)
    && decide (1 ≤ c.tokCap) && decide (c.tokCap ≤ 2 ^ 18)
    && decide (32 ≤ c.bitCap) && decide (c.bitCap ≤ 2 ^ 23) && decide (c.bitCap % 32 = 0)
    && decide (256 ≤ c.dictCap) && decide (c.dictCap ≤ 2 ^ 16)
    && decide (1 ≤ c.codeMaxLen) && decide (c.codeMaxLen ≤ 64)

/-- A command word is legal when its reserved bits are 0 and its opcode is one of R103 (R102). -/
def legalCommandWord (w : Word) : Bool :=
  decide (w.toNat / 2 ^ 8 = 0) && decide (1 ≤ w.toNat % 2 ^ 8) && decide (w.toNat % 2 ^ 8 ≤ 10)

/-- Every command is well formed: it carries no operand that could be out of range (R101). -/
def Instr.wellFormed (_ : Instr) : Bool := true

/-- A host access reaches the block only with a width of 4 bytes, at an offset below 2^24 that is a
multiple of 4 (R70, R71). -/
def wellFormedAccess (offset width : Nat) : Bool :=
  decide (width = 4) && decide (offset < 2 ^ 24) && decide (offset % 4 = 0)

end Sys2Proof
end

