-- ==== Sys2Proof/Decode.lean ====
section
/-! DEFINITION. Decoding a command word, total on all 2^32 words, and the encoder (30_encoding.md R100 to R104). -/

namespace Sys2Proof

/-- What a command word stands for (R102): exactly one legal command, or an illegal word, by the
reason it is illegal (R104). -/
inductive Decoded where
  /-- A legal command. -/
  | command (i : Instr)
  /-- Illegal: bits 31:8 (RSVD) are not all 0, whatever the opcode. -/
  | reservedBits
  /-- Illegal: RSVD is 0 and the opcode is 0x00 or 0x0B .. 0xFF. -/
  | unassignedOpcode
  deriving DecidableEq, Repr

/-- `OPCODE = word[7:0]` (R101). -/
def opcodeField (w : Word) : Byte := w.extractLsb' 0 8

/-- `RSVD = word[31:8]` (R101). -/
def reservedField (w : Word) : BitVec 24 := w.extractLsb' 8 24

/-- The opcode map of R103, read from the opcode. -/
def commandOfOpcode (op : Byte) : Option Instr :=
  match op.toNat with
  | 0x01 => some .lzwEnc
  | 0x02 => some .lzwDec
  | 0x03 => some .freqCount
  | 0x04 => some .huffBuild
  | 0x05 => some .huffCodes
  | 0x06 => some .entEnc
  | 0x07 => some .entDec
  | 0x08 => some .compress
  | 0x09 => some .decompress
  | 0x0A => some .clear
  | _ => none

/-- `decode(w)` of R102: total, every word is one command or illegal. -/
def decode (w : Word) : Decoded :=
  if reservedField w = 0#24 then
    match commandOfOpcode (opcodeField w) with
    | some i => .command i
    | none => .unassignedOpcode
  else .reservedBits

/-- The opcode map of R103, read from the command. -/
def Instr.opcode : Instr → Byte
  | .lzwEnc => 0x01#8
  | .lzwDec => 0x02#8
  | .freqCount => 0x03#8
  | .huffBuild => 0x04#8
  | .huffCodes => 0x05#8
  | .entEnc => 0x06#8
  | .entDec => 0x07#8
  | .compress => 0x08#8
  | .decompress => 0x09#8
  | .clear => 0x0A#8

/-- The command word of a command: RSVD 0 above the opcode (R100). -/
def encode (i : Instr) : Word := 0#24 ++ i.opcode

/-- The command the decoder reads from an opcode-table word of `nbits` bits, the bits above being 0.
A command is one 32-bit word written to CMD (R100); there is no longer form. -/
def decodeTableWord (nbits w : Nat) : Option Instr :=
  match decode (BitVec.ofNat 32 (w % 2 ^ nbits)) with
  | .command i => some i
  | .reservedBits => none
  | .unassignedOpcode => none

end Sys2Proof
end

