-- ==== Sys2Proof/Machine/State.lean ====
section
/-! DEFINITION. The architectural state (10_state.md R20 to R53), the outside world's pending inputs, the stops of a step,
and the state after reset (70_reset_and_hazards.md R340, R341). -/

namespace Sys2Proof.Machine

/-- What the words of a buffer hold that its cell list does not list. -/
inductive Fill where
  /-- Zero (after CLEAR, or after FREQ_COUNT clears FREQ). -/
  | zero
  /-- Unspecified: word `i` holds the free value `Config.freeWord draw b i` (R53; 60_exceptions.md R306). -/
  | drawn (draw : Nat)
  deriving DecidableEq, Repr

/-- A buffer as 32-bit words (20_memory.md R76): word `i` stands at byte offset `window base + 4*i`
(R72).  In canonical form the indices rise strictly and no cell holds what an unlisted word holds:
under `zero` no cell is 0, and under `drawn` a cell is listed exactly when it was written since the draw
(`Buf.wf` in Machine/Ops.lean; logs 4 and 5). -/
structure Buf where
  fill : Fill
  cells : List (Nat × Word)
  deriving DecidableEq, Repr

/-- The five data buffers (R40 to R44), each a word array over its window of R72. -/
structure Memory where
  /-- SYM: word `i` is `SYM[i]` in bits 7:0 (R40). -/
  sym : Buf
  /-- TOK: word `i` is `TOK[i]` (R41). -/
  tok : Buf
  /-- BITS: word `j` is `BITW[j]` (R42). -/
  bits : Buf
  /-- FREQ: words `2*t` and `2*t+1` are the low and high words of `FREQ[t]` (R43, R75). -/
  freq : Buf
  /-- NODE: words `8*i .. 8*i+7` are LEAF, TOKEN, LEFT, RIGHT, WEIGHT_LO, WEIGHT_HI and two reserved words (R44). -/
  node : Buf
  deriving DecidableEq, Repr

/-- A valid entry of the CODE table: LEN and BITS (R46).  Tokens not listed in `State.code` are invalid. -/
structure CodeEntry where
  len : BitVec 7
  bits : DWord
  deriving DecidableEq, Repr

/-- A stored entry of the dictionary: PREFIX, SYMBOL, FIRST and LENGTH (R47). -/
structure DictEntry where
  pre : Word
  symbol : Byte
  first : Byte
  length : Word
  deriving DecidableEq, Repr

/-- What a host access does (20_memory.md R70). -/
inductive AccessKind where
  /-- `MemRead`. -/
  | read
  /-- `MemWrite` of a value. -/
  | write (v : Word)
  deriving DecidableEq, Repr

/-- A host access as the bus carries it: an address, a width in bytes, and what it does (R70, R71). -/
structure Access where
  addr : Nat
  width : Nat
  kind : AccessKind
  deriving DecidableEq, Repr

/-- One action of the outside world, or the engine being given its turn (R20; 70_reset_and_hazards.md R340; log 7). -/
inductive Input where
  /-- The host's next access. -/
  | access (a : Access)
  /-- The engine's step comes before the next access, also before one that is not held. -/
  | engineTurn
  /-- The platform asserts reset with no access outstanding. -/
  | reset
  /-- The platform asserts reset while the access is outstanding, which R340 says it must not. -/
  | resetOver (a : Access)
  deriving DecidableEq, Repr

/-- The limit a CAPACITY error names (60_exceptions.md R302). -/
inductive Resource where
  | sym | tok | bits | dict | codeLen | freq
  deriving DecidableEq, Repr

/-- The errors a command can report (R300). -/
inductive ErrorKind where
  | invalidToken (i : Nat)
  | emptyAlphabet
  | unknownToken (i : Nat)
  | truncatedStream (start : Nat)
  | capacity (r : Resource)
  | badCode (p : Nat)
  | badTree
  | weightOverflow (node : Nat)
  | illegalCommand (w : Word)
  deriving DecidableEq, Repr

/-- What completion writes to ERROR and ERR_INFO: the outcome of 43_control.md R264. -/
structure Report where
  code : Byte
  stage : Byte
  info : Word
  deriving DecidableEq, Repr

/-- The state of the block, the parameters it was built with, and the outside world's pending inputs. -/
structure State where
  /-- The parameters (R10), never changed (log 1). -/
  cfg : Config
  /-- STATUS.BUSY (R24). -/
  busy : Bool
  /-- STATUS.DONE (R24). -/
  done : Bool
  /-- STATUS.ERR (R24). -/
  err : Bool
  /-- ERROR.CODE (R25). -/
  errCode : Byte
  /-- ERROR.STAGE (R25). -/
  errStage : Byte
  /-- ERR_INFO (R26). -/
  errInfo : Word
  /-- IRQ_ENABLE.DONE_IE (R27). -/
  doneIe : Bool
  /-- IRQ_ENABLE.ERR_IE (R27). -/
  errIe : Bool
  /-- SYM_LEN (R28). -/
  symLen : Word
  /-- TOK_LEN (R29). -/
  tokLen : Word
  /-- BIT_LEN (R30). -/
  bitLen : Word
  /-- NODE_COUNT (R31). -/
  nodeCount : Word
  /-- ROOT (R32). -/
  root : Word
  /-- The command latch (R50), meaningful while BUSY = 1. -/
  latch : Word
  /-- The SYM, TOK, BITS, FREQ and NODE buffers (R40 to R44). -/
  mem : Memory
  /-- The valid entries of the CODE table (R46).  DESIGN CHOICE (log 21, safe): listed by rising token. -/
  code : List (Nat × CodeEntry)
  /-- The stored entries of the DICT table: token `256 + j` is element `j` (R47).  DICT_NEXT is `State.dictNext`. -/
  dict : List DictEntry
  /-- The model's own: the number of the next free draw (log 6). -/
  draws : Nat
  /-- The model's own: the inputs to come, oldest first (log 7). -/
  inputs : List Input
  /-- The model's own: the values completed host reads returned, oldest first (log 8). -/
  reads : List Word
  deriving DecidableEq, Repr

/-- DICT_NEXT, "the next free token id" (R33): one past the last bound token (R47; log 14). -/
def State.dictNext (s : State) : Nat := 256 + s.dict.length

/-- A node of the held tree as the engine reads it (R45): a leaf owns a token, an internal node has a child
per edge bit.  TOKEN of an internal node, LEFT and RIGHT of a leaf, and WEIGHT are ignored (R44). -/
inductive Node where
  | leaf (token : Nat)
  | internal (left right : Nat)
  deriving DecidableEq, Repr

/-- How a stage ends (43_control.md R264): it reaches its end, or it fails with an error, after applying its
failure rule.  `stage` is the command whose opcode ERROR.STAGE reports (60_exceptions.md R303). -/
inductive StageOutcome where
  | ok (t : State)
  | failed (t : State) (stage : Instr) (e : ErrorKind)
  deriving DecidableEq, Repr

/-- The stops that are faults. -/
inductive Fault where
  /-- Raised by a step whose next input is a host access at an address outside `[BASE, BASE + 2^24)`,
  which is no offset of the block (R70).  Safe: the block has no such access. -/
  | outsideBlock
  deriving DecidableEq, Repr

/-- The stops that are refusals. -/
inductive Refusal where
  /-- Raised by an arm of `exec` whose command has no meaning yet; no arm is so.  Safe. -/
  | notModelled (mnemonic : String)
  /-- Raised by a step whose next input is a sub-word or misaligned access, a bus error: "A model refuses
  such an access (no step of the block ...)" (20_memory.md R71).  Safe. -/
  | busError
  deriving DecidableEq, Repr

/-- Every data buffer with unspecified contents, all drawn in one draw (R53). -/
def Memory.drawn (draw : Nat) : Memory where
  sym := ⟨.drawn draw, []⟩
  tok := ⟨.drawn draw, []⟩
  bits := ⟨.drawn draw, []⟩
  freq := ⟨.drawn draw, []⟩
  node := ⟨.drawn draw, []⟩

/-- The reset values of the whole state (R53; 70_reset_and_hazards.md R341) for a configuration, the
unspecified buffers taken from free draw number `draw`.
DESIGN CHOICE (log 3, unsafe): the latch, for which R50 needs no value, is 0. -/
def State.afterReset (c : Config) (draw : Nat) : State where
  cfg := c
  busy := false
  done := false
  err := false
  errCode := 0#8
  errStage := 0#8
  errInfo := 0#32
  doneIe := false
  errIe := false
  symLen := 0#32
  tokLen := 0#32
  bitLen := 0#32
  nodeCount := 0#32
  root := 0#32
  latch := 0#32
  mem := Memory.drawn draw
  code := []
  dict := []
  draws := draw + 1
  inputs := []
  reads := []

/-- The block of the reference configuration right after power-on reset, with nothing asked of it yet. -/
def State.reset : State := State.afterReset Config.reference 0

end Sys2Proof.Machine
end

