-- ==== Sys2Proof/Machine/Flags.lean ====
section
/-! DEFINITION. STATUS, IRQ_ENABLE and the interrupt output (10_state.md R24, R27, R52; 43_control.md R260, R263).
These three STATUS bits are the block's only flags; no command writes one except through acceptance and completion. -/

namespace Sys2Proof.Machine

/-- STATUS as it reads: BUSY, DONE, ERR in bits 0 to 2, the rest 0 (R24). -/
def State.statusWord (s : State) : Word :=
  BitVec.ofNat 32 (s.busy.toNat + 2 * s.done.toNat + 4 * s.err.toNat)

/-- IRQ_ENABLE as it reads: DONE_IE and ERR_IE in bits 0 and 1, the rest 0 (R27). -/
def State.irqEnableWord (s : State) : Word :=
  BitVec.ofNat 32 (s.doneIe.toNat + 2 * s.errIe.toNat)

/-- The level-sensitive interrupt output (R52; 60_exceptions.md R310). -/
def State.irq (s : State) : Bool := (s.done && s.doneIe) || (s.err && s.errIe)

/-- Command acceptance (43_control.md R260): latch the word, clear DONE and ERR, set BUSY. -/
def State.accept (s : State) (v : Word) : State :=
  { s with latch := v, done := false, err := false, busy := true }

/-- A host write to STATUS (R24): W1C on DONE and ERR, BUSY unchanged.  This is how the host
acknowledges a completion, the block's "trap return" (60_exceptions.md R308). -/
def State.acknowledge (s : State) (v : Word) : State :=
  { s with done := s.done && !v.getLsbD 1, err := s.err && !v.getLsbD 2 }

/-- A host write to IRQ_ENABLE stores bits 1:0 (R27). -/
def State.setIrqEnable (s : State) (v : Word) : State :=
  { s with doneIe := v.getLsbD 0, errIe := v.getLsbD 1 }

end Sys2Proof.Machine
end

