-- ==== Sys2Proof/Machine/Ops.lean ====
section
/-! DEFINITION. The named operations over the buffers, the CODE and DICT tables and the report registers:
reading and writing a buffer word (10_state.md R40 to R44), the canonical form of the memory, the dictionary
(R47, R48; 40_lzw.md R130, R132, R137), completion (43_control.md R263), and reset (70_reset_and_hazards.md R340). -/

namespace Sys2Proof.Machine

/-! ### Lists keyed by an index -/

section Keyed
variable {α : Type}

/-- The value listed at key `k`. -/
def lookupKey (k : Nat) : List (Nat × α) → Option α
  | [] => none
  | (k', v) :: rest => if k' = k then some v else lookupKey k rest

/-- The list without key `k`. -/
def eraseKey (k : Nat) (l : List (Nat × α)) : List (Nat × α) := l.filter fun p => !decide (p.1 = k)

/-- Insert before the first larger key. -/
def insertKey (k : Nat) (v : α) : List (Nat × α) → List (Nat × α)
  | [] => [(k, v)]
  | p :: rest => if k < p.1 then (k, v) :: p :: rest else p :: insertKey k v rest

/-- Set key `k`, which is then listed once, in its place. -/
def putKey (k : Nat) (v : α) (l : List (Nat × α)) : List (Nat × α) := insertKey k v (eraseKey k l)

/-- The keys rise strictly. -/
def risingKeys (l : List (Nat × α)) : Bool := decide ((l.map Prod.fst).Pairwise (· < ·))

end Keyed

/-! ### Buffers -/

/-- The bits of a buffer word that are stored: a symbol has 8 bits (R40), LEAF one, and the last two words of
a node none (R44); the other bits are RAZ/WI. -/
def wordMask (b : BufId) (i : Nat) : Word :=
  match b with
  | .sym => 0xFF#32
  | .node => if i % 8 = 0 then 1#32 else if i % 8 < 6 then BitVec.allOnes 32 else 0#32
  | .tok => BitVec.allOnes 32
  | .bits => BitVec.allOnes 32
  | .freq => BitVec.allOnes 32

/-- How many words a buffer has: its entries of R72, in words. -/
def wordCount (c : Config) (b : BufId) : Nat :=
  match b with
  | .sym => c.symCap
  | .tok => c.tokCap
  | .bits => c.bitCap / 32
  | .freq => 2 * c.dictCap
  | .node => 8 * c.nodeCap

/-- What word `i` of buffer `b` holds when no cell lists it. -/
def Fill.word (f : Fill) (b : BufId) (i : Nat) : Word :=
  match f with
  | .zero => 0#32
  | .drawn draw => Config.freeWord draw b i &&& wordMask b i

/-- The word `i` of a buffer. -/
def Buf.read (b : BufId) (buf : Buf) (i : Nat) : Word :=
  match lookupKey i buf.cells with
  | some v => v
  | none => buf.fill.word b i

/-- Store the kept bits of `v` in word `i`, keeping the canonical form: under the zero fill a cell that would
hold 0 is not listed.  A word with no stored bit is RAZ/WI (20_memory.md R73). -/
def Buf.write (b : BufId) (buf : Buf) (i : Nat) (v : Word) : Buf :=
  if wordMask b i = 0#32 then buf
  else if buf.fill = .zero ∧ v &&& wordMask b i = 0#32 then { buf with cells := eraseKey i buf.cells }
  else { buf with cells := putKey i (v &&& wordMask b i) buf.cells }

/-- One cell of a canonical buffer. -/
def Buf.cellWf (c : Config) (b : BufId) (f : Fill) (p : Nat × Word) : Bool :=
  decide (p.1 < wordCount c b) && !decide (wordMask b p.1 = 0#32) && decide (p.2 &&& wordMask b p.1 = p.2)
    && !decide (f = .zero ∧ p.2 = 0#32)

/-- The canonical form of a buffer: indices rising, in range, only stored bits, and no cell that holds what an
unlisted word holds. -/
def Buf.wf (c : Config) (b : BufId) (buf : Buf) : Bool :=
  risingKeys buf.cells && buf.cells.all (Buf.cellWf c b buf.fill)

/-- The buffer by its name. -/
def Memory.get (m : Memory) (b : BufId) : Buf :=
  match b with
  | .sym => m.sym
  | .tok => m.tok
  | .bits => m.bits
  | .freq => m.freq
  | .node => m.node

/-- Replace the buffer of that name. -/
def Memory.put (m : Memory) (b : BufId) (buf : Buf) : Memory :=
  match b with
  | .sym => { m with sym := buf }
  | .tok => { m with tok := buf }
  | .bits => { m with bits := buf }
  | .freq => { m with freq := buf }
  | .node => { m with node := buf }

/-- Word `i` of buffer `b`. -/
def Memory.read (m : Memory) (b : BufId) (i : Nat) : Word := Buf.read b (m.get b) i

/-- Write word `i` of buffer `b`. -/
def Memory.write (m : Memory) (b : BufId) (i : Nat) (v : Word) : Memory := m.put b (Buf.write b (m.get b) i v)

/-- Write consecutive words of buffer `b`, from word `i` on. -/
def Memory.writeFrom (m : Memory) (b : BufId) (i : Nat) : List Word → Memory
  | [] => m
  | v :: vs => (m.write b i v).writeFrom b (i + 1) vs

/-- Every word of buffer `b` becomes 0. -/
def Memory.clear (m : Memory) (b : BufId) : Memory := m.put b ⟨.zero, []⟩

/-- Every word of buffer `b` becomes unspecified: the free values of draw number `draw` (60_exceptions.md R306). -/
def Memory.redraw (m : Memory) (b : BufId) (draw : Nat) : Memory := m.put b ⟨.drawn draw, []⟩

/-- Every buffer is in canonical form. -/
def Memory.wf (c : Config) (m : Memory) : Bool :=
  Buf.wf c .sym m.sym && Buf.wf c .tok m.tok && Buf.wf c .bits m.bits && Buf.wf c .freq m.freq && Buf.wf c .node m.node

/-- The output buffer of a failing stage takes a fresh free draw. -/
def State.redraw (s : State) (b : BufId) : State :=
  { s with mem := s.mem.redraw b s.draws, draws := s.draws + 1 }

/-! ### The CODE table -/

/-- The entry of token `t`, when VALID (R46). -/
def codeEntry? (code : List (Nat × CodeEntry)) (t : Nat) : Option CodeEntry := lookupKey t code

/-- The bits of a code, first bit first: bit `j` is `BITS[j]` (R46). -/
def CodeEntry.toBits (e : CodeEntry) : List Bool := (List.range e.len.toNat).map fun j => e.bits.getLsbD j

/-- The value `sum over j of b_j * 2^j` of a bit list (R46, R74). -/
def packBits : List Bool → Nat
  | [] => 0
  | b :: bs => b.toNat + 2 * packBits bs

/-! ### The DICT table -/

/-- The stored entry of token `k` (R47). -/
def dictEntry? (d : List DictEntry) (k : Nat) : Option DictEntry := if k < 256 then none else d[k - 256]?

/-- The token the next insertion binds: DICT_NEXT (R33, R130). -/
def dictNext (d : List DictEntry) : Nat := 256 + d.length

/-- `first(k)`: `k` for a seed, FIRST[k] for a stored entry (R48). -/
def dictFirst (d : List DictEntry) (k : Nat) : Byte :=
  if k < 256 then BitVec.ofNat 8 k
  else match d[k - 256]? with
    | some e => e.first
    | none => 0#8

/-- `len(str(k))`: 1 for a seed, LENGTH[k] for a stored entry (R48). -/
def dictLength (d : List DictEntry) (k : Nat) : Nat :=
  if k < 256 then 1
  else match d[k - 256]? with
    | some e => e.length.toNat
    | none => 0

/-- `str(k)` (R48), following at most `fuel` links; of an unbound token, which no command asks for, the empty string (log 17). -/
def dictStringFuel (d : List DictEntry) : Nat → Nat → List Byte
  | 0, _ => []
  | fuel + 1, k =>
    if k < 256 then [BitVec.ofNat 8 k]
    else match d[k - 256]? with
      | some e => dictStringFuel d fuel e.pre.toNat ++ [e.symbol]
      | none => []

/-- `str(k)`, the string a bound token stands for (R48).  A prefix is smaller than its token, so a chain has
at most as many links as the table has entries. -/
def dictString (d : List DictEntry) (k : Nat) : List Byte := dictStringFuel d (d.length + 1) k

/-- `lookup(p, c)` (40_lzw.md R132). -/
def dictLookup (d : List DictEntry) (p : Nat) (c : Byte) : Option Nat :=
  (d.findIdx? fun e => decide (e.pre.toNat = p) && decide (e.symbol = c)).map (256 + ·)

/-- `insert(p, c)` (40_lzw.md R137): bind `str(p) ++ [c]` to the next free token, or fail when the table is full. -/
def dictInsert (cap : Nat) (d : List DictEntry) (p : Nat) (c : Byte) : Except ErrorKind (List DictEntry) :=
  if cap ≤ dictNext d then .error (.capacity .dict)
  else .ok (d ++ [{ pre := BitVec.ofNat 32 p, symbol := c, first := dictFirst d p,
                    length := BitVec.ofNat 32 (dictLength d p + 1) }])

/-! ### Reports and completion -/

/-- The resource numbers of R302. -/
def Resource.number : Resource → Nat
  | .sym => 1
  | .tok => 2
  | .bits => 3
  | .dict => 4
  | .codeLen => 5
  | .freq => 6

/-- The error codes of R300. -/
def ErrorKind.code : ErrorKind → Byte
  | .invalidToken _ => 1#8
  | .emptyAlphabet => 2#8
  | .unknownToken _ => 3#8
  | .truncatedStream _ => 4#8
  | .capacity _ => 5#8
  | .badCode _ => 6#8
  | .badTree => 7#8
  | .weightOverflow _ => 8#8
  | .illegalCommand _ => 9#8

/-- The error information of R300 and R302. -/
def ErrorKind.info : ErrorKind → Word
  | .invalidToken i => BitVec.ofNat 32 i
  | .emptyAlphabet => 0#32
  | .unknownToken i => BitVec.ofNat 32 i
  | .truncatedStream start => BitVec.ofNat 32 start
  | .capacity r => BitVec.ofNat 32 r.number
  | .badCode p => BitVec.ofNat 32 p
  | .badTree => 0#32
  | .weightOverflow node => BitVec.ofNat 32 node
  | .illegalCommand w => w

/-- The outcome (0, 0, 0) of a command that succeeds (43_control.md R264). -/
def Report.ok : Report := ⟨0#8, 0#8, 0#32⟩

/-- The outcome of a stage that fails (R264; 60_exceptions.md R303). -/
def Report.failure (stage : Byte) (e : ErrorKind) : Report := ⟨e.code, stage, e.info⟩

/-- Completion (43_control.md R263), of a success and of a failure alike: the shared operation by which the
block takes its "exceptions" (60_exceptions.md R307). -/
def State.complete (s : State) (r : Report) : State :=
  { s with errCode := r.code, errStage := r.stage, errInfo := r.info,
           busy := false, done := true, err := !decide (r.code = 0#8) }

/-- The engine step of an illegal word changes nothing but completion (43_control.md R272). -/
def State.completeIllegal (s : State) (w : Word) : State :=
  s.complete (Report.failure (opcodeField w) (.illegalCommand w))

/-- Run the next stage of a composite from the state the previous one left, unless it failed (43_control.md R265). -/
def StageOutcome.andThen (o : StageOutcome) (next : State → StageOutcome) : StageOutcome :=
  match o with
  | .ok t => next t
  | .failed t stage e => .failed t stage e

/-- "on the failure of any stage: ..." of a composite (R266, R267). -/
def StageOutcome.onFailure (o : StageOutcome) (f : State → State) : StageOutcome :=
  match o with
  | .ok t => .ok t
  | .failed t stage e => .failed (f t) stage e

/-- A command ends with the completion of its last stage's outcome (R263, R264). -/
def StageOutcome.finish (o : StageOutcome) : State :=
  match o with
  | .ok t => t.complete Report.ok
  | .failed t stage e => t.complete (Report.failure stage.opcode e)

/-! ### Reset -/

/-- Reset (70_reset_and_hazards.md R340): every piece of state takes its reset value, a latched command is lost, and
the buffers take a fresh draw (R343).  The outside world's inputs and what it has read are not the block's. -/
def State.applyReset (s : State) : State :=
  { State.afterReset s.cfg s.draws with inputs := s.inputs, reads := s.reads }

end Sys2Proof.Machine
end

