-- ==== Sys2Proof/Machine/Operands.lean ====
section
/-! DEFINITION. The operands: the places a bus offset names (20_memory.md R72, R73; 10_state.md R35), and the implicit
operands of the commands read from their buffers (30_encoding.md R105; 20_memory.md R79). -/

namespace Sys2Proof.Machine

/-! ### Bus offsets -/

/-- The registers of 10_state.md R35. -/
inductive Reg where
  | id | cmd | status | error | errInfo | irqEnable
  | symLen | tokLen | bitLen | nodeCount | root | dictNext
  | capSym | capTok | capBit | capDict | capCodeLen | capNode
  deriving DecidableEq, Repr

/-- What an offset names (R72). -/
inductive Location where
  | reg (r : Reg)
  /-- Word `i` of a data buffer. -/
  | word (b : BufId) (i : Nat)
  /-- Word `field` (0 to 3) of the CODE entry of token `t`. -/
  | code (t field : Nat)
  /-- Word `field` (0 to 3) of the DICT entry of token `k`. -/
  | dict (k field : Nat)
  /-- RAZ/WI (R73). -/
  | reserved
  deriving DecidableEq, Repr

/-- The register page (R35). -/
def regAt (off : Nat) : Option Reg :=
  match off with
  | 0x000 => some .id
  | 0x004 => some .cmd
  | 0x008 => some .status
  | 0x00C => some .error
  | 0x010 => some .errInfo
  | 0x014 => some .irqEnable
  | 0x020 => some .symLen
  | 0x024 => some .tokLen
  | 0x028 => some .bitLen
  | 0x02C => some .nodeCount
  | 0x030 => some .root
  | 0x034 => some .dictNext
  | 0x040 => some .capSym
  | 0x044 => some .capTok
  | 0x048 => some .capBit
  | 0x04C => some .capDict
  | 0x050 => some .capCodeLen
  | 0x054 => some .capNode
  | _ => none

/-- Word `i` of a data window; an index at or beyond the window's count, or a reserved word of an entry, is
reserved (R73). -/
def bufferLocation (c : Config) (b : BufId) (i : Nat) : Location :=
  if i < wordCount c b ∧ wordMask b i ≠ 0#32 then .word b i else .reserved

/-- The address map of R72, for an offset that is a multiple of 4. -/
def locate (c : Config) (off : Nat) : Location :=
  if off < 0x100000 then
    match regAt off with
    | some r => .reg r
    | none => .reserved
  else if off < 0x200000 then bufferLocation c .sym ((off - 0x100000) / 4)
  else if off < 0x300000 then bufferLocation c .tok ((off - 0x200000) / 4)
  else if off < 0x400000 then bufferLocation c .bits ((off - 0x300000) / 4)
  else if off < 0x500000 then bufferLocation c .freq ((off - 0x400000) / 4)
  else if off < 0x600000 then
    let t := (off - 0x500000) / 16
    if t < c.dictCap then .code t ((off - 0x500000) / 4 % 4) else .reserved
  else if off < 0x700000 then
    let k := (off - 0x600000) / 16
    if k < c.dictCap then .dict k ((off - 0x600000) / 4 % 4) else .reserved
  else if off < 0x800000 then .reserved
  else if off < 0xC00000 then bufferLocation c .node ((off - 0x800000) / 4)
  else .reserved

/-- The locations whose accesses are not held while BUSY = 1: ID, STATUS, IRQ_ENABLE and the capacity
registers (20_memory.md R80). -/
def Location.unheld : Location → Bool
  | .reg .id | .reg .status | .reg .irqEnable => true
  | .reg .capSym | .reg .capTok | .reg .capBit | .reg .capDict | .reg .capCodeLen | .reg .capNode => true
  | .reg .cmd | .reg .error | .reg .errInfo | .reg .symLen | .reg .tokLen | .reg .bitLen => false
  | .reg .nodeCount | .reg .root | .reg .dictNext => false
  | .word _ _ | .code _ _ | .dict _ _ | .reserved => false

/-- `offset = address - BASE`, for the addresses that reach the block (R70). -/
def Access.offset? (c : Config) (a : Access) : Option Nat :=
  if c.base ≤ a.addr ∧ a.addr < c.base + 2 ^ 24 then some (a.addr - c.base) else none

/-! ### Implicit operands of the commands -/

/-- `SYM[i]` (R40). -/
def Memory.symbol (m : Memory) (i : Nat) : Byte := (m.read .sym i).setWidth 8

/-- `SYM[0 .. n-1]`. -/
def Memory.symbols (m : Memory) (n : Nat) : List Byte := (List.range n).map m.symbol

/-- `TOK[0 .. n-1]` (R41). -/
def Memory.tokens (m : Memory) (n : Nat) : List Nat := (List.range n).map fun i => (m.read .tok i).toNat

/-- Stream bit `p` (20_memory.md R74). -/
def Memory.streamBit (m : Memory) (p : Nat) : Bool := (m.read .bits (p / 32)).getLsbD (p % 32)

/-- Stream bits `0 .. n-1`. -/
def Memory.stream (m : Memory) (n : Nat) : List Bool := (List.range n).map m.streamBit

/-- `FREQ[t]` (R43; 20_memory.md R75). -/
def Memory.freqOf (m : Memory) (t : Nat) : Nat :=
  (m.read .freq (2 * t)).toNat + 2 ^ 32 * (m.read .freq (2 * t + 1)).toNat

/-- `NODE[i]` as the engine reads it (R44, R45). -/
def Memory.nodeAt (m : Memory) (i : Nat) : Node :=
  if (m.read .node (8 * i)).getLsbD 0 then .leaf (m.read .node (8 * i + 1)).toNat
  else .internal (m.read .node (8 * i + 2)).toNat (m.read .node (8 * i + 3)).toNat

/-- `NODE[0 .. n-1]`. -/
def Memory.nodes (m : Memory) (n : Nat) : List Node := (List.range n).map m.nodeAt

/-- The nodes of the held tree (R45). -/
def State.heldNodes (s : State) : List Node := s.mem.nodes s.nodeCount.toNat

/-! ### Outputs of the commands -/

/-- Store symbols in `SYM[0 ..]`. -/
def Memory.putSymbols (m : Memory) (xs : List Byte) : Memory := m.writeFrom .sym 0 (xs.map fun x => x.setWidth 32)

/-- Store tokens in `TOK[0 ..]`. -/
def Memory.putTokens (m : Memory) (ts : List Nat) : Memory := m.writeFrom .tok 0 (ts.map (BitVec.ofNat 32))

/-- The two words of a 64-bit field, low word first (20_memory.md R75). -/
def words64 (v : Nat) : List Word := [BitVec.ofNat 32 v, BitVec.ofNat 32 (v / 2 ^ 32)]

/-- Store `FREQ[t]`. -/
def Memory.putFreq (m : Memory) (t : Nat) (v : Nat) : Memory := m.writeFrom .freq (2 * t) (words64 v)

/-- The words of a node that HUFF_BUILD creates (41_huffman.md R180; 10_state.md R44). -/
def Node.words (weight : Nat) : Node → List Word
  | .leaf t => [1#32, BitVec.ofNat 32 t, 0#32, 0#32] ++ words64 weight
  | .internal l r => [0#32, 0#32, BitVec.ofNat 32 l, BitVec.ofNat 32 r] ++ words64 weight

/-- Store nodes with their weights in `NODE[i ..]`. -/
def Memory.putNodes (m : Memory) (i : Nat) : List (Node × Nat) → Memory
  | [] => m
  | (nd, w) :: rest => (m.writeFrom .node (8 * i) (nd.words w)).putNodes (i + 1) rest

/-- The `n` stream words of a bit list, the last one filled with zeros (42_entropy.md R221). -/
def packWords : Nat → List Bool → List Word
  | 0, _ => []
  | n + 1, bs => BitVec.ofNat 32 (packBits (bs.take 32)) :: packWords n (bs.drop 32)

/-- Store a stream: the words up to the one holding its last bit (R221, R222).  DEDUCED (log 16, safe): all at the end of the
stage. -/
def Memory.putStream (m : Memory) (bs : List Bool) : Memory :=
  m.writeFrom .bits 0 (packWords ((bs.length + 31) / 32) bs)

end Sys2Proof.Machine
end

