-- ==== Sys2Proof/Machine/Huffman.lean ====
section
/-! DEFINITION. FREQ_COUNT, HUFF_BUILD, HUFF_CODES and the well-formedness of the held tree (41_huffman.md). -/

namespace Sys2Proof.Machine

/-! ### FREQ_COUNT -/

/-- The counting loop of R171 over a FREQ table that has been cleared. -/
def freqCountFrom (c : Config) : List Nat → Memory → Except ErrorKind Memory
  | [], m => .ok m
  | t :: ts, m =>
    if c.dictCap ≤ t then .error (.capacity .freq)
    else freqCountFrom c ts (m.putFreq t (m.freqOf t + 1))

/-- FREQ_COUNT's outputs on failure: every FREQ[t] is 0 (R173). -/
def freqCountFail (s : State) : State := { s with mem := s.mem.clear .freq }

/-- The stage FREQ_COUNT (R171 to R173). -/
def freqCountStage (s : State) : StageOutcome :=
  if s.cfg.tokCap < s.tokLen.toNat then .failed (freqCountFail s) .freqCount (.capacity .tok)
  else
    match freqCountFrom s.cfg (s.mem.tokens s.tokLen.toNat) (s.mem.clear .freq) with
    | .error e => .failed (freqCountFail s) .freqCount e
    | .ok m => .ok { s with mem := m }

/-- FREQ_COUNT, opcode 0x03. -/
def execFreqCount (s : State) : Host.Outcome State Fault Refusal := .next (freqCountStage s).finish

/-! ### HUFF_BUILD -/

/-- A member of the merge multiset: a node by its index, with its weight (R177). -/
structure MergeItem where
  weight : Nat
  index : Nat
  deriving DecidableEq, Repr

/-- `key(x) < key(y)`: lower weight first, then lower index (R177). -/
def MergeItem.before (x y : MergeItem) : Bool :=
  decide (x.weight < y.weight ∨ (x.weight = y.weight ∧ x.index < y.index))

/-- The member with the least key, and the multiset without it (R180); none of an empty multiset, from which nothing is taken
(log 17). -/
def takeLeast : List MergeItem → Option (MergeItem × List MergeItem)
  | [] => none
  | x :: xs =>
    match takeLeast xs with
    | none => some (x, [])
    | some (y, ys) => if x.before y then some (x, xs) else some (y, x :: ys)

/-- The leaves of R180 in increasing token order, with their weights. -/
def huffLeaves (c : Config) (m : Memory) : List (Node × Nat) :=
  (List.range c.dictCap).filterMap fun t =>
    if m.freqOf t = 0 then none else some (.leaf t, m.freqOf t)

/-- The merges of R180: `merges` of them, the next new node having index `next`.  The multiset has more than
`merges` members, so the two selections always find one. -/
def huffMerges : Nat → Nat → List MergeItem → Except ErrorKind (List (Node × Nat))
  | 0, _, _ => .ok []
  | merges + 1, next, q =>
    match takeLeast q with
    | none => .ok []
    | some (a, q') =>
      match takeLeast q' with
      | none => .ok []
      | some (b, q'') =>
        if 2 ^ 64 ≤ a.weight + b.weight then .error (.weightOverflow next)
        else
          match huffMerges merges (next + 1) (q'' ++ [⟨a.weight + b.weight, next⟩]) with
          | .error e => .error e
          | .ok rest => .ok ((.internal a.index b.index, a.weight + b.weight) :: rest)

/-- The multiset of the leaves, by their indices 0 .. L-1 (R177). -/
def huffQueue (leaves : List (Node × Nat)) : List MergeItem := leaves.mapIdx fun i p => ⟨p.2, i⟩

/-- The nodes of the built tree, leaves first (R180). -/
def huffTree (leaves : List (Node × Nat)) : Except ErrorKind (List (Node × Nat)) :=
  match leaves with
  | [] => .error .emptyAlphabet
  | p :: ps =>
    match huffMerges ps.length (ps.length + 1) (huffQueue (p :: ps)) with
    | .error e => .error e
    | .ok merged => .ok ((p :: ps) ++ merged)

/-- HUFF_BUILD's outputs on failure (R183). -/
def huffBuildFail (s : State) : State := { s.redraw .node with nodeCount := 0#32, root := 0#32 }

/-- The stage HUFF_BUILD (R180 to R183): `2*L - 1` nodes, the last one created being the root. -/
def huffBuildStage (s : State) : StageOutcome :=
  match huffTree (huffLeaves s.cfg s.mem) with
  | .error e => .failed (huffBuildFail s) .huffBuild e
  | .ok nds =>
    .ok { s with mem := s.mem.putNodes 0 nds, nodeCount := BitVec.ofNat 32 nds.length,
                 root := BitVec.ofNat 32 (nds.length - 1) }

/-- HUFF_BUILD, opcode 0x04. -/
def execHuffBuild (s : State) : Host.Outcome State Fault Refusal := .next (huffBuildStage s).finish

/-! ### Well-formed trees -/

/-- The child links of a node. -/
def Node.children : Node → List Nat
  | .leaf _ => []
  | .internal l r => [l, r]

/-- The token of a leaf. -/
def Node.leafToken? : Node → Option Nat
  | .leaf t => some t
  | .internal _ _ => none

/-- The nodes on the paths of fewer than `fuel` links down from node `i`. -/
def subtree (nds : List Node) : Nat → Nat → List Nat
  | 0, _ => []
  | fuel + 1, i =>
    i :: match nds[i]? with
      | some (.internal l r) => subtree nds fuel l ++ subtree nds fuel r
      | some (.leaf _) => []
      | none => []

/-- `pc(i)`: how many child links lead to node `i` (R190). -/
def parentCount (nds : List Node) (i : Nat) : Nat := (nds.flatMap Node.children).count i

/-- Conditions (V3) to (V5) of R190 for nodes 0 .. n-1 and root `rt`. -/
def treeShapeOk (c : Config) (n rt : Nat) (nds : List Node) : Bool :=
  (nds.all fun nd => nd.children.all fun j => decide (j < n))
    && ((List.range n).all fun i => decide (parentCount nds i = if i = rt then 0 else 1))
    && ((List.range n).all fun i => (subtree nds n rt).contains i)
    && ((nds.filterMap Node.leafToken?).all fun t => decide (t < c.dictCap))
    && decide (nds.filterMap Node.leafToken?).Nodup

/-- The held tree is well formed (R190).  NODE is read only when (V1) and (V2) hold. -/
def wellFormedTree (s : State) : Bool :=
  decide (1 ≤ s.nodeCount.toNat) && decide (s.nodeCount.toNat ≤ s.cfg.nodeCap)
    && decide (s.root.toNat < s.nodeCount.toNat)
    && treeShapeOk s.cfg s.nodeCount.toNat s.root.toNat s.heldNodes

/-! ### HUFF_CODES -/

/-- The leaves below node `i` with the edge bits that lead to them, 0 left and 1 right (R195). -/
def leafPaths (nds : List Node) : Nat → Nat → List (Nat × List Bool)
  | 0, _ => []
  | fuel + 1, i =>
    match nds[i]? with
    | some (.leaf t) => [(t, [])]
    | some (.internal l r) =>
      (leafPaths nds fuel l).map (fun p => (p.1, false :: p.2)) ++ (leafPaths nds fuel r).map (fun p => (p.1, true :: p.2))
    | none => []

/-- The codes of a well-formed tree of `n` nodes: the paths of its leaves, and the one-bit code "0" for the
token of a single-leaf tree (R195, R198). -/
def treeCodes (nds : List Node) (n rt : Nat) : List (Nat × List Bool) :=
  match nds[rt]? with
  | some (.leaf t) => [(t, [false])]
  | some (.internal _ _) => leafPaths nds n rt
  | none => []

/-- The CODE entry of a code: LEN, and bit `j` of the code at `BITS[j]` (R46, R195). -/
def CodeEntry.ofBits (bs : List Bool) : CodeEntry := ⟨BitVec.ofNat 7 bs.length, BitVec.ofNat 64 (packBits bs)⟩

/-- The CODE table that lists these codes. -/
def codeTable (cs : List (Nat × List Bool)) : List (Nat × CodeEntry) :=
  cs.foldr (fun p table => putKey p.1 (CodeEntry.ofBits p.2) table) []

/-- HUFF_CODES's outputs on failure: every CODE entry invalid (R197). -/
def huffCodesFail (s : State) : State := { s with code := [] }

/-- The stage HUFF_CODES (R195 to R198). -/
def huffCodesStage (s : State) : StageOutcome :=
  if wellFormedTree s then
    let cs := treeCodes s.heldNodes s.nodeCount.toNat s.root.toNat
    if cs.all fun p => decide (p.2.length ≤ s.cfg.codeMaxLen) then .ok { s with code := codeTable cs }
    else .failed (huffCodesFail s) .huffCodes (.capacity .codeLen)
  else .failed (huffCodesFail s) .huffCodes .badTree

/-- HUFF_CODES, opcode 0x05. -/
def execHuffCodes (s : State) : Host.Outcome State Fault Refusal := .next (huffCodesStage s).finish

end Sys2Proof.Machine
end

