-- ==== Sys2Proof/Machine/Entropy.lean ====
section
/-! DEFINITION. ENT_ENC and ENT_DEC (42_entropy.md). -/

namespace Sys2Proof.Machine

/-! ### ENT_ENC -/

/-- The code of a token, when it has an entry in the table (R221). -/
def codeOfToken (c : Config) (code : List (Nat × CodeEntry)) (t : Nat) : Option CodeEntry :=
  if c.dictCap ≤ t then none else codeEntry? code t

/-- The loop of R221 at token `i`, when `pos` bits have been written. -/
def entEncFrom (c : Config) (code : List (Nat × CodeEntry)) : List Nat → Nat → Nat → Except ErrorKind (List Bool)
  | [], _, _ => .ok []
  | t :: ts, i, pos =>
    match codeOfToken c code t with
    | none => .error (.unknownToken i)
    | some e =>
      if c.bitCap < pos + e.len.toNat then .error (.capacity .bits)
      else
        match entEncFrom c code ts (i + 1) (pos + e.len.toNat) with
        | .error e => .error e
        | .ok bs => .ok (e.toBits ++ bs)

/-- ENT_ENC's outputs on failure (R224). -/
def entEncFail (s : State) : State := { s.redraw .bits with bitLen := 0#32 }

/-- The stage ENT_ENC (R221 to R224). -/
def entEncStage (s : State) : StageOutcome :=
  if s.cfg.tokCap < s.tokLen.toNat then .failed (entEncFail s) .entEnc (.capacity .tok)
  else
    match entEncFrom s.cfg s.code (s.mem.tokens s.tokLen.toNat) 0 0 with
    | .error e => .failed (entEncFail s) .entEnc e
    | .ok bs => .ok { s with mem := s.mem.putStream bs, bitLen := BitVec.ofNat 32 bs.length }

/-- ENT_ENC, opcode 0x06. -/
def execEntEnc (s : State) : Host.Outcome State Fault Refusal := .next (entEncStage s).finish

/-! ### ENT_DEC -/

/-- The walk over a single-leaf tree (R235), at bit `p`, when `n` tokens have been emitted. -/
def entDecSingle (c : Config) (t : Nat) : List Bool → Nat → Nat → Except ErrorKind (List Nat)
  | [], _, _ => .ok []
  | b :: bs, p, n =>
    if b then .error (.badCode p)
    else if c.tokCap ≤ n then .error (.capacity .tok)
    else
      match entDecSingle c t bs (p + 1) (n + 1) with
      | .error e => .error e
      | .ok ts => .ok (t :: ts)

/-- The child of node `cur` that a stream bit leads to (R230).  The walk stands on internal nodes only (log 17). -/
def childAt (nds : List Node) (cur : Nat) (b : Bool) : Nat :=
  match nds[cur]? with
  | some (.internal l r) => if b then r else l
  | some (.leaf _) => cur
  | none => cur

/-- The walk of R230 at bit `p` and node `cur`, the current code having begun at bit `start`, when `n` tokens
have been emitted. -/
def entDecWalk (c : Config) (nds : List Node) (rt : Nat) :
    List Bool → Nat → Nat → Nat → Nat → Except ErrorKind (List Nat)
  | [], _, cur, start, _ => if cur = rt then .ok [] else .error (.truncatedStream start)
  | b :: bs, p, cur, start, n =>
    match nds[childAt nds cur b]? with
    | some (.leaf t) =>
      if c.tokCap ≤ n then .error (.capacity .tok)
      else
        match entDecWalk c nds rt bs (p + 1) rt (p + 1) (n + 1) with
        | .error e => .error e
        | .ok ts => .ok (t :: ts)
    | some (.internal _ _) => entDecWalk c nds rt bs (p + 1) (childAt nds cur b) start n
    | none => entDecWalk c nds rt bs (p + 1) (childAt nds cur b) start n

/-- The decoding of a stream by a well-formed tree (R230). -/
def entDecPass (c : Config) (nds : List Node) (rt : Nat) (bs : List Bool) : Except ErrorKind (List Nat) :=
  match nds[rt]? with
  | some (.leaf t) => entDecSingle c t bs 0 0
  | some (.internal _ _) => entDecWalk c nds rt bs 0 rt 0 0
  | none => entDecWalk c nds rt bs 0 rt 0 0

/-- ENT_DEC's outputs on failure (R233). -/
def entDecFail (s : State) : State := { s.redraw .tok with tokLen := 0#32 }

/-- The stage ENT_DEC (R230 to R235). -/
def entDecStage (s : State) : StageOutcome :=
  if s.cfg.bitCap < s.bitLen.toNat then .failed (entDecFail s) .entDec (.capacity .bits)
  else if wellFormedTree s then
    match entDecPass s.cfg s.heldNodes s.root.toNat (s.mem.stream s.bitLen.toNat) with
    | .error e => .failed (entDecFail s) .entDec e
    | .ok ts => .ok { s with mem := s.mem.putTokens ts, tokLen := BitVec.ofNat 32 ts.length }
  else .failed (entDecFail s) .entDec .badTree

/-- ENT_DEC, opcode 0x07. -/
def execEntDec (s : State) : Host.Outcome State Fault Refusal := .next (entDecStage s).finish

end Sys2Proof.Machine
end

