-- ==== Sys2Proof/Machine/Lzw.lean ====
section
/-! DEFINITION. LZW_ENC and LZW_DEC (40_lzw.md). -/

namespace Sys2Proof.Machine

/-! ### LZW_ENC -/

/-- The loop of R133 with a nonempty working string whose token is `w`, when `n` tokens have been emitted:
the tokens still emitted, and the dictionary at the end. -/
def lzwEncFrom (c : Config) : List Byte → Nat → Nat → List DictEntry → Except ErrorKind (List Nat × List DictEntry)
  | [], w, n, d => if c.tokCap ≤ n then .error (.capacity .tok) else .ok ([w], d)
  | x :: xs, w, n, d =>
    match dictLookup d w x with
    | some k => lzwEncFrom c xs k n d
    | none =>
      if c.tokCap ≤ n then .error (.capacity .tok)
      else
        match dictInsert c.dictCap d w x with
        | .error e => .error e
        | .ok d' =>
          match lzwEncFrom c xs x.toNat (n + 1) d' with
          | .error e => .error e
          | .ok (ts, d'') => .ok (w :: ts, d'')

/-- The pass of R133 over the symbols, from the seeds (R130): the tokens emitted and the dictionary. -/
def lzwEncPass (c : Config) (xs : List Byte) : Except ErrorKind (List Nat × List DictEntry) :=
  match xs with
  | [] => .ok ([], [])
  | x :: xs => lzwEncFrom c xs x.toNat 0 []

/-- LZW_ENC's outputs on failure (R136).  DEDUCED (log 15): also on the failure of the length check. -/
def lzwEncFail (s : State) : State := { s.redraw .tok with tokLen := 0#32, dict := [] }

/-- The stage LZW_ENC (R131, R133, R135, R136). -/
def lzwEncStage (s : State) : StageOutcome :=
  if s.cfg.symCap < s.symLen.toNat then .failed (lzwEncFail s) .lzwEnc (.capacity .sym)
  else
    match lzwEncPass s.cfg (s.mem.symbols s.symLen.toNat) with
    | .error e => .failed (lzwEncFail s) .lzwEnc e
    | .ok (ts, d) => .ok { s with mem := s.mem.putTokens ts, tokLen := BitVec.ofNat 32 ts.length, dict := d }

/-- LZW_ENC, opcode 0x01. -/
def execLzwEnc (s : State) : Host.Outcome State Fault Refusal := .next (lzwEncStage s).finish

/-! ### LZW_DEC -/

/-- The entry of a token after the first (R141): the string of a bound token, the KwKwK string of the next
free token (R145), and none for any other. -/
def lzwDecEntry (d : List DictEntry) (prev k : Nat) : Option (List Byte) :=
  if k < dictNext d then some (dictString d k)
  else if k = dictNext d then some (dictString d prev ++ [dictFirst d prev])
  else none

/-- The loop of R141 at token `i`, after token `prev`, when `n` symbols have been written. -/
def lzwDecFrom (c : Config) :
    List Nat → Nat → Nat → Nat → List DictEntry → Except ErrorKind (List Byte × List DictEntry)
  | [], _, _, _, d => .ok ([], d)
  | k :: ks, i, prev, n, d =>
    match lzwDecEntry d prev k with
    | none => .error (.invalidToken i)
    | some entry =>
      if c.symCap < n + entry.length then .error (.capacity .sym)
      else
        match dictInsert c.dictCap d prev (entry.headD 0#8) with
        | .error e => .error e
        | .ok d' =>
          match lzwDecFrom c ks (i + 1) k (n + entry.length) d' with
          | .error e => .error e
          | .ok (out, d'') => .ok (entry ++ out, d'')

/-- The pass of R141 over the tokens, from the seeds (R130): the symbols decoded and the dictionary. -/
def lzwDecPass (c : Config) (ks : List Nat) : Except ErrorKind (List Byte × List DictEntry) :=
  match ks with
  | [] => .ok ([], [])
  | k :: ks =>
    if 256 ≤ k then .error (.invalidToken 0)
    else if c.symCap < 1 then .error (.capacity .sym)
    else
      match lzwDecFrom c ks 1 k 1 [] with
      | .error e => .error e
      | .ok (out, d) => .ok (BitVec.ofNat 8 k :: out, d)

/-- LZW_DEC's outputs on failure (R144). -/
def lzwDecFail (s : State) : State := { s.redraw .sym with symLen := 0#32, dict := [] }

/-- The stage LZW_DEC (R131, R141, R143, R144). -/
def lzwDecStage (s : State) : StageOutcome :=
  if s.cfg.tokCap < s.tokLen.toNat then .failed (lzwDecFail s) .lzwDec (.capacity .tok)
  else
    match lzwDecPass s.cfg (s.mem.tokens s.tokLen.toNat) with
    | .error e => .failed (lzwDecFail s) .lzwDec e
    | .ok (out, d) => .ok { s with mem := s.mem.putSymbols out, symLen := BitVec.ofNat 32 out.length, dict := d }

/-- LZW_DEC, opcode 0x02. -/
def execLzwDec (s : State) : Host.Outcome State Fault Refusal := .next (lzwDecStage s).finish

end Sys2Proof.Machine
end

