-- ==== Sys2Proof/Machine/Control.lean ====
section
/-! DEFINITION. The composite commands and CLEAR (43_control.md R265 to R271). -/

namespace Sys2Proof.Machine

/-- The stages of COMPRESS in order; a failure also clears BIT_LEN (R266). -/
def compressStages (s : State) : StageOutcome :=
  ((((lzwEncStage s).andThen freqCountStage).andThen huffBuildStage).andThen huffCodesStage).andThen entEncStage
    |>.onFailure fun t => { t with bitLen := 0#32 }

/-- COMPRESS, opcode 0x08. -/
def execCompress (s : State) : Host.Outcome State Fault Refusal := .next (compressStages s).finish

/-- The stages of DECOMPRESS in order; a failure also clears SYM_LEN (R267). -/
def decompressStages (s : State) : StageOutcome :=
  ((entDecStage s).andThen lzwDecStage).onFailure fun t => { t with symLen := 0#32 }

/-- DECOMPRESS, opcode 0x09. -/
def execDecompress (s : State) : Host.Outcome State Fault Refusal := .next (decompressStages s).finish

/-- Every buffer zero (R270). -/
def Memory.zeros : Memory where
  sym := ⟨.zero, []⟩
  tok := ⟨.zero, []⟩
  bits := ⟨.zero, []⟩
  freq := ⟨.zero, []⟩
  node := ⟨.zero, []⟩

/-- The effect of CLEAR before completion (R270). -/
def clearAll (s : State) : State :=
  { s with mem := Memory.zeros, code := [], dict := [],
           symLen := 0#32, tokLen := 0#32, bitLen := 0#32, nodeCount := 0#32, root := 0#32 }

/-- CLEAR, opcode 0x0A: it cannot fail (R270). -/
def execClear (s : State) : Host.Outcome State Fault Refusal := .next ((clearAll s).complete Report.ok)

end Sys2Proof.Machine
end

