-- ==== Sys2Proof/Machine/Dispatch.lean ====
section
/-! DEFINITION. One arm per command: the transition of the engine step that runs it (43_control.md R262). -/

namespace Sys2Proof.Machine

def exec (i : Instr) (s : State) : Host.Outcome State Fault Refusal :=
  match i with
  | .lzwEnc => Sys2Proof.Machine.execLzwEnc s
  | .lzwDec => Sys2Proof.Machine.execLzwDec s
  | .freqCount => Sys2Proof.Machine.execFreqCount s
  | .huffBuild => Sys2Proof.Machine.execHuffBuild s
  | .huffCodes => Sys2Proof.Machine.execHuffCodes s
  | .entEnc => Sys2Proof.Machine.execEntEnc s
  | .entDec => Sys2Proof.Machine.execEntDec s
  | .compress => Sys2Proof.Machine.execCompress s
  | .decompress => Sys2Proof.Machine.execDecompress s
  | .clear => Sys2Proof.Machine.execClear s

end Sys2Proof.Machine
end

