-- ==== Sys2Proof/Machine/HostBus.lean ====
section
/-! DEFINITION. Host accesses (43_control.md R260, R261; 20_memory.md R70 to R80). -/

namespace Sys2Proof.Machine

/-- The value a register reads (10_state.md R22 to R34). -/
def State.readReg (s : State) : Reg → Word
  | .id => Config.idValue
  | .cmd => 0#32
  | .status => s.statusWord
  | .error => 0#16 ++ s.errStage ++ s.errCode
  | .errInfo => s.errInfo
  | .irqEnable => s.irqEnableWord
  | .symLen => s.symLen
  | .tokLen => s.tokLen
  | .bitLen => s.bitLen
  | .nodeCount => s.nodeCount
  | .root => s.root
  | .dictNext => BitVec.ofNat 32 s.dictNext
  | .capSym => BitVec.ofNat 32 s.cfg.symCap
  | .capTok => BitVec.ofNat 32 s.cfg.tokCap
  | .capBit => BitVec.ofNat 32 s.cfg.bitCap
  | .capDict => BitVec.ofNat 32 s.cfg.dictCap
  | .capCodeLen => BitVec.ofNat 32 s.cfg.codeMaxLen
  | .capNode => BitVec.ofNat 32 s.cfg.nodeCap

/-- A word of a CODE entry: CTRL, BITS[31:0], BITS[63:32], reserved (10_state.md R46). -/
def State.readCode (s : State) (t field : Nat) : Word :=
  match codeEntry? s.code t with
  | none => 0#32
  | some e =>
    match field with
    | 0 => 1#1 ++ 0#24 ++ e.len
    | 1 => e.bits.lo
    | 2 => e.bits.hi
    | _ => 0#32

/-- A word of a DICT entry: PREFIX, SYMBOL, FIRST, LENGTH (10_state.md R47): a seed, a stored entry, or unbound. -/
def State.readDict (s : State) (k field : Nat) : Word :=
  if k < 256 then
    match field with
    | 0 => 0xFFFFFFFF#32
    | 1 => BitVec.ofNat 32 k
    | 2 => BitVec.ofNat 32 k
    | _ => 1#32
  else
    match dictEntry? s.dict k with
    | none => 0#32
    | some e =>
      match field with
      | 0 => e.pre
      | 1 => e.symbol.setWidth 32
      | 2 => e.first.setWidth 32
      | _ => e.length

/-- The value a location reads; a read changes nothing (R78, R261). -/
def State.readLocation (s : State) : Location → Word
  | .reg r => s.readReg r
  | .word b i => s.mem.read b i
  | .code t field => s.readCode t field
  | .dict k field => s.readDict k field
  | .reserved => 0#32

/-- `MemRead(offset, 4)` (R70, R72). -/
def State.readOffset (s : State) (off : Nat) : Word := s.readLocation (locate s.cfg off)

/-- A write to a register: a write to CMD issues a command (R260), a write to STATUS is W1C (R24), a write to an
RO register is ignored (R73). -/
def State.writeReg (s : State) (r : Reg) (v : Word) : State :=
  match r with
  | .cmd => s.accept v
  | .status => s.acknowledge v
  | .irqEnable => s.setIrqEnable v
  | .symLen => { s with symLen := v }
  | .tokLen => { s with tokLen := v }
  | .bitLen => { s with bitLen := v }
  | .nodeCount => { s with nodeCount := v }
  | .root => { s with root := v }
  | .id | .error | .errInfo | .dictNext => s
  | .capSym | .capTok | .capBit | .capDict | .capCodeLen | .capNode => s

/-- A write to a location; the CODE and DICT tables are RO and reserved locations ignore writes (R73). -/
def State.writeLocation (s : State) (l : Location) (v : Word) : State :=
  match l with
  | .reg r => s.writeReg r v
  | .word b i => { s with mem := s.mem.write b i v }
  | .code _ _ => s
  | .dict _ _ => s
  | .reserved => s

/-- `MemWrite(offset, 4, v)` (R70, R72). -/
def State.writeOffset (s : State) (off : Nat) (v : Word) : State := s.writeLocation (locate s.cfg off) v

/-- An access performed at an offset: a read hands its value to the host, a write takes effect. -/
def State.performAt (s : State) (off : Nat) : AccessKind → State
  | .read => { s with reads := s.reads ++ [s.readOffset off] }
  | .write v => s.writeOffset off v

/-- A host access (R261).  A bus error is refused (R71); an address that is no offset of the block is a fault (R70;
log 11). -/
def hostAccess (a : Access) (s : State) : Host.Outcome State Fault Refusal :=
  match a.offset? s.cfg with
  | none => .fault .outsideBlock
  | some off => if wellFormedAccess off a.width then .next (s.performAt off a.kind) else .refused .busError

/-- The access is held: BUSY = 1, and its offset is not of an unheld group (R80). -/
def State.holds (s : State) (a : Access) : Bool :=
  s.busy &&
    match a.offset? s.cfg with
    | none => false
    | some off => wellFormedAccess off a.width && !(locate s.cfg off).unheld

/-- Reset asserted while an access is outstanding (70_reset_and_hazards.md R340): the access has no effect, and a read
returns an unspecified value (log 12).  DESIGN CHOICE (log 20, safe): the same for an access that is itself sub-word, misaligned or
outside the block, which R71 and R70 would stop; neither its address nor its width is looked at. -/
def resetOverAccess (a : Access) (s : State) : State :=
  match a.kind with
  | .read => { s.applyReset with reads := s.reads ++ [Config.freeRead s.draws] }
  | .write _ => s.applyReset

end Sys2Proof.Machine
end

