-- ==== Sys2Proof/Machine/Step.lean ====
section
/-! DEFINITION. One step of the whole machine: a host access, a reset, or the engine's command (43_control.md R260 to
R263; 20_memory.md R80, R81; 70_reset_and_hazards.md R340). -/

namespace Sys2Proof.Machine

/-- The engine step (R262): decode the latched word and perform the command, or complete an illegal word (R272). -/
def engineStep (s : State) : Host.Outcome State Fault Refusal :=
  match decode s.latch with
  | .command i => exec i s
  | .reservedBits => .next (s.completeIllegal s.latch)
  | .unassignedOpcode => .next (s.completeIllegal s.latch)

/-- The engine's turn: its step is enabled exactly when BUSY = 1 (R262); otherwise the block waits (70_reset_and_hazards.md
R342; log 9). -/
def engineTurn (s : State) : Host.Outcome State Fault Refusal := if s.busy then engineStep s else .next s

/-- One step.  The pending inputs say what the outside world does next and in which order; an access that is
held stays pending while the engine completes the running command (R80). -/
def step (s : State) : Host.Outcome State Fault Refusal :=
  match s.inputs with
  | [] => engineTurn s
  | .access a :: rest => if s.holds a then engineStep s else hostAccess a { s with inputs := rest }
  | .engineTurn :: rest => engineTurn { s with inputs := rest }
  | .reset :: rest => .next (State.applyReset { s with inputs := rest })
  | .resetOver a :: rest => .next (resetOverAccess a { s with inputs := rest })

/-- The state in which the given opcode-table word has just been accepted from CMD (R260) and the engine has the next
turn: the block fetches nothing, so a command is placed by accepting it (log 13). -/
def State.withFetchWord (s : State) (nbits w : Nat) : State :=
  { s.accept (BitVec.ofNat 32 (w % 2 ^ nbits)) with inputs := .engineTurn :: s.inputs }

end Sys2Proof.Machine
end

