-- ==== Sys2Proof/Reference.lean ====
section
/-! DEFINITION. The spec's notions that the statements compare the machine with: the source's LZW algorithm over a dictionary
of strings (the words quoted in 40_lzw.md R133 and R141), a well-formed tree as 41_huffman.md R190 says it, the
code of a token (R195, R198), the merges of R180 as a relation, and the stages of a composite command in order
(43_control.md R265).  The machine never uses them. -/

namespace Sys2Proof.Reference

open Sys2Proof.Machine

/-! ### LZW over strings, with no capacity -/

/-- The strings learned in a pass, in the order of their tokens 256, 257, ... -/
abbrev Strings := List (List Byte)

/-- The token of a string that is a dictionary entry: every one-symbol string, and the learned ones. -/
def tokenOf (d : Strings) : List Byte → Option Nat
  | [] => none
  | [c] => some c.toNat
  | c :: c' :: w => (d.idxOf? (c :: c' :: w)).map (256 + ·)

/-- "For each incoming symbol c: form wc = w + c. If wc is already a dictionary entry, set w = wc and continue ...
Otherwise, emit the token for w, insert wc into the dictionary bound to the next free token id ..., and reset
w = c. After the input is exhausted, if w is non-empty, emit its token." (R133) -/
def encodeFrom (d : Strings) (w : List Byte) : List Byte → List Nat × Strings
  | [] => ((tokenOf d w).toList, d)
  | c :: cs =>
    match tokenOf d (w ++ [c]) with
    | some _ => encodeFrom d (w ++ [c]) cs
    | none =>
      ((tokenOf d w).toList ++ (encodeFrom (d ++ [w ++ [c]]) [c] cs).1, (encodeFrom (d ++ [w ++ [c]]) [c] cs).2)

/-- The source's `lzw_encode`: the tokens, and the strings learned. -/
def lzwEncode : List Byte → List Nat × Strings
  | [] => ([], [])
  | c :: cs => encodeFrom [] [c] cs

/-- The string of a bound token. -/
def stringOf (d : Strings) (k : Nat) : Option (List Byte) :=
  if k < 256 then some [BitVec.ofNat 8 k] else d[k - 256]?

/-- "if k is already bound, let entry be its string; otherwise — this is valid only when k equals the next unassigned
token id — let entry = w + w[0] ... Any other unbound k is malformed input" (R141) -/
def entryFor (d : Strings) (w : List Byte) (k : Nat) : Option (List Byte) :=
  match stringOf d k with
  | some e => some e
  | none => if k = 256 + d.length then some (w ++ w.take 1) else none

/-- "Append entry to the output, bind the next free token id to w + entry[0], increment the counter, and set
w = entry." (R141) -/
def decodeFrom (d : Strings) (w : List Byte) : List Nat → Option (List Byte × Strings)
  | [] => some ([], d)
  | k :: ks =>
    match entryFor d w k with
    | none => none
    | some e =>
      match decodeFrom (d ++ [w ++ e.take 1]) e ks with
      | none => none
      | some (out, d') => some (e ++ out, d')

/-- The source's `lzw_decode`: the symbols and the strings learned, or none on malformed input. -/
def lzwDecode : List Nat → Option (List Byte × Strings)
  | [] => some ([], [])
  | k :: ks =>
    match stringOf [] k with
    | none => none
    | some e =>
      match decodeFrom [] e ks with
      | none => none
      | some (out, d) => some (e ++ out, d)

/-- The strings of the stored entries of a DICT table, in token order (10_state.md R48). -/
def dictStrings (d : List DictEntry) : Strings := (List.range d.length).map fun j => dictString d (256 + j)

/-! ### Trees -/

/-- Node `j` is reached from node `i` by child links. -/
inductive Reaches (s : State) (i : Nat) : Nat → Prop where
  | here : Reaches s i i
  | left {j l r : Nat} : Reaches s i j → s.mem.nodeAt j = .internal l r → Reaches s i l
  | right {j l r : Nat} : Reaches s i j → s.mem.nodeAt j = .internal l r → Reaches s i r

/-- Node `j` has LEFT = `i`. -/
def hasLeft (s : State) (i j : Nat) : Bool :=
  match s.mem.nodeAt j with
  | .internal l _ => decide (l = i)
  | .leaf _ => false

/-- Node `j` has RIGHT = `i`. -/
def hasRight (s : State) (i j : Nat) : Bool :=
  match s.mem.nodeAt j with
  | .internal _ r => decide (r = i)
  | .leaf _ => false

/-- `pc(i)` of (V4), over the nodes below `n`. -/
def parents (s : State) (n i : Nat) : Nat :=
  (List.range n).countP (hasLeft s i) + (List.range n).countP (hasRight s i)

/-- "The held tree is *well formed* when all of these hold" (R190). -/
structure TreeWellFormed (s : State) : Prop where
  v1 : 1 ≤ s.nodeCount.toNat ∧ s.nodeCount.toNat ≤ s.cfg.nodeCap
  v2 : s.root.toNat < s.nodeCount.toNat
  v3 : ∀ i l r, i < s.nodeCount.toNat → s.mem.nodeAt i = .internal l r →
    l < s.nodeCount.toNat ∧ r < s.nodeCount.toNat
  v4root : parents s s.nodeCount.toNat s.root.toNat = 0
  v4other : ∀ i, i < s.nodeCount.toNat → i ≠ s.root.toNat → parents s s.nodeCount.toNat i = 1
  v4reach : ∀ i, i < s.nodeCount.toNat → Reaches s s.root.toNat i
  v5range : ∀ i t, i < s.nodeCount.toNat → s.mem.nodeAt i = .leaf t → t < s.cfg.dictCap
  v5once : ∀ i j t, i < s.nodeCount.toNat → j < s.nodeCount.toNat → s.mem.nodeAt i = .leaf t →
    s.mem.nodeAt j = .leaf t → i = j

/-- The node at the end of the path of these edge bits from node `i`, 0 left and 1 right (R45). -/
def walk (s : State) : Nat → List Bool → Option Nat
  | i, [] => some i
  | i, b :: bs =>
    match s.mem.nodeAt i with
    | .internal l r => walk s (if b then r else l) bs
    | .leaf _ => none

/-- `p` is the code of token `t` in the held tree: the edge bits from the root to its leaf (R195), and the
one-bit code "0" when the root is a leaf (R198). -/
def IsCode (s : State) (t : Nat) (p : List Bool) : Prop :=
  match s.mem.nodeAt s.root.toNat with
  | .leaf t' => t = t' ∧ p = [false]
  | .internal _ _ => ∃ x, walk s s.root.toNat p = some x ∧ s.mem.nodeAt x = .leaf t

/-- WEIGHT of node `i` (10_state.md R44). -/
def weightAt (s : State) (i : Nat) : Nat :=
  (s.mem.read .node (8 * i + 4)).toNat + 2 ^ 32 * (s.mem.read .node (8 * i + 5)).toNat

/-- `a` and then `b` are the members of least key of the multiset `q`, and `rest` are the others (R177, R180). -/
structure LeastTwo (q : List MergeItem) (a b : MergeItem) (rest : List MergeItem) : Prop where
  members : (a :: b :: rest).Perm q
  first : ∀ y ∈ b :: rest, a.before y = true
  second : ∀ y ∈ rest, b.before y = true

/-- The merges of R180 from a multiset of members, the next new node having index `next`, create these
internal nodes in order: each takes the two members of least key, the first one left. -/
inductive Merges : List MergeItem → Nat → List (Node × Nat) → Prop where
  | done (x : MergeItem) (next : Nat) : Merges [x] next []
  | merge {q rest : List MergeItem} {a b : MergeItem} {next : Nat} {out : List (Node × Nat)} :
    LeastTwo q a b rest →
    Merges (⟨a.weight + b.weight, next⟩ :: rest) (next + 1) out →
    Merges q next ((.internal a.index b.index, a.weight + b.weight) :: out)

/-- The first merge of R180 whose weight sum does not fit in 64 bits would have made node `node` (R181). -/
inductive OverflowsAt : List MergeItem → Nat → Nat → Prop where
  | here {q rest : List MergeItem} {a b : MergeItem} {next : Nat} :
    LeastTwo q a b rest → 2 ^ 64 ≤ a.weight + b.weight → OverflowsAt q next next
  | later {q rest : List MergeItem} {a b : MergeItem} {next node : Nat} :
    LeastTwo q a b rest → a.weight + b.weight < 2 ^ 64 →
    OverflowsAt (⟨a.weight + b.weight, next⟩ :: rest) (next + 1) node → OverflowsAt q next node

/-! ### The frequency table -/

/-- The tokens of the frequency table in increasing order (R176). -/
def freqTokens (s : State) : List Nat := (List.range s.cfg.dictCap).filter fun t => s.mem.freqOf t != 0

/-- The leaves HUFF_BUILD starts from, as members of its multiset (R177). -/
def freqMembers (s : State) : List MergeItem := (freqTokens s).mapIdx fun i k => ⟨s.mem.freqOf k, i⟩

/-- The sum of all FREQ[t]. -/
def freqTotal (s : State) : Nat := ((List.range s.cfg.dictCap).map s.mem.freqOf).sum

/-! ### Codes and commands in order -/

/-- The code of a token in the CODE table, for a token that has an entry (42_entropy.md R221). -/
def codeFor (s : State) (t : Nat) : Option (List Bool) :=
  if t < s.cfg.dictCap then (codeEntry? s.code t).map CodeEntry.toBits else none

/-- Run commands one after the other, stopping at the first that reports an error (43_control.md R265). -/
def runInOrder : List Instr → State → State
  | [], s => s
  | i :: is, s =>
    match exec i s with
    | .next t => if t.errCode = 0#8 then runInOrder is t else t
    | .fault _ => s
    | .refused _ => s

/-- The first command that reports an error when the commands run one after the other (R265; 60_exceptions.md R303). -/
def firstFailing : List Instr → State → Option Instr
  | [], _ => none
  | i :: is, s =>
    match exec i s with
    | .next t => if t.errCode = 0#8 then firstFailing is t else some i
    | .fault _ => none
    | .refused _ => none

end Sys2Proof.Reference
end

