-- ==== Sys2Proof/Safety.lean ====
section
/-! DEFINITION. What a safe run is, the invariants of the state, the reports of a completion, and the state components of
30_encoding.md R105: the terms the statements use. -/

namespace Sys2Proof.Machine

/-! ### Runs -/

/-- `k` steps from `s` meet no fault and no refusal. -/
def SafeFor : Nat → State → Prop
  | 0, _ => True
  | k + 1, s => ∃ t, step s = .next t ∧ SafeFor k t

/-- A pending host access reaches the block and is 32 bits wide and aligned (20_memory.md R70). -/
def Access.proper (c : Config) (a : Access) : Prop :=
  c.base ≤ a.addr ∧ a.addr < c.base + 2 ^ 24 ∧ a.width = 4 ∧ (a.addr - c.base) % 4 = 0

/-- Every pending host access is proper: what a platform owes the block. -/
def State.properInputs (s : State) : Prop := ∀ a, Input.access a ∈ s.inputs → a.proper s.cfg

/-- The offset is of one of the groups that are never held: ID, STATUS, IRQ_ENABLE and the capacity registers (R80). -/
def unheldOffset (off : Nat) : Prop := off = 0x000 ∨ off = 0x008 ∨ off = 0x014 ∨ (0x040 ≤ off ∧ off ≤ 0x054)

/-- When the engine has the next turn with a command latched: the state it runs the command in. -/
def State.engineNext (s : State) : Option State :=
  if s.busy then
    match s.inputs with
    | [] => some s
    | .access a :: _ => if s.holds a then some s else none
    | .engineTurn :: rest => some { s with inputs := rest }
    | .reset :: _ => none
    | .resetOver _ :: _ => none
  else none

/-- The next input is a proper access of this kind at offset `off`, and `rest` are the inputs after it. -/
def State.nextAccess (s : State) (off : Nat) (k : AccessKind) (rest : List Input) : Prop :=
  ∃ a, s.inputs = .access a :: rest ∧ a.proper s.cfg ∧ a.addr = s.cfg.base + off ∧ a.kind = k

/-- The next input is a proper write of `v` at offset `off`. -/
def State.writeNext (s : State) (off : Nat) (v : Word) : Prop := ∃ rest, s.nextAccess off (.write v) rest

/-- The next input is a reset, with or without an access outstanding. -/
def State.resetNext (s : State) : Prop := ∃ rest, s.inputs = .reset :: rest ∨ ∃ a, s.inputs = .resetOver a :: rest

/-- The engine has the next turn, and its step answers `t`. -/
def State.engineMoves (s t : State) : Prop := ∃ s0, s.engineNext = some s0 ∧ engineStep s0 = .next t

/-! ### Reports -/

/-- The state right after a completion with this code, stage and information (43_control.md R263). -/
structure State.Reports (t : State) (code stage info : Nat) : Prop where
  busy : t.busy = false
  done : t.done = true
  err : t.err = decide (code ≠ 0)
  code : t.errCode.toNat = code
  stage : t.errStage.toNat = stage
  info : t.errInfo.toNat = info

/-- The report of a success is (0, 0, 0) (R264). -/
abbrev State.Succeeded (t : State) : Prop := t.Reports 0 0 0

/-- The stages a command can report as the failing one (60_exceptions.md R303): itself, or for a composite its own stages
in their order (43_control.md R266, R267). -/
def failingStages : Instr → List Instr
  | .lzwEnc => [.lzwEnc]
  | .lzwDec => [.lzwDec]
  | .freqCount => [.freqCount]
  | .huffBuild => [.huffBuild]
  | .huffCodes => [.huffCodes]
  | .entEnc => [.entEnc]
  | .entDec => [.entDec]
  | .compress => [.lzwEnc, .freqCount, .huffBuild, .huffCodes, .entEnc]
  | .decompress => [.entDec, .lzwDec]
  | .clear => []

/-! ### Components -/

/-- The state components of R105; DICT stands for DICT and DICT_NEXT, and FREQ, NODE, TOK, SYM, BITS for whole buffers. -/
inductive Component where
  | symLen | sym | tokLen | tok | bitLen | bits | freq | nodeCount | root | node | code | dict
  deriving DecidableEq, Repr

/-- Two states agree on a component. -/
def Component.agree (s t : State) : Component → Prop
  | .symLen => t.symLen = s.symLen
  | .sym => t.mem.sym = s.mem.sym
  | .tokLen => t.tokLen = s.tokLen
  | .tok => t.mem.tok = s.mem.tok
  | .bitLen => t.bitLen = s.bitLen
  | .bits => t.mem.bits = s.mem.bits
  | .freq => t.mem.freq = s.mem.freq
  | .nodeCount => t.nodeCount = s.nodeCount
  | .root => t.root = s.root
  | .node => t.mem.node = s.mem.node
  | .code => t.code = s.code
  | .dict => t.dict = s.dict

/-- The "reads" column of R105. -/
def commandReads : Instr → List Component
  | .lzwEnc => [.symLen, .sym]
  | .lzwDec => [.tokLen, .tok]
  | .freqCount => [.tokLen, .tok]
  | .huffBuild => [.freq]
  | .huffCodes => [.nodeCount, .root, .node]
  | .entEnc => [.tokLen, .tok, .code]
  | .entDec => [.bitLen, .bits, .nodeCount, .root, .node]
  | .compress => [.symLen, .sym, .tokLen, .tok, .freq, .nodeCount, .root, .node, .code]
  | .decompress => [.bitLen, .bits, .nodeCount, .root, .node, .tokLen, .tok]
  | .clear => []

/-- The "writes" column of R105. -/
def commandWrites : Instr → List Component
  | .lzwEnc => [.tok, .tokLen, .dict]
  | .lzwDec => [.sym, .symLen, .dict]
  | .freqCount => [.freq]
  | .huffBuild => [.node, .nodeCount, .root]
  | .huffCodes => [.code]
  | .entEnc => [.bits, .bitLen]
  | .entDec => [.tok, .tokLen]
  | .compress => [.tok, .tokLen, .dict, .freq, .node, .nodeCount, .root, .code, .bits, .bitLen]
  | .decompress => [.tok, .tokLen, .sym, .symLen, .dict]
  | .clear => [.symLen, .sym, .tokLen, .tok, .bitLen, .bits, .freq, .nodeCount, .root, .node, .code, .dict]

/-- "A failing stage leaves its outputs as follows" (60_exceptions.md R306), and what COMPRESS and DECOMPRESS add; a buffer
it calls unspecified may hold anything. -/
def failedOutputs (t : State) : Instr → Prop
  | .lzwEnc => t.tokLen = 0#32 ∧ t.dict = [] ∧ t.dictNext = 256
  | .lzwDec => t.symLen = 0#32 ∧ t.dict = [] ∧ t.dictNext = 256
  | .freqCount => ∀ k, t.mem.freqOf k = 0
  | .huffBuild => t.nodeCount = 0#32 ∧ t.root = 0#32
  | .huffCodes => ∀ k, codeEntry? t.code k = none
  | .entEnc => t.bitLen = 0#32
  | .entDec => t.tokLen = 0#32
  | .compress => t.bitLen = 0#32
  | .decompress => t.symLen = 0#32
  | .clear => False

/-! ### Host-writable words -/

/-- The offsets whose writes are stored: the RW registers and the words of the RW windows (20_memory.md R72, R73; 10_state.md
R35).  CMD and STATUS, whose writes do something else, are not among them. -/
def hostWritable (c : Config) (off : Nat) : Prop :=
  off = 0x014 ∨ off = 0x020 ∨ off = 0x024 ∨ off = 0x028 ∨ off = 0x02C ∨ off = 0x030
    ∨ (0x100000 ≤ off ∧ off < 0x100000 + 4 * c.symCap)
    ∨ (0x200000 ≤ off ∧ off < 0x200000 + 4 * c.tokCap)
    ∨ (0x300000 ≤ off ∧ off < 0x300000 + 4 * (c.bitCap / 32))
    ∨ (0x400000 ≤ off ∧ off < 0x400000 + 8 * c.dictCap)
    ∨ (0x800000 ≤ off ∧ off < 0x800000 + 32 * c.nodeCap ∧ off % 32 < 0x18)

/-- The reserved offsets of 20_memory.md R73: an unlisted offset of the register page, an index at or beyond a window's
count, a reserved word of an entry, or an offset of a reserved range. -/
def reservedOffset (c : Config) (off : Nat) : Prop :=
  off = 0x018 ∨ off = 0x01C ∨ off = 0x038 ∨ off = 0x03C ∨ (0x058 ≤ off ∧ off < 0x100000)
    ∨ (0x100000 + 4 * c.symCap ≤ off ∧ off < 0x200000)
    ∨ (0x200000 + 4 * c.tokCap ≤ off ∧ off < 0x300000)
    ∨ (0x300000 + 4 * (c.bitCap / 32) ≤ off ∧ off < 0x400000)
    ∨ (0x400000 + 8 * c.dictCap ≤ off ∧ off < 0x500000)
    ∨ (0x500000 ≤ off ∧ off < 0x600000 ∧ (0x500000 + 16 * c.dictCap ≤ off ∨ off % 16 = 0xC))
    ∨ (0x600000 + 16 * c.dictCap ≤ off ∧ off < 0x700000)
    ∨ (0x700000 ≤ off ∧ off < 0x800000)
    ∨ (0x800000 ≤ off ∧ off < 0xC00000 ∧ (0x800000 + 32 * c.nodeCap ≤ off ∨ 0x18 ≤ off % 32))
    ∨ (0xC00000 ≤ off ∧ off < 2 ^ 24)

/-- The offsets of the RO registers and of the RO windows CODE and DICT (10_state.md R35; 20_memory.md R72). -/
def readOnlyOffset (off : Nat) : Prop :=
  off = 0x000 ∨ off = 0x00C ∨ off = 0x010 ∨ off = 0x034 ∨ (0x040 ≤ off ∧ off ≤ 0x054)
    ∨ (0x500000 ≤ off ∧ off < 0x700000)

/-- The bits a host-writable word keeps: DONE_IE and ERR_IE (R27), a symbol (R40), LEAF (R44), or all 32. -/
def keptBits (off : Nat) (v : Word) : Word :=
  if off = 0x014 then v &&& 3#32
  else if 0x100000 ≤ off ∧ off < 0x200000 then v &&& 0xFF#32
  else if 0x800000 ≤ off ∧ off < 0xC00000 ∧ off % 32 = 0 then v &&& 1#32
  else v

/-! ### Invariants -/

/-- STATUS and ERROR belong together: while BUSY neither DONE nor ERR is set (43_control.md R260); ERR is set only when
ERROR.CODE is not 0 (10_state.md R24); codes above 9 are never produced (60_exceptions.md R300); a success has
stage 0 and information 0 (R302, R303). -/
structure State.FlagsOk (s : State) : Prop where
  busy : s.busy = true → s.done = false ∧ s.err = false
  err : s.err = true → s.errCode ≠ 0#8
  code : s.errCode.toNat ≤ 9
  ok : s.errCode = 0#8 → s.errStage = 0#8 ∧ s.errInfo = 0#32

/-- The dictionary invariants: 256 <= DICT_NEXT <= DICT_CAP (10_state.md R33), PREFIX[k] < k (R49 (c)), and FIRST and LENGTH
describe the entry's string (R48). -/
structure State.DictOk (s : State) : Prop where
  next : s.dictNext ≤ s.cfg.dictCap
  pre : ∀ j e, s.dict[j]? = some e → e.pre.toNat < 256 + j
  first : ∀ j e, s.dict[j]? = some e → (dictString s.dict (256 + j)).head? = some e.first
  length : ∀ j e, s.dict[j]? = some e → (dictString s.dict (256 + j)).length = e.length.toNat

/-- The CODE table: each token once and by rising token (the model's representation, log 21), below DICT_CAP, with 1 <= LEN <= CODE_MAXLEN and no bit at or above LEN (R46;
41_huffman.md R195, R199). -/
structure State.CodeOk (s : State) : Prop where
  rising : risingKeys s.code = true
  token : ∀ t e, codeEntry? s.code t = some e → t < s.cfg.dictCap
  len : ∀ t e, codeEntry? s.code t = some e → 1 ≤ e.len.toNat ∧ e.len.toNat ≤ s.cfg.codeMaxLen
  bits : ∀ t e j, codeEntry? s.code t = some e → e.len.toNat ≤ j → e.bits.getLsbD j = false

/-- The invariant of the machine. -/
structure State.Inv (s : State) : Prop where
  legal : s.cfg.legal = true
  memory : s.mem.wf s.cfg = true
  flags : s.FlagsOk
  dict : s.DictOk
  code : s.CodeOk

end Sys2Proof.Machine
end

