-- ==== Sys2Proof/Certificates/Slice0/Obligations.lean ====
section
/-! DEFINITION. The statements for the provers.  Each docstring names the rules of spec/ the statement formalises. -/

open Sys2Proof Sys2Proof.Machine Sys2Proof.Reference

/-! ### Command words and the step -/

/-- 30_encoding.md R103: the whole word of each command. -/
def Obligations.OpcodeMapDecodes : Prop :=
  decode 0x00000001#32 = .command .lzwEnc ∧ decode 0x00000002#32 = .command .lzwDec
    ∧ decode 0x00000003#32 = .command .freqCount ∧ decode 0x00000004#32 = .command .huffBuild
    ∧ decode 0x00000005#32 = .command .huffCodes ∧ decode 0x00000006#32 = .command .entEnc
    ∧ decode 0x00000007#32 = .command .entDec ∧ decode 0x00000008#32 = .command .compress
    ∧ decode 0x00000009#32 = .command .decompress ∧ decode 0x0000000A#32 = .command .clear

/-- 30_encoding.md R102: a word is a command exactly when its RSVD is 0 and its opcode is 0x01 .. 0x0A, and it is then the
command whose encoding it is. -/
def Obligations.DecodeExactOnAllWords : Prop :=
  ∀ w : Word,
    ((∃ i, decode w = .command i) ↔ w.toNat / 2 ^ 8 = 0 ∧ 1 ≤ w.toNat % 2 ^ 8 ∧ w.toNat % 2 ^ 8 ≤ 0x0A)
      ∧ ∀ i, decode w = .command i ↔ w = encode i

/-- 43_control.md R262: when the engine moves, the step is the command decoded from the latch; a command word just accepted is
run by the very next step.  The engine's turn is an element of the model's input list (log 7), and the placed word stands for a write to
CMD (log 13). -/
def Obligations.StepRunsDecodedCommand : Prop :=
  (∀ (s s0 : State) (i : Instr), s.engineNext = some s0 → decode s.latch = .command i → step s = exec i s0)
    ∧ ∀ (s : State) (w : Word) (i : Instr), decode w = .command i →
        step (s.withFetchWord 32 w.toNat) = exec i (s.accept w)

/-- 43_control.md R272: an illegal word changes nothing but completion, with outcome (ILLEGAL_COMMAND, w[7:0], w). -/
def Obligations.IllegalWordOnlyCompletes : Prop :=
  ∀ s s0 : State, s.engineNext = some s0 → (∀ i, decode s.latch ≠ .command i) →
    step s = .next { s0 with errCode := 9#8, errStage := s.latch.extractLsb' 0 8, errInfo := s.latch,
                             busy := false, done := true, err := true }

/-- 43_control.md R260: a write to CMD is accepted when BUSY = 0, whatever the value, and held while BUSY = 1. -/
def Obligations.CommandAcceptance : Prop :=
  ∀ (s : State) (a : Access) (rest : List Input) (v : Word),
    s.inputs = .access a :: rest → a.proper s.cfg → a.addr - s.cfg.base = 0x004 → a.kind = .write v →
    (s.busy = false →
      step s = .next { s with inputs := rest, latch := v, done := false, err := false, busy := true })
    ∧ (s.busy = true → ∃ t, step s = .next t ∧ t.inputs = s.inputs ∧ engineStep s = .next t)

/-- 20_memory.md R80: while BUSY = 1 an access outside the four unheld groups waits for the completion and is then performed
against the state the command left; one inside is performed at once. -/
def Obligations.HeldAccessWaitsForCompletion : Prop :=
  ∀ (s : State) (a : Access) (rest : List Input),
    s.busy = true → s.inputs = .access a :: rest → a.proper s.cfg →
    (¬ unheldOffset (a.addr - s.cfg.base) →
      ∃ t, step s = .next t ∧ engineStep s = .next t ∧ t.busy = false ∧ t.inputs = s.inputs ∧ t.reads = s.reads
        ∧ step t = .next (State.performAt { t with inputs := rest } (a.addr - s.cfg.base) a.kind))
    ∧ (unheldOffset (a.addr - s.cfg.base) →
      step s = .next (State.performAt { s with inputs := rest } (a.addr - s.cfg.base) a.kind))

/-- 20_memory.md R71, R70: the only stops of a step are a bus error, refused, and an access outside the block, a fault: which is
which is the model's choice (log 11). -/
def Obligations.StepStopsOnlyOnBadAccess : Prop :=
  ∀ s : State,
    (∀ f, step s = .fault f ↔ f = .outsideBlock ∧ ∃ a rest, s.inputs = .access a :: rest
      ∧ ¬ (s.cfg.base ≤ a.addr ∧ a.addr < s.cfg.base + 2 ^ 24))
    ∧ (∀ r, step s = .refused r ↔ r = .busError ∧ ∃ a rest, s.inputs = .access a :: rest
      ∧ s.cfg.base ≤ a.addr ∧ a.addr < s.cfg.base + 2 ^ 24 ∧ ¬ (a.width = 4 ∧ (a.addr - s.cfg.base) % 4 = 0))

/-- A run never stops when every pending access is proper (R70, R71; every command completes, R262). -/
def Obligations.ProperInputsAreSafe : Prop := ∀ (k : Nat) (s : State), s.properInputs → SafeFor k s

/-! ### Host accesses -/

/-- 20_memory.md R78: a read that is performed changes nothing of the block; its value goes to the host. -/
def Obligations.ReadsLeaveBlockUnchanged : Prop :=
  ∀ (s : State) (a : Access) (rest : List Input),
    s.inputs = .access a :: rest → a.proper s.cfg → a.kind = .read →
    s.busy = false ∨ unheldOffset (a.addr - s.cfg.base) →
    step s = .next { s with inputs := rest, reads := s.reads ++ [s.readOffset (a.addr - s.cfg.base)] }

/-- 10_state.md R22 to R34: what each register reads. -/
def Obligations.RegisterPageReads : Prop :=
  ∀ s : State,
    s.readOffset 0x000 = 0x484C5A01#32 ∧ s.readOffset 0x004 = 0#32
    ∧ (∀ j, (s.readOffset 0x008).getLsbD j
        = ((decide (j = 0) && s.busy) || (decide (j = 1) && s.done) || (decide (j = 2) && s.err)))
    ∧ (s.readOffset 0x00C).toNat = s.errStage.toNat * 2 ^ 8 + s.errCode.toNat
    ∧ s.readOffset 0x010 = s.errInfo
    ∧ (∀ j, (s.readOffset 0x014).getLsbD j = ((decide (j = 0) && s.doneIe) || (decide (j = 1) && s.errIe)))
    ∧ s.readOffset 0x020 = s.symLen ∧ s.readOffset 0x024 = s.tokLen ∧ s.readOffset 0x028 = s.bitLen
    ∧ s.readOffset 0x02C = s.nodeCount ∧ s.readOffset 0x030 = s.root
    ∧ s.readOffset 0x034 = BitVec.ofNat 32 s.dictNext
    ∧ s.readOffset 0x040 = BitVec.ofNat 32 s.cfg.symCap ∧ s.readOffset 0x044 = BitVec.ofNat 32 s.cfg.tokCap
    ∧ s.readOffset 0x048 = BitVec.ofNat 32 s.cfg.bitCap ∧ s.readOffset 0x04C = BitVec.ofNat 32 s.cfg.dictCap
    ∧ s.readOffset 0x050 = BitVec.ofNat 32 s.cfg.codeMaxLen
    ∧ s.readOffset 0x054 = BitVec.ofNat 32 (2 * s.cfg.dictCap - 1)

/-- 20_memory.md R72, R75; 43_control.md R261: a step whose next input is a write to an RW location, not held, performs it: the
location is read back with the bits it keeps, every other offset reads as before, and nothing else changes. -/
def Obligations.StoredWordReadsBack : Prop :=
  ∀ (s : State) (off : Nat) (v : Word) (rest : List Input),
    s.cfg.legal = true → s.nextAccess off (.write v) rest → hostWritable s.cfg off →
    s.busy = false ∨ unheldOffset off →
    ∃ t, step s = .next t
      ∧ (∀ off', off' % 4 = 0 → t.readOffset off' = if off' = off then keptBits off v else s.readOffset off')
      ∧ t.cfg = s.cfg ∧ t.latch = s.latch ∧ t.draws = s.draws ∧ t.inputs = rest ∧ t.reads = s.reads

/-- 20_memory.md R73: an access to a reserved offset completes, a read with the value 0 and a write with no effect; a write to an
RO location has no effect; and a read of CMD returns 0. -/
def Obligations.ReservedAndReadOnlyOffsets : Prop :=
  ∀ (s : State) (a : Access) (rest : List Input), s.cfg.legal = true → s.inputs = .access a :: rest → a.proper s.cfg →
    s.busy = false ∨ unheldOffset (a.addr - s.cfg.base) →
    (reservedOffset s.cfg (a.addr - s.cfg.base) →
      (a.kind = .read → step s = .next { s with inputs := rest, reads := s.reads ++ [0#32] })
      ∧ ∀ v, a.kind = .write v → step s = .next { s with inputs := rest })
    ∧ (readOnlyOffset (a.addr - s.cfg.base) → ∀ v, a.kind = .write v → step s = .next { s with inputs := rest })
    ∧ (a.addr - s.cfg.base = 0x004 → a.kind = .read →
        step s = .next { s with inputs := rest, reads := s.reads ++ [0#32] })

/-- 10_state.md R46, R47, R48: what the CODE and DICT windows read. -/
def Obligations.TableWindowsRead : Prop :=
  ∀ (s : State) (k : Nat), s.cfg.legal = true → k < s.cfg.dictCap →
    ((s.readOffset (0x500000 + 16 * k)).getLsbD 31 = (codeEntry? s.code k).isSome)
    ∧ (∀ e, codeEntry? s.code k = some e →
        (s.readOffset (0x500000 + 16 * k)).toNat = 2 ^ 31 + e.len.toNat
        ∧ (s.readOffset (0x500000 + 16 * k + 4)).toNat + 2 ^ 32 * (s.readOffset (0x500000 + 16 * k + 8)).toNat
            = e.bits.toNat)
    ∧ (codeEntry? s.code k = none → ∀ f, f < 4 → s.readOffset (0x500000 + 16 * k + 4 * f) = 0#32)
    ∧ (k < 256 → s.readOffset (0x600000 + 16 * k) = 0xFFFFFFFF#32
        ∧ (s.readOffset (0x600000 + 16 * k + 4)).toNat = k ∧ (s.readOffset (0x600000 + 16 * k + 8)).toNat = k
        ∧ s.readOffset (0x600000 + 16 * k + 12) = 1#32)
    ∧ (s.dictNext ≤ k → ∀ f, f < 4 → s.readOffset (0x600000 + 16 * k + 4 * f) = 0#32)
    ∧ (∀ e, 256 ≤ k → s.dict[k - 256]? = some e →
        s.readOffset (0x600000 + 16 * k) = e.pre
        ∧ (s.readOffset (0x600000 + 16 * k + 4)).toNat = e.symbol.toNat
        ∧ (s.readOffset (0x600000 + 16 * k + 8)).toNat = e.first.toNat
        ∧ s.readOffset (0x600000 + 16 * k + 12) = e.length)

/-- 10_state.md R24: a step whose next input is a write to STATUS, which is never held, clears DONE and ERR by its bits 1 and 2 and
changes nothing else. -/
def Obligations.StatusWriteOneToClear : Prop :=
  ∀ (s : State) (v : Word) (rest : List Input), s.nextAccess 0x008 (.write v) rest →
    step s = .next { s with inputs := rest, done := s.done && !v.getLsbD 1, err := s.err && !v.getLsbD 2 }

/-- 60_exceptions.md R310, 10_state.md R52: irq after a completion, and after a step that performs an acknowledgement, an acceptance,
a write to IRQ_ENABLE, or a reset. -/
def Obligations.InterruptFollowsStatus : Prop :=
  (∀ (i : Instr) (s : State), ∃ t, exec i s = .next t
      ∧ t.irq = (s.doneIe || (s.errIe && decide (t.errCode ≠ 0#8))))
    ∧ (∀ (s : State) (v : Word), s.writeNext 0x008 v → ∃ t, step s = .next t
        ∧ t.irq = ((s.done && !v.getLsbD 1 && s.doneIe) || (s.err && !v.getLsbD 2 && s.errIe)))
    ∧ (∀ (s : State) (v : Word), s.busy = false → s.writeNext 0x004 v → ∃ t, step s = .next t ∧ t.irq = false)
    ∧ (∀ (s : State) (v : Word), s.writeNext 0x014 v → ∃ t, step s = .next t
        ∧ t.doneIe = v.getLsbD 0 ∧ t.errIe = v.getLsbD 1
        ∧ t.irq = ((s.done && v.getLsbD 0) || (s.err && v.getLsbD 1)))
    ∧ ∀ s : State, s.resetNext → ∃ t, step s = .next t ∧ t.irq = false

/-! ### Completion and the whole machine -/

/-- 43_control.md R262 to R264: every command completes in one step, with BUSY = 0, DONE = 1 and ERR exactly on a failure. -/
def Obligations.EveryCommandCompletes : Prop :=
  ∀ (i : Instr) (s : State), ∃ t, exec i s = .next t
    ∧ t.busy = false ∧ t.done = true ∧ t.err = decide (t.errCode ≠ 0#8)
    ∧ t.errCode.toNat ≤ 8 ∧ (t.errCode = 0#8 → t.errStage = 0#8 ∧ t.errInfo = 0#32)

/-- 60_exceptions.md R303: ERROR.STAGE after an engine step is the opcode of the first stage that reports an error when the command's
stages run in order (the command itself for a stage command), a word's bits 7:0 for an illegal word, and 0 after a success. -/
def Obligations.ErrorStageIsFailingStage : Prop :=
  ∀ s t : State, engineStep s = .next t →
    (∀ i, decode s.latch = .command i →
      (t.errCode = 0#8 → firstFailing (failingStages i) s = none ∧ t.errStage = 0#8)
      ∧ (t.errCode ≠ 0#8 → ∃ st, firstFailing (failingStages i) s = some st ∧ t.errStage = st.opcode))
    ∧ ((∀ i, decode s.latch ≠ .command i) → t.errStage.toNat = s.latch.toNat % 2 ^ 8)

/-- 60_exceptions.md R300 to R302: the codes and resources each stage can report. -/
def Obligations.ErrorCodesOfStages : Prop :=
  (∀ s t : State, exec .lzwEnc s = .next t →
      t.errCode.toNat = 0 ∨ (t.errCode.toNat = 5 ∧ t.errInfo.toNat ∈ [1, 2, 4]))
  ∧ (∀ s t : State, exec .lzwDec s = .next t →
      t.errCode.toNat = 0 ∨ (t.errCode.toNat = 1 ∧ t.errInfo.toNat < s.tokLen.toNat)
        ∨ (t.errCode.toNat = 5 ∧ t.errInfo.toNat ∈ [1, 2, 4]))
  ∧ (∀ s t : State, exec .freqCount s = .next t →
      t.errCode.toNat = 0 ∨ (t.errCode.toNat = 5 ∧ t.errInfo.toNat ∈ [2, 6]))
  ∧ (∀ s t : State, exec .huffBuild s = .next t →
      t.errCode.toNat = 0 ∨ (t.errCode.toNat = 2 ∧ t.errInfo.toNat = 0)
        ∨ (t.errCode.toNat = 8 ∧ (s.cfg.legal = true →
            ∃ m, m + 1 < (freqTokens s).length ∧ t.errInfo.toNat = (freqTokens s).length + m)))
  ∧ (∀ s t : State, exec .huffCodes s = .next t →
      t.errCode.toNat = 0 ∨ (t.errCode.toNat = 5 ∧ t.errInfo.toNat = 5)
        ∨ (t.errCode.toNat = 7 ∧ t.errInfo.toNat = 0))
  ∧ (∀ s t : State, exec .entEnc s = .next t →
      t.errCode.toNat = 0 ∨ (t.errCode.toNat = 3 ∧ t.errInfo.toNat < s.tokLen.toNat)
        ∨ (t.errCode.toNat = 5 ∧ t.errInfo.toNat ∈ [2, 3]))
  ∧ (∀ s t : State, exec .entDec s = .next t →
      t.errCode.toNat = 0 ∨ (t.errCode.toNat = 4 ∧ t.errInfo.toNat < s.bitLen.toNat)
        ∨ (t.errCode.toNat = 5 ∧ t.errInfo.toNat ∈ [2, 3])
        ∨ (t.errCode.toNat = 6 ∧ t.errInfo.toNat < s.bitLen.toNat) ∨ (t.errCode.toNat = 7 ∧ t.errInfo.toNat = 0))

/-- 60_exceptions.md R306: a failing command leaves the outputs of the failing stage as the table says, a composite also clears its own
length, and nothing a command does not write changes. -/
def Obligations.FailuresLeaveNoPartialOutput : Prop :=
  ∀ (i : Instr) (s t : State), exec i s = .next t → t.errCode ≠ 0#8 →
    (∃ st ∈ failingStages i, t.errStage = st.opcode ∧ failedOutputs t st)
    ∧ failedOutputs t i ∧ ∀ c, c ∉ commandWrites i → c.agree s t

/-- 30_encoding.md R106 with R105: a state component not listed for a command is unchanged by it; so are the parameters,
IRQ_ENABLE and the latch, and what the host has pending and has read. -/
def Obligations.CommandsWriteOnlyListedState : Prop :=
  ∀ (i : Instr) (s : State), ∃ t, exec i s = .next t
    ∧ (∀ c, c ∉ commandWrites i → c.agree s t)
    ∧ t.cfg = s.cfg ∧ t.doneIe = s.doneIe ∧ t.errIe = s.errIe ∧ t.latch = s.latch
    ∧ t.inputs = s.inputs ∧ t.reads = s.reads

/-- 30_encoding.md R105, the "reads" column: a command's report depends on what it reads alone, and what it writes depends on
nothing else but the former contents of what it writes (kept beyond the new lengths) and the next free draw, the model's own
counter (log 6). -/
def Obligations.CommandsReadOnlyListedState : Prop :=
  ∀ (i : Instr) (s s' : State), s'.cfg = s.cfg → (∀ c ∈ commandReads i, c.agree s s') →
    ∃ t t', exec i s = .next t ∧ exec i s' = .next t'
      ∧ t'.errCode = t.errCode ∧ t'.errStage = t.errStage ∧ t'.errInfo = t.errInfo
      ∧ (s'.draws = s.draws → (∀ c ∈ commandWrites i, c.agree s s') → ∀ c ∈ commandWrites i, c.agree t t')

/-- 10_state.md R24 to R27: only a write to CMD sets BUSY, and only an engine step or reset clears it; only an engine step sets DONE or
ERR, and only a write to STATUS with the bit set, the acceptance of a write to CMD, or reset clears it; only the engine and reset
write ERROR and ERR_INFO; and only a write to IRQ_ENABLE and reset change the enables.  The clause about clearing ERR has the
invariant of StepKeepsFlagsConsistent as premise, without which a completion could clear it. -/
def Obligations.ControlRegistersChangeOnlyByTheirEvents : Prop :=
  ∀ s t : State, step s = .next t →
    (s.busy = false → t.busy = true → ∃ v, s.writeNext 0x004 v ∧ t.latch = v)
    ∧ (s.busy = true → t.busy = false → s.engineMoves t ∨ s.resetNext)
    ∧ ((s.done = false ∧ t.done = true) ∨ (s.err = false ∧ t.err = true) → s.engineMoves t)
    ∧ (s.done = true → t.done = false →
        (∃ v, s.writeNext 0x008 v ∧ v.getLsbD 1 = true) ∨ (s.busy = false ∧ ∃ v, s.writeNext 0x004 v) ∨ s.resetNext)
    ∧ (s.FlagsOk → s.err = true → t.err = false →
        (∃ v, s.writeNext 0x008 v ∧ v.getLsbD 2 = true) ∨ (s.busy = false ∧ ∃ v, s.writeNext 0x004 v) ∨ s.resetNext)
    ∧ (t.errCode ≠ s.errCode ∨ t.errStage ≠ s.errStage ∨ t.errInfo ≠ s.errInfo → s.engineMoves t ∨ s.resetNext)
    ∧ (t.doneIe ≠ s.doneIe ∨ t.errIe ≠ s.errIe → (∃ v, s.writeNext 0x014 v) ∨ s.resetNext)

/-- 70_reset_and_hazards.md R351: CODE is written only by HUFF_CODES (also as a stage of COMPRESS), CLEAR and reset; and 10_state.md
R33: DICT only by LZW_ENC, LZW_DEC (also as stages), CLEAR and reset. -/
def Obligations.TablesChangeOnlyByTheirCommands : Prop :=
  ∀ s t : State, step s = .next t →
    (t.code ≠ s.code →
      (∃ i ∈ [Instr.huffCodes, .compress, .clear], s.engineNext.isSome = true ∧ decode s.latch = .command i)
      ∨ ∃ rest, s.inputs = .reset :: rest ∨ ∃ a, s.inputs = .resetOver a :: rest)
    ∧ (t.dict ≠ s.dict →
      (∃ i ∈ [Instr.lzwEnc, .lzwDec, .compress, .decompress, .clear],
        s.engineNext.isSome = true ∧ decode s.latch = .command i)
      ∨ ∃ rest, s.inputs = .reset :: rest ∨ ∃ a, s.inputs = .resetOver a :: rest)

/-! ### Reset -/

/-- 70_reset_and_hazards.md R341: the reset values by location; the words of the data buffers are unspecified, and nothing is said
of them. -/
def Obligations.ResetValues : Prop :=
  ∀ (c : Config) (draw : Nat),
    let s := State.afterReset c draw
    s.readOffset 0x000 = 0x484C5A01#32 ∧ s.readOffset 0x008 = 0#32 ∧ s.readOffset 0x00C = 0#32
    ∧ s.readOffset 0x010 = 0#32 ∧ s.readOffset 0x014 = 0#32 ∧ s.readOffset 0x020 = 0#32
    ∧ s.readOffset 0x024 = 0#32 ∧ s.readOffset 0x028 = 0#32 ∧ s.readOffset 0x02C = 0#32
    ∧ s.readOffset 0x030 = 0#32 ∧ s.readOffset 0x034 = 256#32
    ∧ s.readOffset 0x040 = BitVec.ofNat 32 c.symCap ∧ s.readOffset 0x044 = BitVec.ofNat 32 c.tokCap
    ∧ s.readOffset 0x048 = BitVec.ofNat 32 c.bitCap ∧ s.readOffset 0x04C = BitVec.ofNat 32 c.dictCap
    ∧ s.readOffset 0x050 = BitVec.ofNat 32 c.codeMaxLen ∧ s.readOffset 0x054 = BitVec.ofNat 32 (2 * c.dictCap - 1)
    ∧ (∀ off, 0x500000 ≤ off → off < 0x600000 → s.readOffset off = 0#32)
    ∧ s.dict = [] ∧ s.busy = false ∧ s.irq = false

/-- 70_reset_and_hazards.md R340: reset between two steps puts the reset values into the whole block, a latched command is
lost, and an access that was outstanding has no effect.  The model's choices in it: what the host has pending and has read before is
not the block's (logs 7, 8), a read over which reset came returns a free value (log 12) whatever its
address and width (log 20), the unspecified buffer words are
free values of a fresh draw (logs 5, 6), and the latch, to which the spec gives no reset value, is 0 (log 3). -/
def Obligations.ResetDiscardsLatchedCommand : Prop :=
  ∀ (s : State) (rest : List Input),
    (s.inputs = .reset :: rest →
      step s = .next { State.afterReset s.cfg s.draws with inputs := rest, reads := s.reads })
    ∧ (∀ a, s.inputs = .resetOver a :: rest → ∃ t, step s = .next t ∧ t.busy = false
        ∧ t = { State.afterReset s.cfg s.draws with
                inputs := rest
                reads := s.reads ++ (match a.kind with | .read => [Config.freeRead s.draws] | .write _ => []) })
    ∧ ∀ b i, (State.afterReset s.cfg s.draws).mem.read b i = Config.freeWord s.draws b i &&& wordMask b i

/-! ### LZW_ENC and LZW_DEC -/

/-- 40_lzw.md R131: the input length is checked before any other work of the pass. -/
def Obligations.LzwInputLengthChecks : Prop :=
  ∀ s : State,
    (s.cfg.symCap < s.symLen.toNat → ∃ t, exec .lzwEnc s = .next t ∧ t.Reports 5 0x01 1)
    ∧ (s.cfg.tokCap < s.tokLen.toNat → ∃ t, exec .lzwDec s = .next t ∧ t.Reports 5 0x02 2)

/-- 40_lzw.md R133, R135, R138: LZW_ENC computes the tokens of the source's encoder over strings, and its DICT stands for the
strings that encoder learned. -/
def Obligations.LzwEncRefinesSource : Prop :=
  ∀ (s : State) (ts : List Nat) (d : Strings), s.cfg.legal = true → s.symLen.toNat ≤ s.cfg.symCap →
    lzwEncode (s.mem.symbols s.symLen.toNat) = (ts, d) →
    ts.length ≤ s.cfg.tokCap → 255 + ts.length ≤ s.cfg.dictCap →
    ∃ t, exec .lzwEnc s = .next t ∧ t.Succeeded
      ∧ t.tokLen.toNat = ts.length ∧ t.mem.tokens ts.length = ts
      ∧ (∀ i, ts.length ≤ i → t.mem.read .tok i = s.mem.read .tok i)
      ∧ dictStrings t.dict = d ∧ t.dictNext = 256 + (ts.length - 1)
      ∧ t.mem.sym = s.mem.sym ∧ t.symLen = s.symLen

/-- 40_lzw.md R134, R136: when the pass needs more tokens than TOK_CAP or more entries than DICT_CAP, LZW_ENC fails with
CAPACITY, naming the limit it meets first, and leaves no output.  That the unspecified TOK words are the free values of a fresh draw is
the model's choice (log 5). -/
def Obligations.LzwEncCapacityFailure : Prop :=
  ∀ (s : State) (ts : List Nat) (d : Strings), s.cfg.legal = true → s.symLen.toNat ≤ s.cfg.symCap →
    lzwEncode (s.mem.symbols s.symLen.toNat) = (ts, d) →
    s.cfg.tokCap < ts.length ∨ s.cfg.dictCap < 255 + ts.length →
    ∃ t, exec .lzwEnc s = .next t
      ∧ t.Reports 5 0x01 (if s.cfg.tokCap + 256 ≤ s.cfg.dictCap then 2 else 4)
      ∧ t.tokLen = 0#32 ∧ t.dict = [] ∧ t.dictNext = 256
      ∧ (∀ i, t.mem.read .tok i = Config.freeWord s.draws .tok i)
      ∧ t.mem.sym = s.mem.sym ∧ t.symLen = s.symLen

/-- 10_state.md R49 (d): after LZW_ENC no two bound tokens stand for the same string. -/
def Obligations.LzwEncDictionaryInjective : Prop :=
  ∀ s t : State, s.cfg.legal = true → exec .lzwEnc s = .next t →
    ∀ j k, j < t.dictNext → k < t.dictNext → dictString t.dict j = dictString t.dict k → j = k

/-- 40_lzw.md R141, R143, R145: LZW_DEC computes the symbols of the source's decoder over strings. -/
def Obligations.LzwDecRefinesSource : Prop :=
  ∀ (s : State) (out : List Byte) (d : Strings), s.cfg.legal = true → s.tokLen.toNat ≤ s.cfg.tokCap →
    lzwDecode (s.mem.tokens s.tokLen.toNat) = some (out, d) →
    out.length ≤ s.cfg.symCap → 255 + s.tokLen.toNat ≤ s.cfg.dictCap →
    ∃ t, exec .lzwDec s = .next t ∧ t.Succeeded
      ∧ t.symLen.toNat = out.length ∧ t.mem.symbols out.length = out
      ∧ (∀ i, out.length ≤ i → t.mem.read .sym i = s.mem.read .sym i)
      ∧ dictStrings t.dict = d ∧ t.dictNext = 256 + (s.tokLen.toNat - 1)
      ∧ t.mem.tok = s.mem.tok ∧ t.tokLen = s.tokLen

/-- 40_lzw.md R142, R144: the first token at which the decode cannot go on decides the error: INVALID_TOKEN, then RES_SYM, then
RES_DICT; and LZW_DEC leaves no output.  That the unspecified SYM words are the free values of a fresh draw is the model's choice
(log 5). -/
def Obligations.LzwDecFirstErrorReported : Prop :=
  ∀ (s : State) (i : Nat) (out : List Byte) (d : Strings), s.cfg.legal = true →
    s.tokLen.toNat ≤ s.cfg.tokCap → i < s.tokLen.toNat →
    lzwDecode ((s.mem.tokens s.tokLen.toNat).take i) = some (out, d) → out.length ≤ s.cfg.symCap →
    255 + i ≤ s.cfg.dictCap →
    (lzwDecode ((s.mem.tokens s.tokLen.toNat).take (i + 1)) = none →
      ∃ t, exec .lzwDec s = .next t ∧ t.Reports 1 0x02 i ∧ t.symLen = 0#32 ∧ t.dict = []
        ∧ (∀ j, t.mem.read .sym j = Config.freeWord s.draws .sym j &&& 0xFF#32) ∧ t.mem.tok = s.mem.tok)
    ∧ (∀ out' d', lzwDecode ((s.mem.tokens s.tokLen.toNat).take (i + 1)) = some (out', d') →
        s.cfg.symCap < out'.length →
        ∃ t, exec .lzwDec s = .next t ∧ t.Reports 5 0x02 1 ∧ t.symLen = 0#32 ∧ t.dict = [] ∧ t.mem.tok = s.mem.tok)
    ∧ (∀ out' d', lzwDecode ((s.mem.tokens s.tokLen.toNat).take (i + 1)) = some (out', d') →
        out'.length ≤ s.cfg.symCap → 1 ≤ i → s.cfg.dictCap < 256 + i →
        ∃ t, exec .lzwDec s = .next t ∧ t.Reports 5 0x02 4 ∧ t.symLen = 0#32 ∧ t.dict = [] ∧ t.mem.tok = s.mem.tok)

/-- 40_lzw.md R149: decode after encode restores the symbols.  It also rebuilds the same dictionary, which is R146's. -/
def Obligations.LzwRoundTrip : Prop :=
  ∀ s t : State, s.cfg.legal = true → exec .lzwEnc s = .next t → t.Succeeded →
    ∃ u, exec .lzwDec t = .next u ∧ u.Succeeded ∧ u.symLen = s.symLen
      ∧ u.mem.symbols s.symLen.toNat = s.mem.symbols s.symLen.toNat ∧ u.dict = t.dict

/-! ### FREQ_COUNT and HUFF_BUILD -/

/-- 41_huffman.md R173: FREQ holds the counts on success and is all 0 on failure; nothing else is written. -/
def Obligations.FreqCountCountsTokens : Prop :=
  ∀ s : State, s.cfg.legal = true →
    (s.tokLen.toNat ≤ s.cfg.tokCap → (∀ k ∈ s.mem.tokens s.tokLen.toNat, k < s.cfg.dictCap) →
      ∃ t, exec .freqCount s = .next t ∧ t.Succeeded
        ∧ (∀ k, t.mem.freqOf k = (s.mem.tokens s.tokLen.toNat).count k) ∧ ∀ c, c ≠ .freq → Component.agree s t c)
    ∧ ∀ t, exec .freqCount s = .next t → t.errCode ≠ 0#8 →
        (∀ k, t.mem.freqOf k = 0) ∧ ∀ c, c ≠ .freq → Component.agree s t c

/-- 41_huffman.md R172: RES_TOK when TOK_LEN is above TOK_CAP, checked first; RES_FREQ when some token lies outside the table. -/
def Obligations.FreqCountErrors : Prop :=
  ∀ s : State,
    (s.cfg.tokCap < s.tokLen.toNat → ∃ t, exec .freqCount s = .next t ∧ t.Reports 5 0x03 2)
    ∧ (s.tokLen.toNat ≤ s.cfg.tokCap → (∃ k ∈ s.mem.tokens s.tokLen.toNat, s.cfg.dictCap ≤ k) →
        ∃ t, exec .freqCount s = .next t ∧ t.Reports 5 0x03 6)

/-- 41_huffman.md R182, R184: a nonempty table whose weights sum below 2^64 gives a well-formed tree with one leaf per token
in token order, each internal node the sum of two earlier nodes, and the root the sum of all. -/
def Obligations.HuffBuildBuildsWellFormedTree : Prop :=
  ∀ s : State, s.cfg.legal = true → freqTokens s ≠ [] → freqTotal s < 2 ^ 64 →
    ∃ t, exec .huffBuild s = .next t ∧ t.Succeeded
      ∧ t.nodeCount.toNat = 2 * (freqTokens s).length - 1 ∧ t.root.toNat = 2 * (freqTokens s).length - 2
      ∧ TreeWellFormed t
      ∧ (∀ i k, (freqTokens s)[i]? = some k → t.mem.nodeAt i = .leaf k ∧ weightAt t i = s.mem.freqOf k)
      ∧ (∀ i, (freqTokens s).length ≤ i → i < 2 * (freqTokens s).length - 1 →
          ∃ l r, t.mem.nodeAt i = .internal l r ∧ l < i ∧ r < i ∧ weightAt t i = weightAt t l + weightAt t r)
      ∧ weightAt t t.root.toNat = freqTotal s
      ∧ (∀ j, 8 * (2 * (freqTokens s).length - 1) ≤ j → t.mem.read .node j = s.mem.read .node j)
      ∧ t.mem.freq = s.mem.freq ∧ t.code = s.code

/-- 41_huffman.md R177, R180: the internal nodes are the merges of the two members of least key (WEIGHT, index), the first taken
being the left child. -/
def Obligations.HuffBuildMergesLeastKeys : Prop :=
  ∀ s t : State, s.cfg.legal = true → exec .huffBuild s = .next t → t.Succeeded →
    Merges (freqMembers s) (freqTokens s).length
      ((List.range ((freqTokens s).length - 1)).map fun m =>
        (t.mem.nodeAt ((freqTokens s).length + m), weightAt t ((freqTokens s).length + m)))

/-- 41_huffman.md R181, R183: EMPTY_ALPHABET on an empty table; WEIGHT_OVERFLOW, naming the node that the first merge
whose sum does not fit would have made, when the weights do not sum below 2^64; and no tree is held. -/
def Obligations.HuffBuildErrors : Prop :=
  ∀ s : State, s.cfg.legal = true →
    (freqTokens s = [] → ∃ t, exec .huffBuild s = .next t ∧ t.Reports 2 0x04 0
      ∧ t.nodeCount = 0#32 ∧ t.root = 0#32 ∧ t.mem.freq = s.mem.freq ∧ t.code = s.code)
    ∧ (2 ^ 64 ≤ freqTotal s → ∃ t m, exec .huffBuild s = .next t
      ∧ m + 1 < (freqTokens s).length
      ∧ OverflowsAt (freqMembers s) (freqTokens s).length ((freqTokens s).length + m)
      ∧ t.Reports 8 0x04 ((freqTokens s).length + m)
      ∧ t.nodeCount = 0#32 ∧ t.root = 0#32 ∧ t.mem.freq = s.mem.freq ∧ t.code = s.code)

/-! ### Well-formed trees and HUFF_CODES -/

/-- 41_huffman.md R190: the engine's check holds exactly of the well-formed held trees. -/
def Obligations.TreeCheckDecidesWellFormed : Prop :=
  ∀ s : State, wellFormedTree s = true ↔ TreeWellFormed s

/-- 41_huffman.md R195, R197, R198: on success the valid entries are exactly the leaf tokens with their path codes, and on failure
no entry is valid. -/
def Obligations.HuffCodesAssignsPathCodes : Prop :=
  ∀ s : State, s.cfg.legal = true →
    (TreeWellFormed s → (∀ k p, IsCode s k p → p.length ≤ s.cfg.codeMaxLen) →
      ∃ t, exec .huffCodes s = .next t ∧ t.Succeeded
        ∧ (∀ k p, (∃ e, codeEntry? t.code k = some e ∧ e.toBits = p) ↔ IsCode s k p)
        ∧ t.mem.node = s.mem.node ∧ t.nodeCount = s.nodeCount ∧ t.root = s.root)
    ∧ ∀ t, exec .huffCodes s = .next t → t.errCode ≠ 0#8 →
        (∀ k, codeEntry? t.code k = none) ∧ t.mem.node = s.mem.node ∧ t.nodeCount = s.nodeCount ∧ t.root = s.root

/-- 41_huffman.md R196: BAD_TREE with info 0 when the held tree is not well formed, checked first; RES_CODELEN when some leaf is
deeper than CODE_MAXLEN. -/
def Obligations.HuffCodesErrors : Prop :=
  ∀ s : State, s.cfg.legal = true →
    (¬ TreeWellFormed s → ∃ t, exec .huffCodes s = .next t ∧ t.Reports 7 0x05 0)
    ∧ (TreeWellFormed s → (∃ k p, IsCode s k p ∧ s.cfg.codeMaxLen < p.length) →
        ∃ t, exec .huffCodes s = .next t ∧ t.Reports 5 0x05 5)

/-- 41_huffman.md R199: after a successful HUFF_CODES no code is a prefix of another, and every code has at least one bit. -/
def Obligations.HuffCodesPrefixFree : Prop :=
  ∀ s t : State, s.cfg.legal = true → exec .huffCodes s = .next t → t.Succeeded →
    (∀ k e, codeEntry? t.code k = some e → 1 ≤ e.toBits.length)
    ∧ ∀ k k' e e', k ≠ k' → codeEntry? t.code k = some e → codeEntry? t.code k' = some e' →
        ¬ e.toBits <+: e'.toBits

/-! ### ENT_ENC and ENT_DEC -/

/-- 42_entropy.md R222: the stream is the concatenation of the codes of the tokens, the rest of its last word is 0, and the
words beyond are unchanged. -/
def Obligations.EntEncConcatenatesCodes : Prop :=
  ∀ (s : State) (ps : List (List Bool)), s.cfg.legal = true → s.tokLen.toNat ≤ s.cfg.tokCap →
    List.Forall₂ (fun k p => codeFor s k = some p) (s.mem.tokens s.tokLen.toNat) ps →
    ps.flatten.length ≤ s.cfg.bitCap →
    ∃ t, exec .entEnc s = .next t ∧ t.Succeeded
      ∧ t.bitLen.toNat = ps.flatten.length ∧ t.mem.stream ps.flatten.length = ps.flatten
      ∧ (∀ q, ps.flatten.length ≤ q → q < 32 * ((ps.flatten.length + 31) / 32) → t.mem.streamBit q = false)
      ∧ (∀ j, (ps.flatten.length + 31) / 32 ≤ j → t.mem.read .bits j = s.mem.read .bits j)
      ∧ t.mem.tok = s.mem.tok ∧ t.tokLen = s.tokLen ∧ t.code = s.code

/-- 42_entropy.md R223, R224: the first token that fails decides the error: UNKNOWN_TOKEN before RES_BITS; and no stream is left.
That the unspecified BITS words are the free values of a fresh draw is the model's choice (log 5). -/
def Obligations.EntEncFirstErrorReported : Prop :=
  ∀ s : State,
    (s.cfg.tokCap < s.tokLen.toNat → ∃ t, exec .entEnc s = .next t ∧ t.Reports 5 0x06 2 ∧ t.bitLen = 0#32)
    ∧ ∀ (ps : List (List Bool)) (ks ks' : List Nat) (k : Nat), s.cfg.legal = true →
        s.tokLen.toNat ≤ s.cfg.tokCap → s.mem.tokens s.tokLen.toNat = ks ++ k :: ks' →
        List.Forall₂ (fun k p => codeFor s k = some p) ks ps → ps.flatten.length ≤ s.cfg.bitCap →
        (codeFor s k = none → ∃ t, exec .entEnc s = .next t ∧ t.Reports 3 0x06 ks.length ∧ t.bitLen = 0#32
          ∧ (∀ j, t.mem.read .bits j = Config.freeWord s.draws .bits j) ∧ t.mem.tok = s.mem.tok ∧ t.code = s.code)
        ∧ (∀ p, codeFor s k = some p → s.cfg.bitCap < ps.flatten.length + p.length →
            ∃ t, exec .entEnc s = .next t ∧ t.Reports 5 0x06 3 ∧ t.bitLen = 0#32
              ∧ (∀ j, t.mem.read .bits j = Config.freeWord s.draws .bits j) ∧ t.mem.tok = s.mem.tok ∧ t.code = s.code)

/-- 42_entropy.md R230, R231, R235: a stream that is a concatenation of codes of the held tree decodes to their tokens. -/
def Obligations.EntDecDecodesConcatenatedCodes : Prop :=
  ∀ (s : State) (ts : List Nat) (ps : List (List Bool)), s.cfg.legal = true → TreeWellFormed s →
    s.bitLen.toNat ≤ s.cfg.bitCap → List.Forall₂ (IsCode s) ts ps →
    s.mem.stream s.bitLen.toNat = ps.flatten → ts.length ≤ s.cfg.tokCap →
    ∃ t, exec .entDec s = .next t ∧ t.Succeeded
      ∧ t.tokLen.toNat = ts.length ∧ t.mem.tokens ts.length = ts
      ∧ (∀ i, ts.length ≤ i → t.mem.read .tok i = s.mem.read .tok i)
      ∧ t.mem.bits = s.mem.bits ∧ t.bitLen = s.bitLen ∧ t.mem.node = s.mem.node
      ∧ t.nodeCount = s.nodeCount ∧ t.root = s.root

/-- 42_entropy.md R232 to R234: the order of the checks, and what each error says: RES_BITS, BAD_TREE, BAD_CODE, TRUNCATED_STREAM with
the first bit of the incomplete code, RES_TOK; TOK_LEN is 0 afterwards. -/
def Obligations.EntDecErrors : Prop :=
  ∀ s : State, s.cfg.legal = true →
    (s.cfg.bitCap < s.bitLen.toNat → ∃ t, exec .entDec s = .next t ∧ t.Reports 5 0x07 3 ∧ t.tokLen = 0#32)
    ∧ (s.bitLen.toNat ≤ s.cfg.bitCap → ¬ TreeWellFormed s →
        ∃ t, exec .entDec s = .next t ∧ t.Reports 7 0x07 0 ∧ t.tokLen = 0#32)
    ∧ (s.bitLen.toNat ≤ s.cfg.bitCap → TreeWellFormed s →
        (∀ k p, s.mem.nodeAt s.root.toNat = .leaf k → p < s.bitLen.toNat → p ≤ s.cfg.tokCap →
          (∀ q, q < p → s.mem.streamBit q = false) → s.mem.streamBit p = true →
          ∃ t, exec .entDec s = .next t ∧ t.Reports 6 0x07 p ∧ t.tokLen = 0#32)
        ∧ ∀ (ts : List Nat) (ps : List (List Bool)) (q : List Bool), List.Forall₂ (IsCode s) ts ps →
            s.mem.stream s.bitLen.toNat = ps.flatten ++ q →
            (ts.length ≤ s.cfg.tokCap → q ≠ [] →
              (∃ x l r, walk s s.root.toNat q = some x ∧ s.mem.nodeAt x = .internal l r) →
              ∃ t, exec .entDec s = .next t ∧ t.Reports 4 0x07 ps.flatten.length ∧ t.tokLen = 0#32)
            ∧ (ts.length = s.cfg.tokCap + 1 →
              ∃ t, exec .entDec s = .next t ∧ t.Reports 5 0x07 2 ∧ t.tokLen = 0#32))

/-- 42_entropy.md R238: encoding with the codes of a tree and decoding with the tree restores the tokens. -/
def Obligations.EntropyRoundTrip : Prop :=
  ∀ s c s1 s2 : State, s.cfg.legal = true → exec .huffCodes s = .next c → c.Succeeded →
    s1.cfg = c.cfg → s1.mem.node = c.mem.node → s1.nodeCount = c.nodeCount → s1.root = c.root → s1.code = c.code →
    exec .entEnc s1 = .next s2 → s2.Succeeded →
    ∃ u, exec .entDec s2 = .next u ∧ u.Succeeded ∧ u.tokLen = s1.tokLen
      ∧ u.mem.tokens s1.tokLen.toNat = s1.mem.tokens s1.tokLen.toNat

/-! ### Composite commands and CLEAR -/

/-- 43_control.md R265, R266: COMPRESS is its five stages in order up to the first failing one, and a failure clears BIT_LEN. -/
def Obligations.CompressRunsStagesInOrder : Prop :=
  ∀ s : State,
    exec .compress s = .next
      (let u := runInOrder [.lzwEnc, .freqCount, .huffBuild, .huffCodes, .entEnc] s
       if u.errCode = 0#8 then u else { u with bitLen := 0#32 })

/-- 43_control.md R265, R267: DECOMPRESS is its two stages in order up to the first failing one, and a failure clears SYM_LEN. -/
def Obligations.DecompressRunsStagesInOrder : Prop :=
  ∀ s : State,
    exec .decompress s = .next
      (let u := runInOrder [.entDec, .lzwDec] s
       if u.errCode = 0#8 then u else { u with symLen := 0#32 })

/-- 43_control.md R266: within capacities that suffice for any input of that length, so of at most CODE_MAXLEN symbols, COMPRESS
succeeds and leaves a well-formed tree and the stream of the codes of the LZW tokens. -/
def Obligations.CompressSucceeds : Prop :=
  ∀ s : State, s.cfg.legal = true → 1 ≤ s.symLen.toNat → s.symLen.toNat ≤ s.cfg.symCap →
    s.symLen.toNat ≤ s.cfg.tokCap → 255 + s.symLen.toNat ≤ s.cfg.dictCap → s.symLen.toNat ≤ s.cfg.codeMaxLen →
    s.symLen.toNat * s.symLen.toNat ≤ s.cfg.bitCap →
    ∃ t ps, exec .compress s = .next t ∧ t.Succeeded ∧ TreeWellFormed t
      ∧ t.mem.tokens t.tokLen.toNat = (lzwEncode (s.mem.symbols s.symLen.toNat)).1
      ∧ List.Forall₂ (IsCode t) (t.mem.tokens t.tokLen.toNat) ps
      ∧ t.mem.stream t.bitLen.toNat = ps.flatten

/-- 43_control.md R266: the same for input of any length: COMPRESS succeeds when the tokens and dictionary entries fit, the tree that
its first three stages build has no code longer than CODE_MAXLEN, and the codes of the tokens in it fit in BIT_CAP. -/
def Obligations.CompressSucceedsWhenCodesFit : Prop :=
  ∀ (s : State) (ts : List Nat) (d : Strings) (b : State), s.cfg.legal = true →
    1 ≤ s.symLen.toNat → s.symLen.toNat ≤ s.cfg.symCap → lzwEncode (s.mem.symbols s.symLen.toNat) = (ts, d) →
    ts.length ≤ s.cfg.tokCap → 255 + ts.length ≤ s.cfg.dictCap →
    b = runInOrder [.lzwEnc, .freqCount, .huffBuild] s →
    (∀ k p, IsCode b k p → p.length ≤ s.cfg.codeMaxLen) →
    (∀ ps, List.Forall₂ (IsCode b) ts ps → ps.flatten.length ≤ s.cfg.bitCap) →
    ∃ t ps, exec .compress s = .next t ∧ t.Succeeded ∧ TreeWellFormed t
      ∧ t.tokLen.toNat = ts.length ∧ t.mem.tokens ts.length = ts ∧ dictStrings t.dict = d
      ∧ (∀ k p, IsCode t k p ↔ IsCode b k p) ∧ (∀ k p, (∃ e, codeEntry? t.code k = some e ∧ e.toBits = p) ↔ IsCode t k p)
      ∧ List.Forall₂ (IsCode t) ts ps ∧ t.bitLen.toNat = ps.flatten.length ∧ t.mem.stream ps.flatten.length = ps.flatten

/-- 43_control.md R269 (a): COMPRESS of no symbols fails in HUFF_BUILD with EMPTY_ALPHABET. -/
def Obligations.CompressOfNothingFails : Prop :=
  ∀ s : State, s.symLen = 0#32 →
    ∃ t, exec .compress s = .next t ∧ t.Reports 2 0x04 0 ∧ t.tokLen = 0#32 ∧ (∀ k, t.mem.freqOf k = 0)
      ∧ t.nodeCount = 0#32 ∧ t.root = 0#32 ∧ t.bitLen = 0#32 ∧ t.code = s.code

/-- 43_control.md R267: DECOMPRESS of a stream of codes whose tokens the source's decoder accepts gives its symbols. -/
def Obligations.DecompressDecodesStream : Prop :=
  ∀ (s : State) (ts : List Nat) (ps : List (List Bool)) (out : List Byte) (d : Strings),
    s.cfg.legal = true → TreeWellFormed s → s.bitLen.toNat ≤ s.cfg.bitCap → List.Forall₂ (IsCode s) ts ps →
    s.mem.stream s.bitLen.toNat = ps.flatten → ts.length ≤ s.cfg.tokCap →
    lzwDecode ts = some (out, d) → out.length ≤ s.cfg.symCap → 255 + ts.length ≤ s.cfg.dictCap →
    ∃ t, exec .decompress s = .next t ∧ t.Succeeded
      ∧ t.symLen.toNat = out.length ∧ t.mem.symbols out.length = out
      ∧ t.tokLen.toNat = ts.length ∧ t.mem.tokens ts.length = ts ∧ dictStrings t.dict = d

/-- 43_control.md R268: a successful COMPRESS keeps SYM and SYM_LEN and leaves a well-formed tree over exactly the tokens of TOK;
DECOMPRESS right after it succeeds and restores TOK, SYM and SYM_LEN. -/
def Obligations.CompositeRoundTrip : Prop :=
  ∀ s t : State, s.cfg.legal = true → exec .compress s = .next t → t.Succeeded →
    t.symLen = s.symLen ∧ t.mem.sym = s.mem.sym ∧ TreeWellFormed t
    ∧ (∀ k, (∃ p, IsCode t k p) ↔ k ∈ t.mem.tokens t.tokLen.toNat)
    ∧ ∃ u, exec .decompress t = .next u ∧ u.Succeeded ∧ u.symLen = s.symLen
      ∧ u.mem.symbols s.symLen.toNat = s.mem.symbols s.symLen.toNat
      ∧ u.tokLen = t.tokLen ∧ u.mem.tokens t.tokLen.toNat = t.mem.tokens t.tokLen.toNat

/-- 43_control.md R270: CLEAR zeroes every data register and buffer word, invalidates CODE and DICT, and changes nothing else but
completion. -/
def Obligations.ClearZeroesEverything : Prop :=
  ∀ s : State, ∃ t, exec .clear s = .next t ∧ t.Succeeded
    ∧ (∀ b i, t.mem.read b i = 0#32) ∧ (∀ k, codeEntry? t.code k = none) ∧ t.dict = [] ∧ t.dictNext = 256
    ∧ t.symLen = 0#32 ∧ t.tokLen = 0#32 ∧ t.bitLen = 0#32 ∧ t.nodeCount = 0#32 ∧ t.root = 0#32
    ∧ t.cfg = s.cfg ∧ t.doneIe = s.doneIe ∧ t.errIe = s.errIe ∧ t.latch = s.latch

/-! ### Invariants -/

/-- 00_scope.md R10, 10_state.md R21: the parameters never change. -/
def Obligations.StepKeepsConfiguration : Prop :=
  ∀ s t : State, step s = .next t → t.cfg = s.cfg

/-- Every step keeps the memory in canonical form (log 5): equal contents are equal data. -/
def Obligations.StepKeepsMemoryCanonical : Prop :=
  ∀ s t : State, s.cfg.legal = true → s.mem.wf s.cfg = true → step s = .next t → t.mem.wf t.cfg = true

/-- 10_state.md R24, R25; 43_control.md R260, R263: every step keeps STATUS and ERROR consistent. -/
def Obligations.StepKeepsFlagsConsistent : Prop :=
  ∀ s t : State, s.FlagsOk → step s = .next t → t.FlagsOk

/-- 10_state.md R33, R48, R49: every step keeps the dictionary invariants. -/
def Obligations.StepKeepsDictionaryInvariants : Prop :=
  ∀ s t : State, s.cfg.legal = true → s.DictOk → step s = .next t → t.DictOk

/-- 10_state.md R46; 41_huffman.md R195, R196, R199: every step keeps the valid CODE entries below DICT_CAP, with LEN from 1 to CODE_MAXLEN
and no bit at or above LEN.  That they are listed by rising token, each once, is the model's choice of representation (log 21). -/
def Obligations.StepKeepsCodeTableInvariants : Prop :=
  ∀ s t : State, s.cfg.legal = true → s.CodeOk → step s = .next t → t.CodeOk

/-- The invariant holds after reset in every legal configuration. -/
def Obligations.ResetMeetsInvariant : Prop :=
  ∀ (c : Config) (draw : Nat), c.legal = true → (State.afterReset c draw).Inv
end

