-- ==== Sys2Proof/Laws/Dictionary.lean ====
section
/-! SUPPORT. What lookup, insertion and the strings of the dictionary give (10_state.md R48; 40_lzw.md R132, R137). -/

namespace Sys2Proof.Machine

@[simp] theorem dictNext_nil : dictNext [] = 256 := rfl

@[simp] theorem dictNext_snoc (d : List DictEntry) (e : DictEntry) : dictNext (d ++ [e]) = dictNext d + 1 := by
  simp [dictNext, Nat.add_assoc]

/-- The entry that `insert(p, c)` binds. -/
def newEntry (d : List DictEntry) (p : Nat) (c : Byte) : DictEntry where
  pre := BitVec.ofNat 32 p
  symbol := c
  first := dictFirst d p
  length := BitVec.ofNat 32 (dictLength d p + 1)

/-- Insertion succeeds exactly below the capacity, and appends one entry (R137). -/
theorem dictInsert_eq_ok_iff {cap p : Nat} {d d' : List DictEntry} {c : Byte} :
    dictInsert cap d p c = .ok d' ↔ dictNext d < cap ∧ d' = d ++ [newEntry d p c] := by
  unfold dictInsert
  split
  · simp; omega
  · simp [newEntry, eq_comm]; omega

/-- Insertion fails exactly at the capacity, with RES_DICT (R137). -/
theorem dictInsert_eq_error_iff {cap p : Nat} {d : List DictEntry} {c : Byte} {e : ErrorKind} :
    dictInsert cap d p c = .error e ↔ cap ≤ dictNext d ∧ e = .capacity .dict := by
  unfold dictInsert
  split <;> simp_all [eq_comm]

/-- What a successful lookup found (R132). -/
theorem dictLookup_eq_some {d : List DictEntry} {p k : Nat} {c : Byte} (h : dictLookup d p c = some k) :
    ∃ j e, k = 256 + j ∧ d[j]? = some e ∧ e.pre.toNat = p ∧ e.symbol = c := by
  obtain ⟨j, hj, rfl⟩ := Option.map_eq_some_iff.1 h
  obtain ⟨hlt, he, -⟩ := List.findIdx?_eq_some_iff_getElem.1 hj
  simp only [Bool.and_eq_true, decide_eq_true_eq] at he
  exact ⟨j, d[j], rfl, List.getElem?_eq_getElem hlt, he.1, he.2⟩

/-- A lookup that finds nothing: no stored entry has that prefix and symbol (R132). -/
theorem dictLookup_eq_none {d : List DictEntry} {p : Nat} {c : Byte} :
    dictLookup d p c = none ↔ ∀ e ∈ d, ¬ (e.pre.toNat = p ∧ e.symbol = c) := by
  simp [dictLookup]

/-- Every prefix is smaller than its token (10_state.md R49 (c)). -/
def PrefixesOk (d : List DictEntry) : Prop := ∀ j e, d[j]? = some e → e.pre.toNat < 256 + j

theorem prefixesOk_nil : PrefixesOk [] := by simp [PrefixesOk]

theorem PrefixesOk.snoc {d : List DictEntry} {e : DictEntry} (h : PrefixesOk d) (he : e.pre.toNat < dictNext d) :
    PrefixesOk (d ++ [e]) := by
  intro j x hx
  rcases Nat.lt_trichotomy j d.length with hj | rfl | hj
  · exact h j x (by simpa [List.getElem?_append_left hj] using hx)
  · obtain rfl : e = x := by simpa using hx
    exact he
  · rw [List.getElem?_eq_none (by simp; omega)] at hx; cases hx

/-- With enough fuel more fuel changes nothing. -/
theorem dictStringFuel_succ {d : List DictEntry} (h : PrefixesOk d) (f k : Nat) (hk : k < 256 + f) :
    dictStringFuel d (f + 2) k = dictStringFuel d (f + 1) k := by
  induction f generalizing k with
  | zero =>
    have hk' : k < 256 := hk
    simp [dictStringFuel, hk']
  | succ f ih =>
    rw [dictStringFuel, dictStringFuel]
    split
    · rfl
    · cases he : d[k - 256]? with
      | none => rfl
      | some e =>
        have := h _ _ he
        simp only
        rw [ih _ (by omega)]

theorem dictString_seed (d : List DictEntry) {k : Nat} (hk : k < 256) : dictString d k = [BitVec.ofNat 8 k] := by
  simp [dictString, dictStringFuel, hk]

/-- `str(k) = str(PREFIX[k]) ++ [SYMBOL[k]]` (10_state.md R48). -/
theorem dictString_stored {d : List DictEntry} (h : PrefixesOk d) {j : Nat} {e : DictEntry} (he : d[j]? = some e) :
    dictString d (256 + j) = dictString d e.pre.toNat ++ [e.symbol] := by
  have hj : j < d.length := (List.getElem?_eq_some_iff.1 he).1
  have hp := h j e he
  conv_lhs => rw [dictString, dictStringFuel]
  rw [if_neg (by omega), Nat.add_sub_cancel_left, he]
  simp only
  obtain ⟨n, hn⟩ : ∃ n, d.length = n + 1 := ⟨d.length - 1, by omega⟩
  rw [dictString, hn, dictStringFuel_succ h _ _ (by omega)]

theorem dictStringFuel_snoc {d : List DictEntry} (h : PrefixesOk d) (e : DictEntry) (f k : Nat) (hk : k < dictNext d) :
    dictStringFuel (d ++ [e]) f k = dictStringFuel d f k := by
  induction f generalizing k with
  | zero => rfl
  | succ f ih =>
    rw [dictStringFuel, dictStringFuel]
    split
    · rfl
    · unfold dictNext at hk
      rw [List.getElem?_append_left (by omega)]
      cases he : d[k - 256]? with
      | none => rfl
      | some x =>
        have := h _ _ he
        simp only
        rw [ih _ (by unfold dictNext; omega)]

/-- An insertion leaves the strings of the bound tokens alone (10_state.md R49 (a)). -/
theorem dictString_snoc {d : List DictEntry} (h : PrefixesOk d) (e : DictEntry) {k : Nat} (hk : k < dictNext d) :
    dictString (d ++ [e]) k = dictString d k := by
  have hk' : k < 256 + d.length := hk
  rw [dictString, List.length_append, List.length_singleton, dictStringFuel_snoc h e _ _ hk, dictString,
    dictStringFuel_succ h _ _ (by omega)]

/-- The string an insertion binds (R137). -/
theorem dictString_snoc_new {d : List DictEntry} (h : PrefixesOk d) {p : Nat} (c : Byte) (hp : p < dictNext d)
    (hp' : p < 2 ^ 32) : dictString (d ++ [newEntry d p c]) (dictNext d) = dictString d p ++ [c] := by
  have e : (newEntry d p c).pre.toNat = p := by
    simp only [newEntry, BitVec.toNat_ofNat]; exact Nat.mod_eq_of_lt hp'
  have hok : PrefixesOk (d ++ [newEntry d p c]) := h.snoc (by rw [e]; exact hp)
  rw [dictNext, dictString_stored hok (e := newEntry d p c) (by simp), e, dictString_snoc h _ hp]
  rfl

end Sys2Proof.Machine
end

