-- ==== Sys2Proof/Laws/Memory.lean ====
section
/-! SUPPORT. The laws of the keyed lists, the buffers and the memory: read after write, frames, and that every memory
operation keeps the canonical form. -/

namespace Sys2Proof.Machine

/-! ### Keyed lists -/

section Keyed
variable {α : Type}

theorem lookupKey_eraseKey_self (k : Nat) (l : List (Nat × α)) : lookupKey k (eraseKey k l) = none := by
  induction l with
  | nil => rfl
  | cons p l ih =>
    by_cases h : p.1 = k
    · simpa [eraseKey, h] using ih
    · have : eraseKey k (p :: l) = p :: eraseKey k l := by simp [eraseKey, h]
      simp [this, lookupKey, h, ih]

theorem lookupKey_eraseKey_ne {k j : Nat} (hjk : j ≠ k) (l : List (Nat × α)) :
    lookupKey j (eraseKey k l) = lookupKey j l := by
  induction l with
  | nil => rfl
  | cons p l ih =>
    by_cases h : p.1 = k
    · have hj : p.1 ≠ j := fun e => hjk (e.symm.trans h)
      have : eraseKey k (p :: l) = eraseKey k l := by simp [eraseKey, h]
      simp [this, lookupKey, hj, ih]
    · have : eraseKey k (p :: l) = p :: eraseKey k l := by simp [eraseKey, h]
      simp [this, lookupKey, ih]

theorem lookupKey_insertKey (k j : Nat) (v : α) (l : List (Nat × α)) (h : lookupKey k l = none) :
    lookupKey j (insertKey k v l) = if j = k then some v else lookupKey j l := by
  induction l with
  | nil => simp [insertKey, lookupKey, eq_comm]
  | cons p l ih =>
    have hp : p.1 ≠ k := fun e => by simp [lookupKey, e] at h
    have ht : lookupKey k l = none := by simpa [lookupKey, hp] using h
    by_cases hlt : k < p.1
    · simp [insertKey, hlt, lookupKey, eq_comm]
    · by_cases hpj : p.1 = j
      · subst hpj; simp [insertKey, hlt, lookupKey, hp]
      · simp [insertKey, hlt, lookupKey, hpj, ih ht]

/-- Reading a keyed list after setting a key. -/
theorem lookupKey_putKey (k j : Nat) (v : α) (l : List (Nat × α)) :
    lookupKey j (putKey k v l) = if j = k then some v else lookupKey j l := by
  rw [putKey, lookupKey_insertKey _ _ _ _ (lookupKey_eraseKey_self k l)]
  split
  · rfl
  · exact lookupKey_eraseKey_ne ‹_› l

theorem mem_eraseKey {p : Nat × α} {k : Nat} {l : List (Nat × α)} : p ∈ eraseKey k l ↔ p ∈ l ∧ p.1 ≠ k := by
  simp [eraseKey]

theorem mem_insertKey {p : Nat × α} {k : Nat} {v : α} {l : List (Nat × α)} :
    p ∈ insertKey k v l ↔ p = (k, v) ∨ p ∈ l := by
  induction l with
  | nil => simp [insertKey]
  | cons q l ih =>
    by_cases h : k < q.1
    · simp [insertKey, h]
    · simp only [insertKey, h, if_false, List.mem_cons, ih]; tauto

/-- The cells after setting a key. -/
theorem mem_putKey {p : Nat × α} {k : Nat} {v : α} {l : List (Nat × α)} :
    p ∈ putKey k v l ↔ p = (k, v) ∨ (p ∈ l ∧ p.1 ≠ k) := by
  rw [putKey, mem_insertKey, mem_eraseKey]

theorem risingKeys_iff {l : List (Nat × α)} : risingKeys l = true ↔ l.Pairwise fun p q => p.1 < q.1 := by
  simp [risingKeys, List.pairwise_map]

theorem risingKeys_eraseKey {l : List (Nat × α)} (k : Nat) (h : risingKeys l = true) :
    risingKeys (eraseKey k l) = true := by
  rw [risingKeys_iff] at *
  exact h.sublist List.filter_sublist

theorem risingKeys_insertKey {l : List (Nat × α)} (k : Nat) (v : α) (h : risingKeys l = true)
    (hk : ∀ p ∈ l, p.1 ≠ k) : risingKeys (insertKey k v l) = true := by
  rw [risingKeys_iff] at *
  induction l with
  | nil => simp [insertKey]
  | cons q l ih =>
    rw [List.pairwise_cons] at h
    by_cases hlt : k < q.1
    · simp only [insertKey, hlt, if_true, List.pairwise_cons, List.mem_cons]
      refine ⟨?_, h⟩
      rintro p (rfl | hp)
      · exact hlt
      · exact hlt.trans (h.1 p hp)
    · simp only [insertKey, hlt, if_false, List.pairwise_cons]
      refine ⟨fun p hp => ?_, ih h.2 fun p hp => hk p (List.mem_cons_of_mem _ hp)⟩
      rcases mem_insertKey.1 hp with rfl | hp
      · have := hk q List.mem_cons_self; show q.1 < k; omega
      · exact h.1 p hp

/-- Setting a key keeps the keys rising. -/
theorem risingKeys_putKey {l : List (Nat × α)} (k : Nat) (v : α) (h : risingKeys l = true) :
    risingKeys (putKey k v l) = true :=
  risingKeys_insertKey k v (risingKeys_eraseKey k h) fun _ hp => (mem_eraseKey.1 hp).2

theorem lookupKey_mem {l : List (Nat × α)} {k : Nat} {v : α} (h : lookupKey k l = some v) : (k, v) ∈ l := by
  induction l with
  | nil => simp [lookupKey] at h
  | cons p l ih =>
    by_cases hp : p.1 = k
    · obtain ⟨a, b⟩ := p
      simp only at hp
      subst hp
      simp only [lookupKey, if_true, Option.some.injEq] at h
      exact h ▸ List.mem_cons_self
    · simp only [lookupKey, hp, if_false] at h; exact List.mem_cons_of_mem _ (ih h)

/-- In a list with rising keys a cell is what its key looks up. -/
theorem lookupKey_of_mem {l : List (Nat × α)} (hr : risingKeys l = true) {p : Nat × α} (h : p ∈ l) :
    lookupKey p.1 l = some p.2 := by
  rw [risingKeys_iff] at hr
  induction l with
  | nil => simp at h
  | cons q l ih =>
    rw [List.pairwise_cons] at hr
    rcases List.mem_cons.1 h with rfl | h'
    · simp [lookupKey]
    · have : q.1 ≠ p.1 := (hr.1 p h').ne
      simpa [lookupKey, this] using ih hr.2 h'

/-- Canonical form: lists with rising keys that look up the same are the same list. -/
theorem eq_of_lookupKey_eq {l l' : List (Nat × α)} (hr : risingKeys l = true) (hr' : risingKeys l' = true)
    (h : ∀ k, lookupKey k l = lookupKey k l') : l = l' := by
  have hmem : ∀ p, p ∈ l ↔ p ∈ l' := fun p =>
    ⟨fun hp => lookupKey_mem (h p.1 ▸ lookupKey_of_mem hr hp),
     fun hp => lookupKey_mem ((h p.1).symm ▸ lookupKey_of_mem hr' hp)⟩
  rw [risingKeys_iff] at hr hr'
  have hn : l.Nodup := hr.imp fun {a b} hab e => by rw [e] at hab; omega
  have hn' : l'.Nodup := hr'.imp fun {a b} hab e => by rw [e] at hab; omega
  exact List.Perm.eq_of_pairwise (fun a b _ _ hab hba => by omega) hr hr'
    ((List.perm_ext_iff_of_nodup hn hn').2 hmem)

end Keyed

/-! ### Buffers -/

theorem wordMask_and_self (b : BufId) (i : Nat) (v : Word) : v &&& wordMask b i &&& wordMask b i = v &&& wordMask b i := by
  rw [BitVec.and_assoc, BitVec.and_self]

/-- Read after write, at the written word. -/
theorem Buf.read_write_self (b : BufId) (buf : Buf) (i : Nat) (v : Word) (h : wordMask b i ≠ 0#32) :
    Buf.read b (Buf.write b buf i v) i = v &&& wordMask b i := by
  unfold Buf.write
  rw [if_neg h]
  split
  · next hz => simp [Buf.read, lookupKey_eraseKey_self, hz.1, Fill.word, hz.2]
  · simp [Buf.read, lookupKey_putKey]

/-- A write leaves every other word alone. -/
theorem Buf.read_write_ne (b : BufId) (buf : Buf) {i j : Nat} (v : Word) (h : j ≠ i) :
    Buf.read b (Buf.write b buf i v) j = Buf.read b buf j := by
  unfold Buf.write
  split
  · rfl
  · split <;> simp [Buf.read, lookupKey_eraseKey_ne h, lookupKey_putKey, h]

theorem Buf.wf_iff (c : Config) (b : BufId) (buf : Buf) :
    Buf.wf c b buf = true ↔ risingKeys buf.cells = true ∧ ∀ p ∈ buf.cells, Buf.cellWf c b buf.fill p = true := by
  simp [Buf.wf]

@[simp] theorem Buf.wf_empty (c : Config) (b : BufId) (f : Fill) : Buf.wf c b ⟨f, []⟩ = true := rfl

/-- A write in range keeps the canonical form. -/
theorem Buf.wf_write {c : Config} {b : BufId} {buf : Buf} {i : Nat} (v : Word) (h : Buf.wf c b buf = true)
    (hi : i < wordCount c b) : Buf.wf c b (Buf.write b buf i v) = true := by
  rw [Buf.wf_iff] at h
  unfold Buf.write
  split
  · exact (Buf.wf_iff ..).2 h
  · next hm =>
    split
    · exact (Buf.wf_iff ..).2 ⟨risingKeys_eraseKey i h.1, fun p hp => h.2 p (mem_eraseKey.1 hp).1⟩
    · next hz =>
      refine (Buf.wf_iff ..).2 ⟨risingKeys_putKey i _ h.1, fun p hp => ?_⟩
      rcases mem_putKey.1 hp with rfl | ⟨hp, -⟩
      · simp only [Buf.cellWf, hi, wordMask_and_self, decide_true, Bool.and_true, hm, decide_false,
          Bool.not_false, hz]
      · exact h.2 p hp

/-- Two canonical buffers that are both zero-filled and read the same are the same data. -/
theorem Buf.eq_of_read_eq {c : Config} {b : BufId} {x y : Buf} (hx : Buf.wf c b x = true) (hy : Buf.wf c b y = true)
    (fx : x.fill = .zero) (fy : y.fill = .zero) (h : ∀ i, Buf.read b x i = Buf.read b y i) : x = y := by
  have nz : ∀ {z : Buf}, Buf.wf c b z = true → z.fill = .zero → ∀ {k v}, lookupKey k z.cells = some v → v ≠ 0#32 := by
    intro z hz fz k v hv e
    have := (Buf.wf_iff ..).1 hz |>.2 _ (lookupKey_mem hv)
    simp [Buf.cellWf, fz, e] at this
  have hl : ∀ k, lookupKey k x.cells = lookupKey k y.cells := by
    intro k
    have := h k
    unfold Buf.read at this
    rw [fx, fy] at this
    cases ex : lookupKey k x.cells <;> cases ey : lookupKey k y.cells <;> simp only [ex, ey, Fill.word] at this
    · rfl
    · exact absurd this.symm (nz hy fy ey)
    · exact absurd this (nz hx fx ex)
    · rw [this]
  have hc := eq_of_lookupKey_eq ((Buf.wf_iff ..).1 hx).1 ((Buf.wf_iff ..).1 hy).1 hl
  cases x; cases y; simp_all

/-! ### Memory -/

@[simp] theorem Memory.get_put_self (m : Memory) (b : BufId) (x : Buf) : (m.put b x).get b = x := by cases b <;> rfl

theorem Memory.get_put_ne (m : Memory) {b b' : BufId} (x : Buf) (h : b' ≠ b) : (m.put b x).get b' = m.get b' := by
  cases b <;> cases b' <;> first | rfl | exact absurd rfl h

theorem Memory.get_put (m : Memory) (b b' : BufId) (x : Buf) :
    (m.put b x).get b' = if b' = b then x else m.get b' := by
  split
  · next h => subst h; simp
  · exact Memory.get_put_ne m x ‹_›

theorem Memory.wf_iff (c : Config) (m : Memory) : m.wf c = true ↔ ∀ b, Buf.wf c b (m.get b) = true := by
  simp only [Memory.wf, Bool.and_eq_true]
  refine ⟨fun h b => ?_, fun h => ⟨⟨⟨⟨h .sym, h .tok⟩, h .bits⟩, h .freq⟩, h .node⟩⟩
  obtain ⟨⟨⟨⟨h1, h2⟩, h3⟩, h4⟩, h5⟩ := h
  cases b <;> assumption

theorem Memory.wf_put {c : Config} {m : Memory} {b : BufId} {x : Buf} (h : m.wf c = true) (hx : Buf.wf c b x = true) :
    (m.put b x).wf c = true := by
  rw [Memory.wf_iff] at *
  intro b'
  rw [Memory.get_put]
  split
  · next e => exact e ▸ hx
  · exact h b'

theorem Memory.get_write_ne (m : Memory) {b b' : BufId} (i : Nat) (v : Word) (h : b' ≠ b) :
    (m.write b i v).get b' = m.get b' := Memory.get_put_ne m _ h

theorem Memory.read_write_self (m : Memory) (b : BufId) (i : Nat) (v : Word) (h : wordMask b i ≠ 0#32) :
    (m.write b i v).read b i = v &&& wordMask b i := by
  simp [Memory.read, Memory.write, Buf.read_write_self _ _ _ _ h]

theorem Memory.read_write_ne (m : Memory) {b b' : BufId} {i j : Nat} (v : Word) (h : b' ≠ b ∨ j ≠ i) :
    (m.write b i v).read b' j = m.read b' j := by
  by_cases hb : b' = b
  · subst hb
    simp [Memory.read, Memory.write, Buf.read_write_ne _ _ v (h.resolve_left fun f => f rfl)]
  · simp [Memory.read, Memory.get_write_ne m i v hb]

theorem Memory.wf_write {c : Config} {m : Memory} {b : BufId} {i : Nat} (v : Word) (h : m.wf c = true)
    (hi : i < wordCount c b) : (m.write b i v).wf c = true :=
  Memory.wf_put h (Buf.wf_write v ((Memory.wf_iff ..).1 h b) hi)

theorem Memory.wf_clear {c : Config} {m : Memory} (b : BufId) (h : m.wf c = true) : (m.clear b).wf c = true :=
  Memory.wf_put h (Buf.wf_empty ..)

theorem Memory.wf_redraw {c : Config} {m : Memory} (b : BufId) (draw : Nat) (h : m.wf c = true) :
    (m.redraw b draw).wf c = true := Memory.wf_put h (Buf.wf_empty ..)

theorem Memory.wf_drawn (c : Config) (draw : Nat) : (Memory.drawn draw).wf c = true := rfl

@[simp] theorem Memory.read_clear_self (m : Memory) (b : BufId) (i : Nat) : (m.clear b).read b i = 0#32 := by
  simp [Memory.read, Memory.clear, Buf.read, lookupKey, Fill.word]

@[simp] theorem Memory.read_redraw_self (m : Memory) (b : BufId) (draw i : Nat) :
    (m.redraw b draw).read b i = Config.freeWord draw b i &&& wordMask b i := by
  simp [Memory.read, Memory.redraw, Buf.read, lookupKey, Fill.word]

theorem Memory.get_clear_ne (m : Memory) {b b' : BufId} (h : b' ≠ b) : (m.clear b).get b' = m.get b' :=
  Memory.get_put_ne m _ h

theorem Memory.get_redraw_ne (m : Memory) {b b' : BufId} (draw : Nat) (h : b' ≠ b) :
    (m.redraw b draw).get b' = m.get b' := Memory.get_put_ne m _ h

/-! ### Consecutive writes -/

theorem Memory.get_writeFrom_ne (m : Memory) {b b' : BufId} (i : Nat) (vs : List Word) (h : b' ≠ b) :
    (m.writeFrom b i vs).get b' = m.get b' := by
  induction vs generalizing m i with
  | nil => rfl
  | cons v vs ih => rw [Memory.writeFrom, ih, Memory.get_write_ne m i v h]

theorem Memory.wf_writeFrom {c : Config} {m : Memory} {b : BufId} {i : Nat} (vs : List Word) (h : m.wf c = true)
    (hi : i + vs.length ≤ wordCount c b) : (m.writeFrom b i vs).wf c = true := by
  induction vs generalizing m i with
  | nil => exact h
  | cons v vs ih =>
    rw [List.length_cons] at hi
    exact ih (Memory.wf_write v h (by omega)) (by omega)

/-- Consecutive writes leave the words outside them alone. -/
theorem Memory.read_writeFrom_of_outside (m : Memory) (b : BufId) (i j : Nat) (vs : List Word)
    (h : j < i ∨ i + vs.length ≤ j) : (m.writeFrom b i vs).read b j = m.read b j := by
  induction vs generalizing m i with
  | nil => rfl
  | cons v vs ih =>
    rw [List.length_cons] at h
    rw [Memory.writeFrom, ih _ _ (by omega), Memory.read_write_ne m v (.inr (by omega))]

/-- Reading back one of consecutive writes. -/
theorem Memory.read_writeFrom (m : Memory) (b : BufId) (i j : Nat) (vs : List Word) (hj : j < vs.length)
    (hm : wordMask b (i + j) ≠ 0#32) : (m.writeFrom b i vs).read b (i + j) = vs[j] &&& wordMask b (i + j) := by
  induction vs generalizing m i j with
  | nil => simp at hj
  | cons v vs ih =>
    rw [Memory.writeFrom]
    cases j with
    | zero =>
      rw [Memory.read_writeFrom_of_outside _ _ _ _ _ (.inl (by omega))]
      simpa using Memory.read_write_self m b i v (by simpa using hm)
    | succ j =>
      have e : i + (j + 1) = i + 1 + j := by omega
      rw [e] at hm ⊢
      simpa using ih (m.write b i v) (i + 1) j (by simpa using hj) hm

end Sys2Proof.Machine
end

