-- ==== Sys2Proof/Laws/Operands.lean ====
section
/-! SUPPORT. What the engine's reads of SYM, TOK, FREQ, NODE and BITS give after its writes, and the bits of packed words. -/

namespace Sys2Proof.Machine

/-! ### SYM and TOK -/

theorem Memory.length_tokens (m : Memory) (n : Nat) : (m.tokens n).length = n := by simp [Memory.tokens]

theorem Memory.length_symbols (m : Memory) (n : Nat) : (m.symbols n).length = n := by simp [Memory.symbols]

theorem Memory.length_stream (m : Memory) (n : Nat) : (m.stream n).length = n := by simp [Memory.stream]

theorem Memory.tokens_lt (m : Memory) (n : Nat) : ∀ t ∈ m.tokens n, t < 2 ^ 32 := by
  intro t ht
  obtain ⟨i, -, rfl⟩ := List.mem_map.1 ht
  exact (m.read .tok i).isLt

/-- The tokens stored are the tokens read. -/
theorem Memory.tokens_putTokens (m : Memory) (ts : List Nat) (h : ∀ t ∈ ts, t < 2 ^ 32) :
    (m.putTokens ts).tokens ts.length = ts := by
  refine List.ext_getElem (by simp [Memory.tokens]) fun i h1 h2 => ?_
  have := Memory.read_writeFrom m .tok 0 i (ts.map (BitVec.ofNat 32)) (by simpa using h2) (by simp [wordMask])
  simp only [Nat.zero_add] at this
  simp only [Memory.tokens, List.getElem_map, List.getElem_range, Memory.putTokens, this]
  have hlt := h ts[i] (List.getElem_mem h2)
  simp only [wordMask, BitVec.and_allOnes, BitVec.toNat_ofNat]
  exact Nat.mod_eq_of_lt hlt

/-- TOK beyond the tokens stored is unchanged (40_lzw.md R135; 42_entropy.md R231). -/
theorem Memory.read_putTokens_of_le (m : Memory) (ts : List Nat) {i : Nat} (h : ts.length ≤ i) :
    (m.putTokens ts).read .tok i = m.read .tok i :=
  Memory.read_writeFrom_of_outside _ _ _ _ _ (.inr (by simpa using h))

/-- The symbols stored are the symbols read. -/
theorem Memory.symbols_putSymbols (m : Memory) (xs : List Byte) : (m.putSymbols xs).symbols xs.length = xs := by
  refine List.ext_getElem (by simp [Memory.symbols]) fun i h1 h2 => ?_
  have := Memory.read_writeFrom m .sym 0 i (xs.map fun x => x.setWidth 32) (by simpa using h2) (by simp [wordMask])
  simp only [Nat.zero_add] at this
  simp only [Memory.symbols, List.getElem_map, List.getElem_range, Memory.putSymbols, Memory.symbol, this]
  have hx : ∀ x : Byte, (x.setWidth 32 &&& wordMask .sym i).setWidth 8 = x := by simp only [wordMask]; decide
  exact hx _

/-- SYM beyond the symbols stored is unchanged (40_lzw.md R143). -/
theorem Memory.read_putSymbols_of_le (m : Memory) (xs : List Byte) {i : Nat} (h : xs.length ≤ i) :
    (m.putSymbols xs).read .sym i = m.read .sym i :=
  Memory.read_writeFrom_of_outside _ _ _ _ _ (.inr (by simpa using h))

theorem Memory.get_putTokens_ne (m : Memory) (ts : List Nat) {b : BufId} (h : b ≠ .tok) :
    (m.putTokens ts).get b = m.get b := Memory.get_writeFrom_ne _ _ _ h

theorem Memory.get_putSymbols_ne (m : Memory) (xs : List Byte) {b : BufId} (h : b ≠ .sym) :
    (m.putSymbols xs).get b = m.get b := Memory.get_writeFrom_ne _ _ _ h

theorem Memory.wf_putTokens {c : Config} {m : Memory} {ts : List Nat} (h : m.wf c = true) (hn : ts.length ≤ c.tokCap) :
    (m.putTokens ts).wf c = true := Memory.wf_writeFrom _ h (by simpa [wordCount] using hn)

theorem Memory.wf_putSymbols {c : Config} {m : Memory} {xs : List Byte} (h : m.wf c = true) (hn : xs.length ≤ c.symCap) :
    (m.putSymbols xs).wf c = true := Memory.wf_writeFrom _ h (by simpa [wordCount] using hn)

/-! ### FREQ -/

/-- A 64-bit value is its two words (20_memory.md R75). -/
theorem words64_value {v : Nat} (h : v < 2 ^ 64) :
    (BitVec.ofNat 32 v).toNat + 2 ^ 32 * (BitVec.ofNat 32 (v / 2 ^ 32)).toNat = v := by
  simp only [BitVec.toNat_ofNat]
  omega

theorem Memory.freqOf_lt (m : Memory) (t : Nat) : m.freqOf t < 2 ^ 64 := by
  have h1 := (m.read .freq (2 * t)).isLt
  have h2 := (m.read .freq (2 * t + 1)).isLt
  unfold Memory.freqOf
  omega

theorem Memory.freqOf_putFreq_self (m : Memory) (t : Nat) {v : Nat} (h : v < 2 ^ 64) : (m.putFreq t v).freqOf t = v := by
  have h0 := Memory.read_writeFrom m .freq (2 * t) 0 (words64 v) (by simp [words64]) (by simp [wordMask])
  have h1 := Memory.read_writeFrom m .freq (2 * t) 1 (words64 v) (by simp [words64]) (by simp [wordMask])
  simp only [Nat.add_zero, words64, List.getElem_cons_zero, List.getElem_cons_succ, wordMask, BitVec.and_allOnes] at h0 h1
  simp only [Memory.freqOf, Memory.putFreq, words64, h0, h1]
  exact words64_value h

theorem Memory.freqOf_putFreq_ne (m : Memory) {t k : Nat} (v : Nat) (h : k ≠ t) : (m.putFreq t v).freqOf k = m.freqOf k := by
  simp only [Memory.freqOf, Memory.putFreq]
  rw [Memory.read_writeFrom_of_outside _ _ _ _ _ (by simp only [words64, List.length_cons, List.length_nil]; omega),
    Memory.read_writeFrom_of_outside _ _ _ _ _ (by simp only [words64, List.length_cons, List.length_nil]; omega)]

@[simp] theorem Memory.freqOf_clear (m : Memory) (t : Nat) : (m.clear .freq).freqOf t = 0 := by simp [Memory.freqOf]

theorem Memory.get_putFreq_ne (m : Memory) (t v : Nat) {b : BufId} (h : b ≠ .freq) : (m.putFreq t v).get b = m.get b :=
  Memory.get_writeFrom_ne _ _ _ h

theorem Memory.wf_putFreq {c : Config} {m : Memory} {t : Nat} (v : Nat) (h : m.wf c = true) (ht : t < c.dictCap) :
    (m.putFreq t v).wf c = true :=
  Memory.wf_writeFrom _ h (by simp only [words64, List.length_cons, List.length_nil, wordCount]; omega)

/-! ### NODE -/

theorem Node.length_words (w : Nat) (nd : Node) : (nd.words w).length = 6 := by cases nd <;> rfl

/-- A node's token and child indices fit in their 32-bit fields. -/
def Node.fits : Node → Prop
  | .leaf t => t < 2 ^ 32
  | .internal l r => l < 2 ^ 32 ∧ r < 2 ^ 32

theorem Memory.get_putNodes_ne (m : Memory) (i : Nat) (nds : List (Node × Nat)) {b : BufId} (h : b ≠ .node) :
    (m.putNodes i nds).get b = m.get b := by
  induction nds generalizing m i with
  | nil => rfl
  | cons p nds ih => rw [Memory.putNodes, ih, Memory.get_writeFrom_ne _ _ _ h]

/-- NODE words outside the nodes stored are unchanged (41_huffman.md R182). -/
theorem Memory.read_putNodes_of_outside (m : Memory) (i j : Nat) (nds : List (Node × Nat))
    (h : j < 8 * i ∨ 8 * (i + nds.length) ≤ j) : (m.putNodes i nds).read .node j = m.read .node j := by
  induction nds generalizing m i with
  | nil => rfl
  | cons p nds ih =>
    rw [List.length_cons] at h
    rw [Memory.putNodes, ih _ _ (by omega),
      Memory.read_writeFrom_of_outside _ _ _ _ _ (by rw [Node.length_words]; omega)]

theorem Memory.wf_putNodes {c : Config} {m : Memory} {i : Nat} {nds : List (Node × Nat)} (h : m.wf c = true)
    (hn : i + nds.length ≤ c.nodeCap) : (m.putNodes i nds).wf c = true := by
  induction nds generalizing m i with
  | nil => exact h
  | cons p nds ih =>
    rw [List.length_cons] at hn
    refine ih (Memory.wf_writeFrom _ h ?_) (by omega)
    simp only [Node.length_words, wordCount]
    omega

theorem wordMask_node_ne_zero {k : Nat} (h : k % 8 < 6) : wordMask .node k ≠ 0#32 := by
  simp only [wordMask, h, if_true]
  split <;> decide

/-- The words of one stored node. -/
theorem Memory.read_writeNode (m : Memory) (i f w : Nat) (nd : Node) (hf : f < 6) :
    (m.writeFrom .node (8 * i) (nd.words w)).read .node (8 * i + f)
      = (nd.words w)[f]'(by rw [Node.length_words]; exact hf) &&& wordMask .node f := by
  have e : wordMask .node (8 * i + f) = wordMask .node f := by simp [wordMask, Nat.add_mod]
  rw [Memory.read_writeFrom _ _ _ _ _ (by rw [Node.length_words]; exact hf) (wordMask_node_ne_zero (by omega)), e]

/-- The engine reads back the nodes it stored, with their weights. -/
theorem Memory.nodeAt_putNodes (m : Memory) (i j : Nat) (nds : List (Node × Nat)) (hj : j < nds.length)
    (hfit : nds[j].1.fits) (hw : nds[j].2 < 2 ^ 64) :
    (m.putNodes i nds).nodeAt (i + j) = nds[j].1
      ∧ ((m.putNodes i nds).read .node (8 * (i + j) + 4)).toNat
          + 2 ^ 32 * ((m.putNodes i nds).read .node (8 * (i + j) + 5)).toNat = nds[j].2 := by
  induction nds generalizing m i j with
  | nil => simp at hj
  | cons p nds ih =>
    cases j with
    | succ j =>
      have e : i + (j + 1) = i + 1 + j := by omega
      rw [e]
      exact ih (m.writeFrom .node (8 * i) (p.1.words p.2)) (i + 1) j (by simpa using hj) hfit hw
    | zero =>
      obtain ⟨nd, w⟩ := p
      have rd : ∀ f, (hf : f < 6) → ((m.putNodes i ((nd, w) :: nds)).read .node (8 * i + f))
          = (nd.words w)[f]'(by rw [Node.length_words]; exact hf) &&& wordMask .node f := by
        intro f hf
        rw [Memory.putNodes, Memory.read_putNodes_of_outside _ _ _ _ (.inl (by omega)), Memory.read_writeNode _ _ _ _ _ hf]
      have r0 := rd 0 (by decide)
      have rf : ∀ f, 0 < f → (hf : f < 6) → ((m.putNodes i ((nd, w) :: nds)).read .node (8 * i + f))
          = (nd.words w)[f]'(by rw [Node.length_words]; exact hf) := by
        intro f h0 hf
        have e : wordMask .node f = BitVec.allOnes 32 := by
          simp only [wordMask, Nat.mod_eq_of_lt (by omega : f < 8), hf, if_true, h0.ne', if_false]
        rw [rd f hf, e, BitVec.and_allOnes]
      have r1 := rf 1 (by decide) (by decide)
      have r2 := rf 2 (by decide) (by decide)
      have r3 := rf 3 (by decide) (by decide)
      have r4 := rf 4 (by decide) (by decide)
      have r5 := rf 5 (by decide) (by decide)
      simp only [Nat.add_zero] at r0
      simp only [Nat.add_zero, Memory.nodeAt, r0, r1, r2, r3, r4, r5, List.getElem_cons_zero] at hfit hw ⊢
      have hv := words64_value hw
      cases nd with
      | leaf t => exact ⟨by simpa [Node.words, wordMask, Node.fits] using hfit, hv⟩
      | internal l r => exact ⟨by simpa [Node.words, wordMask, Node.fits] using hfit, hv⟩

/-! ### Packed bits -/

theorem packBits_lt (bs : List Bool) : packBits bs < 2 ^ bs.length := by
  induction bs with
  | nil => simp [packBits]
  | cons b bs ih =>
    simp only [packBits, List.length_cons, Nat.pow_succ]
    cases b <;> simp <;> omega

/-- Bit `j` of a packed list is its element `j` (20_memory.md R74; 10_state.md R46). -/
theorem testBit_packBits (bs : List Bool) (j : Nat) : (packBits bs).testBit j = bs[j]?.getD false := by
  induction bs generalizing j with
  | nil => simp [packBits]
  | cons b bs ih =>
    cases j with
    | zero => cases b <;> simp [packBits, Nat.testBit_zero]
    | succ j =>
      have : (b.toNat + 2 * packBits bs) / 2 = packBits bs := by cases b <;> (simp; try omega)
      rw [packBits, Nat.testBit_succ, this, ih]; simp

theorem CodeEntry.length_toBits (e : CodeEntry) : e.toBits.length = e.len.toNat := by simp [CodeEntry.toBits]

/-- The bits of the entry made of a code are the code (41_huffman.md R195). -/
theorem CodeEntry.toBits_ofBits {bs : List Bool} (h : bs.length ≤ 64) : (CodeEntry.ofBits bs).toBits = bs := by
  have hl : (CodeEntry.ofBits bs).len.toNat = bs.length := by
    simp only [CodeEntry.ofBits, BitVec.toNat_ofNat]; omega
  refine List.ext_getElem (by rw [CodeEntry.length_toBits, hl]) fun j h1 h2 => ?_
  simp only [CodeEntry.toBits, List.getElem_map, List.getElem_range, CodeEntry.ofBits, BitVec.getLsbD_ofNat,
    testBit_packBits]
  have : j < 64 := by omega
  simp [this, h2]

/-- A code entry has no bit at or above its length (10_state.md R46). -/
theorem CodeEntry.bits_ofBits_of_le {bs : List Bool} {j : Nat} (h : bs.length ≤ j) :
    (CodeEntry.ofBits bs).bits.getLsbD j = false := by
  simp [CodeEntry.ofBits, BitVec.getLsbD_ofNat, testBit_packBits, List.getElem?_eq_none h]

theorem length_packWords (n : Nat) (bs : List Bool) : (packWords n bs).length = n := by
  induction n generalizing bs with
  | zero => rfl
  | succ n ih => simp [packWords, ih]

theorem getLsbD_packWords (n : Nat) (bs : List Bool) (j q : Nat) (hj : j < n) (hq : q < 32) :
    ((packWords n bs)[j]'(by rw [length_packWords]; exact hj)).getLsbD q = bs[32 * j + q]?.getD false := by
  induction n generalizing bs j with
  | zero => omega
  | succ n ih =>
    cases j with
    | zero =>
      simp only [packWords, List.getElem_cons_zero, BitVec.getLsbD_ofNat, testBit_packBits, hq, decide_true, Bool.true_and]
      simp [hq]
    | succ j =>
      simp only [packWords, List.getElem_cons_succ]
      rw [ih _ _ (by omega)]
      simp only [List.getElem?_drop]
      congr 2
      omega

/-! ### BITS -/

/-- Every stream bit of the words that are written: the stream, then zeros (42_entropy.md R221, R222). -/
theorem Memory.streamBit_putStream (m : Memory) (bs : List Bool) {p : Nat} (h : p < 32 * ((bs.length + 31) / 32)) :
    (m.putStream bs).streamBit p = bs[p]?.getD false := by
  have hj : p / 32 < (bs.length + 31) / 32 := by omega
  have := Memory.read_writeFrom m .bits 0 (p / 32) (packWords ((bs.length + 31) / 32) bs)
    (by rw [length_packWords]; exact hj) (by simp [wordMask])
  simp only [Nat.zero_add] at this
  simp only [Memory.streamBit, Memory.putStream, this, wordMask, BitVec.and_allOnes]
  rw [getLsbD_packWords _ _ _ _ hj (Nat.mod_lt _ (by decide))]
  congr 2
  omega

/-- The stream stored is the stream read. -/
theorem Memory.stream_putStream (m : Memory) (bs : List Bool) : (m.putStream bs).stream bs.length = bs := by
  refine List.ext_getElem (by simp [Memory.stream]) fun p h1 h2 => ?_
  simp only [Memory.stream, List.getElem_map, List.getElem_range]
  rw [Memory.streamBit_putStream _ _ (by omega)]
  simp [h2]

/-- The words beyond the stream's last word are unchanged (42_entropy.md R222). -/
theorem Memory.read_putStream_of_le (m : Memory) (bs : List Bool) {j : Nat} (h : (bs.length + 31) / 32 ≤ j) :
    (m.putStream bs).read .bits j = m.read .bits j :=
  Memory.read_writeFrom_of_outside _ _ _ _ _ (.inr (by rw [length_packWords]; omega))

theorem Memory.get_putStream_ne (m : Memory) (bs : List Bool) {b : BufId} (h : b ≠ .bits) :
    (m.putStream bs).get b = m.get b := Memory.get_writeFrom_ne _ _ _ h

theorem Memory.wf_putStream {c : Config} {m : Memory} {bs : List Bool} (h : m.wf c = true) (hc : c.bitCap % 32 = 0)
    (hn : bs.length ≤ c.bitCap) : (m.putStream bs).wf c = true :=
  Memory.wf_writeFrom _ h (by rw [length_packWords]; simp only [wordCount]; omega)

end Sys2Proof.Machine
end

