-- ==== Sys2Proof/Laws/State.lean ====
section
/-! SUPPORT. One lemma per field per named update of the state, true by rfl. -/

namespace Sys2Proof.Machine

/-! ### Command acceptance (43_control.md R260) -/

@[simp] theorem State.accept_cfg (s : State) (v : Word) : (s.accept v).cfg = s.cfg := rfl
@[simp] theorem State.accept_busy (s : State) (v : Word) : (s.accept v).busy = true := rfl
@[simp] theorem State.accept_done (s : State) (v : Word) : (s.accept v).done = false := rfl
@[simp] theorem State.accept_err (s : State) (v : Word) : (s.accept v).err = false := rfl
@[simp] theorem State.accept_errCode (s : State) (v : Word) : (s.accept v).errCode = s.errCode := rfl
@[simp] theorem State.accept_errStage (s : State) (v : Word) : (s.accept v).errStage = s.errStage := rfl
@[simp] theorem State.accept_errInfo (s : State) (v : Word) : (s.accept v).errInfo = s.errInfo := rfl
@[simp] theorem State.accept_doneIe (s : State) (v : Word) : (s.accept v).doneIe = s.doneIe := rfl
@[simp] theorem State.accept_errIe (s : State) (v : Word) : (s.accept v).errIe = s.errIe := rfl
@[simp] theorem State.accept_symLen (s : State) (v : Word) : (s.accept v).symLen = s.symLen := rfl
@[simp] theorem State.accept_tokLen (s : State) (v : Word) : (s.accept v).tokLen = s.tokLen := rfl
@[simp] theorem State.accept_bitLen (s : State) (v : Word) : (s.accept v).bitLen = s.bitLen := rfl
@[simp] theorem State.accept_nodeCount (s : State) (v : Word) : (s.accept v).nodeCount = s.nodeCount := rfl
@[simp] theorem State.accept_root (s : State) (v : Word) : (s.accept v).root = s.root := rfl
@[simp] theorem State.accept_latch (s : State) (v : Word) : (s.accept v).latch = v := rfl
@[simp] theorem State.accept_mem (s : State) (v : Word) : (s.accept v).mem = s.mem := rfl
@[simp] theorem State.accept_code (s : State) (v : Word) : (s.accept v).code = s.code := rfl
@[simp] theorem State.accept_dict (s : State) (v : Word) : (s.accept v).dict = s.dict := rfl
@[simp] theorem State.accept_draws (s : State) (v : Word) : (s.accept v).draws = s.draws := rfl
@[simp] theorem State.accept_inputs (s : State) (v : Word) : (s.accept v).inputs = s.inputs := rfl
@[simp] theorem State.accept_reads (s : State) (v : Word) : (s.accept v).reads = s.reads := rfl

/-! ### The W1C write of STATUS (10_state.md R24) -/

@[simp] theorem State.acknowledge_cfg (s : State) (v : Word) : (s.acknowledge v).cfg = s.cfg := rfl
@[simp] theorem State.acknowledge_busy (s : State) (v : Word) : (s.acknowledge v).busy = s.busy := rfl
@[simp] theorem State.acknowledge_done (s : State) (v : Word) : (s.acknowledge v).done = (s.done && !v.getLsbD 1) := rfl
@[simp] theorem State.acknowledge_err (s : State) (v : Word) : (s.acknowledge v).err = (s.err && !v.getLsbD 2) := rfl
@[simp] theorem State.acknowledge_errCode (s : State) (v : Word) : (s.acknowledge v).errCode = s.errCode := rfl
@[simp] theorem State.acknowledge_errStage (s : State) (v : Word) : (s.acknowledge v).errStage = s.errStage := rfl
@[simp] theorem State.acknowledge_errInfo (s : State) (v : Word) : (s.acknowledge v).errInfo = s.errInfo := rfl
@[simp] theorem State.acknowledge_doneIe (s : State) (v : Word) : (s.acknowledge v).doneIe = s.doneIe := rfl
@[simp] theorem State.acknowledge_errIe (s : State) (v : Word) : (s.acknowledge v).errIe = s.errIe := rfl
@[simp] theorem State.acknowledge_symLen (s : State) (v : Word) : (s.acknowledge v).symLen = s.symLen := rfl
@[simp] theorem State.acknowledge_tokLen (s : State) (v : Word) : (s.acknowledge v).tokLen = s.tokLen := rfl
@[simp] theorem State.acknowledge_bitLen (s : State) (v : Word) : (s.acknowledge v).bitLen = s.bitLen := rfl
@[simp] theorem State.acknowledge_nodeCount (s : State) (v : Word) : (s.acknowledge v).nodeCount = s.nodeCount := rfl
@[simp] theorem State.acknowledge_root (s : State) (v : Word) : (s.acknowledge v).root = s.root := rfl
@[simp] theorem State.acknowledge_latch (s : State) (v : Word) : (s.acknowledge v).latch = s.latch := rfl
@[simp] theorem State.acknowledge_mem (s : State) (v : Word) : (s.acknowledge v).mem = s.mem := rfl
@[simp] theorem State.acknowledge_code (s : State) (v : Word) : (s.acknowledge v).code = s.code := rfl
@[simp] theorem State.acknowledge_dict (s : State) (v : Word) : (s.acknowledge v).dict = s.dict := rfl
@[simp] theorem State.acknowledge_draws (s : State) (v : Word) : (s.acknowledge v).draws = s.draws := rfl
@[simp] theorem State.acknowledge_inputs (s : State) (v : Word) : (s.acknowledge v).inputs = s.inputs := rfl
@[simp] theorem State.acknowledge_reads (s : State) (v : Word) : (s.acknowledge v).reads = s.reads := rfl

/-! ### The write of IRQ_ENABLE (10_state.md R27) -/

@[simp] theorem State.setIrqEnable_cfg (s : State) (v : Word) : (s.setIrqEnable v).cfg = s.cfg := rfl
@[simp] theorem State.setIrqEnable_busy (s : State) (v : Word) : (s.setIrqEnable v).busy = s.busy := rfl
@[simp] theorem State.setIrqEnable_done (s : State) (v : Word) : (s.setIrqEnable v).done = s.done := rfl
@[simp] theorem State.setIrqEnable_err (s : State) (v : Word) : (s.setIrqEnable v).err = s.err := rfl
@[simp] theorem State.setIrqEnable_errCode (s : State) (v : Word) : (s.setIrqEnable v).errCode = s.errCode := rfl
@[simp] theorem State.setIrqEnable_errStage (s : State) (v : Word) : (s.setIrqEnable v).errStage = s.errStage := rfl
@[simp] theorem State.setIrqEnable_errInfo (s : State) (v : Word) : (s.setIrqEnable v).errInfo = s.errInfo := rfl
@[simp] theorem State.setIrqEnable_doneIe (s : State) (v : Word) : (s.setIrqEnable v).doneIe = v.getLsbD 0 := rfl
@[simp] theorem State.setIrqEnable_errIe (s : State) (v : Word) : (s.setIrqEnable v).errIe = v.getLsbD 1 := rfl
@[simp] theorem State.setIrqEnable_symLen (s : State) (v : Word) : (s.setIrqEnable v).symLen = s.symLen := rfl
@[simp] theorem State.setIrqEnable_tokLen (s : State) (v : Word) : (s.setIrqEnable v).tokLen = s.tokLen := rfl
@[simp] theorem State.setIrqEnable_bitLen (s : State) (v : Word) : (s.setIrqEnable v).bitLen = s.bitLen := rfl
@[simp] theorem State.setIrqEnable_nodeCount (s : State) (v : Word) : (s.setIrqEnable v).nodeCount = s.nodeCount := rfl
@[simp] theorem State.setIrqEnable_root (s : State) (v : Word) : (s.setIrqEnable v).root = s.root := rfl
@[simp] theorem State.setIrqEnable_latch (s : State) (v : Word) : (s.setIrqEnable v).latch = s.latch := rfl
@[simp] theorem State.setIrqEnable_mem (s : State) (v : Word) : (s.setIrqEnable v).mem = s.mem := rfl
@[simp] theorem State.setIrqEnable_code (s : State) (v : Word) : (s.setIrqEnable v).code = s.code := rfl
@[simp] theorem State.setIrqEnable_dict (s : State) (v : Word) : (s.setIrqEnable v).dict = s.dict := rfl
@[simp] theorem State.setIrqEnable_draws (s : State) (v : Word) : (s.setIrqEnable v).draws = s.draws := rfl
@[simp] theorem State.setIrqEnable_inputs (s : State) (v : Word) : (s.setIrqEnable v).inputs = s.inputs := rfl
@[simp] theorem State.setIrqEnable_reads (s : State) (v : Word) : (s.setIrqEnable v).reads = s.reads := rfl

/-! ### Completion (43_control.md R263) -/

@[simp] theorem State.complete_cfg (s : State) (r : Report) : (s.complete r).cfg = s.cfg := rfl
@[simp] theorem State.complete_busy (s : State) (r : Report) : (s.complete r).busy = false := rfl
@[simp] theorem State.complete_done (s : State) (r : Report) : (s.complete r).done = true := rfl
@[simp] theorem State.complete_err (s : State) (r : Report) : (s.complete r).err = !decide (r.code = 0#8) := rfl
@[simp] theorem State.complete_errCode (s : State) (r : Report) : (s.complete r).errCode = r.code := rfl
@[simp] theorem State.complete_errStage (s : State) (r : Report) : (s.complete r).errStage = r.stage := rfl
@[simp] theorem State.complete_errInfo (s : State) (r : Report) : (s.complete r).errInfo = r.info := rfl
@[simp] theorem State.complete_doneIe (s : State) (r : Report) : (s.complete r).doneIe = s.doneIe := rfl
@[simp] theorem State.complete_errIe (s : State) (r : Report) : (s.complete r).errIe = s.errIe := rfl
@[simp] theorem State.complete_symLen (s : State) (r : Report) : (s.complete r).symLen = s.symLen := rfl
@[simp] theorem State.complete_tokLen (s : State) (r : Report) : (s.complete r).tokLen = s.tokLen := rfl
@[simp] theorem State.complete_bitLen (s : State) (r : Report) : (s.complete r).bitLen = s.bitLen := rfl
@[simp] theorem State.complete_nodeCount (s : State) (r : Report) : (s.complete r).nodeCount = s.nodeCount := rfl
@[simp] theorem State.complete_root (s : State) (r : Report) : (s.complete r).root = s.root := rfl
@[simp] theorem State.complete_latch (s : State) (r : Report) : (s.complete r).latch = s.latch := rfl
@[simp] theorem State.complete_mem (s : State) (r : Report) : (s.complete r).mem = s.mem := rfl
@[simp] theorem State.complete_code (s : State) (r : Report) : (s.complete r).code = s.code := rfl
@[simp] theorem State.complete_dict (s : State) (r : Report) : (s.complete r).dict = s.dict := rfl
@[simp] theorem State.complete_draws (s : State) (r : Report) : (s.complete r).draws = s.draws := rfl
@[simp] theorem State.complete_inputs (s : State) (r : Report) : (s.complete r).inputs = s.inputs := rfl
@[simp] theorem State.complete_reads (s : State) (r : Report) : (s.complete r).reads = s.reads := rfl

/-! ### A fresh draw of an output buffer (60_exceptions.md R306) -/

@[simp] theorem State.redraw_cfg (s : State) (b : BufId) : (s.redraw b).cfg = s.cfg := rfl
@[simp] theorem State.redraw_busy (s : State) (b : BufId) : (s.redraw b).busy = s.busy := rfl
@[simp] theorem State.redraw_done (s : State) (b : BufId) : (s.redraw b).done = s.done := rfl
@[simp] theorem State.redraw_err (s : State) (b : BufId) : (s.redraw b).err = s.err := rfl
@[simp] theorem State.redraw_errCode (s : State) (b : BufId) : (s.redraw b).errCode = s.errCode := rfl
@[simp] theorem State.redraw_errStage (s : State) (b : BufId) : (s.redraw b).errStage = s.errStage := rfl
@[simp] theorem State.redraw_errInfo (s : State) (b : BufId) : (s.redraw b).errInfo = s.errInfo := rfl
@[simp] theorem State.redraw_doneIe (s : State) (b : BufId) : (s.redraw b).doneIe = s.doneIe := rfl
@[simp] theorem State.redraw_errIe (s : State) (b : BufId) : (s.redraw b).errIe = s.errIe := rfl
@[simp] theorem State.redraw_symLen (s : State) (b : BufId) : (s.redraw b).symLen = s.symLen := rfl
@[simp] theorem State.redraw_tokLen (s : State) (b : BufId) : (s.redraw b).tokLen = s.tokLen := rfl
@[simp] theorem State.redraw_bitLen (s : State) (b : BufId) : (s.redraw b).bitLen = s.bitLen := rfl
@[simp] theorem State.redraw_nodeCount (s : State) (b : BufId) : (s.redraw b).nodeCount = s.nodeCount := rfl
@[simp] theorem State.redraw_root (s : State) (b : BufId) : (s.redraw b).root = s.root := rfl
@[simp] theorem State.redraw_latch (s : State) (b : BufId) : (s.redraw b).latch = s.latch := rfl
@[simp] theorem State.redraw_mem (s : State) (b : BufId) : (s.redraw b).mem = s.mem.redraw b s.draws := rfl
@[simp] theorem State.redraw_code (s : State) (b : BufId) : (s.redraw b).code = s.code := rfl
@[simp] theorem State.redraw_dict (s : State) (b : BufId) : (s.redraw b).dict = s.dict := rfl
@[simp] theorem State.redraw_draws (s : State) (b : BufId) : (s.redraw b).draws = s.draws + 1 := rfl
@[simp] theorem State.redraw_inputs (s : State) (b : BufId) : (s.redraw b).inputs = s.inputs := rfl
@[simp] theorem State.redraw_reads (s : State) (b : BufId) : (s.redraw b).reads = s.reads := rfl

/-! ### Reset (70_reset_and_hazards.md R340) -/

@[simp] theorem State.applyReset_cfg (s : State) : (s.applyReset).cfg = s.cfg := rfl
@[simp] theorem State.applyReset_busy (s : State) : (s.applyReset).busy = false := rfl
@[simp] theorem State.applyReset_done (s : State) : (s.applyReset).done = false := rfl
@[simp] theorem State.applyReset_err (s : State) : (s.applyReset).err = false := rfl
@[simp] theorem State.applyReset_errCode (s : State) : (s.applyReset).errCode = 0#8 := rfl
@[simp] theorem State.applyReset_errStage (s : State) : (s.applyReset).errStage = 0#8 := rfl
@[simp] theorem State.applyReset_errInfo (s : State) : (s.applyReset).errInfo = 0#32 := rfl
@[simp] theorem State.applyReset_doneIe (s : State) : (s.applyReset).doneIe = false := rfl
@[simp] theorem State.applyReset_errIe (s : State) : (s.applyReset).errIe = false := rfl
@[simp] theorem State.applyReset_symLen (s : State) : (s.applyReset).symLen = 0#32 := rfl
@[simp] theorem State.applyReset_tokLen (s : State) : (s.applyReset).tokLen = 0#32 := rfl
@[simp] theorem State.applyReset_bitLen (s : State) : (s.applyReset).bitLen = 0#32 := rfl
@[simp] theorem State.applyReset_nodeCount (s : State) : (s.applyReset).nodeCount = 0#32 := rfl
@[simp] theorem State.applyReset_root (s : State) : (s.applyReset).root = 0#32 := rfl
@[simp] theorem State.applyReset_latch (s : State) : (s.applyReset).latch = 0#32 := rfl
@[simp] theorem State.applyReset_mem (s : State) : (s.applyReset).mem = Memory.drawn s.draws := rfl
@[simp] theorem State.applyReset_code (s : State) : (s.applyReset).code = [] := rfl
@[simp] theorem State.applyReset_dict (s : State) : (s.applyReset).dict = [] := rfl
@[simp] theorem State.applyReset_draws (s : State) : (s.applyReset).draws = s.draws + 1 := rfl
@[simp] theorem State.applyReset_inputs (s : State) : (s.applyReset).inputs = s.inputs := rfl
@[simp] theorem State.applyReset_reads (s : State) : (s.applyReset).reads = s.reads := rfl

/-! ### LZW_ENC's failure rule (40_lzw.md R136) -/

@[simp] theorem lzwEncFail_cfg (s : State) : ((lzwEncFail s)).cfg = s.cfg := rfl
@[simp] theorem lzwEncFail_busy (s : State) : ((lzwEncFail s)).busy = s.busy := rfl
@[simp] theorem lzwEncFail_done (s : State) : ((lzwEncFail s)).done = s.done := rfl
@[simp] theorem lzwEncFail_err (s : State) : ((lzwEncFail s)).err = s.err := rfl
@[simp] theorem lzwEncFail_errCode (s : State) : ((lzwEncFail s)).errCode = s.errCode := rfl
@[simp] theorem lzwEncFail_errStage (s : State) : ((lzwEncFail s)).errStage = s.errStage := rfl
@[simp] theorem lzwEncFail_errInfo (s : State) : ((lzwEncFail s)).errInfo = s.errInfo := rfl
@[simp] theorem lzwEncFail_doneIe (s : State) : ((lzwEncFail s)).doneIe = s.doneIe := rfl
@[simp] theorem lzwEncFail_errIe (s : State) : ((lzwEncFail s)).errIe = s.errIe := rfl
@[simp] theorem lzwEncFail_symLen (s : State) : ((lzwEncFail s)).symLen = s.symLen := rfl
@[simp] theorem lzwEncFail_tokLen (s : State) : ((lzwEncFail s)).tokLen = 0#32 := rfl
@[simp] theorem lzwEncFail_bitLen (s : State) : ((lzwEncFail s)).bitLen = s.bitLen := rfl
@[simp] theorem lzwEncFail_nodeCount (s : State) : ((lzwEncFail s)).nodeCount = s.nodeCount := rfl
@[simp] theorem lzwEncFail_root (s : State) : ((lzwEncFail s)).root = s.root := rfl
@[simp] theorem lzwEncFail_latch (s : State) : ((lzwEncFail s)).latch = s.latch := rfl
@[simp] theorem lzwEncFail_mem (s : State) : ((lzwEncFail s)).mem = s.mem.redraw .tok s.draws := rfl
@[simp] theorem lzwEncFail_code (s : State) : ((lzwEncFail s)).code = s.code := rfl
@[simp] theorem lzwEncFail_dict (s : State) : ((lzwEncFail s)).dict = [] := rfl
@[simp] theorem lzwEncFail_draws (s : State) : ((lzwEncFail s)).draws = s.draws + 1 := rfl
@[simp] theorem lzwEncFail_inputs (s : State) : ((lzwEncFail s)).inputs = s.inputs := rfl
@[simp] theorem lzwEncFail_reads (s : State) : ((lzwEncFail s)).reads = s.reads := rfl

/-! ### LZW_DEC's failure rule (40_lzw.md R144) -/

@[simp] theorem lzwDecFail_cfg (s : State) : ((lzwDecFail s)).cfg = s.cfg := rfl
@[simp] theorem lzwDecFail_busy (s : State) : ((lzwDecFail s)).busy = s.busy := rfl
@[simp] theorem lzwDecFail_done (s : State) : ((lzwDecFail s)).done = s.done := rfl
@[simp] theorem lzwDecFail_err (s : State) : ((lzwDecFail s)).err = s.err := rfl
@[simp] theorem lzwDecFail_errCode (s : State) : ((lzwDecFail s)).errCode = s.errCode := rfl
@[simp] theorem lzwDecFail_errStage (s : State) : ((lzwDecFail s)).errStage = s.errStage := rfl
@[simp] theorem lzwDecFail_errInfo (s : State) : ((lzwDecFail s)).errInfo = s.errInfo := rfl
@[simp] theorem lzwDecFail_doneIe (s : State) : ((lzwDecFail s)).doneIe = s.doneIe := rfl
@[simp] theorem lzwDecFail_errIe (s : State) : ((lzwDecFail s)).errIe = s.errIe := rfl
@[simp] theorem lzwDecFail_symLen (s : State) : ((lzwDecFail s)).symLen = 0#32 := rfl
@[simp] theorem lzwDecFail_tokLen (s : State) : ((lzwDecFail s)).tokLen = s.tokLen := rfl
@[simp] theorem lzwDecFail_bitLen (s : State) : ((lzwDecFail s)).bitLen = s.bitLen := rfl
@[simp] theorem lzwDecFail_nodeCount (s : State) : ((lzwDecFail s)).nodeCount = s.nodeCount := rfl
@[simp] theorem lzwDecFail_root (s : State) : ((lzwDecFail s)).root = s.root := rfl
@[simp] theorem lzwDecFail_latch (s : State) : ((lzwDecFail s)).latch = s.latch := rfl
@[simp] theorem lzwDecFail_mem (s : State) : ((lzwDecFail s)).mem = s.mem.redraw .sym s.draws := rfl
@[simp] theorem lzwDecFail_code (s : State) : ((lzwDecFail s)).code = s.code := rfl
@[simp] theorem lzwDecFail_dict (s : State) : ((lzwDecFail s)).dict = [] := rfl
@[simp] theorem lzwDecFail_draws (s : State) : ((lzwDecFail s)).draws = s.draws + 1 := rfl
@[simp] theorem lzwDecFail_inputs (s : State) : ((lzwDecFail s)).inputs = s.inputs := rfl
@[simp] theorem lzwDecFail_reads (s : State) : ((lzwDecFail s)).reads = s.reads := rfl

/-! ### FREQ_COUNT's failure rule (41_huffman.md R173) -/

@[simp] theorem freqCountFail_cfg (s : State) : ((freqCountFail s)).cfg = s.cfg := rfl
@[simp] theorem freqCountFail_busy (s : State) : ((freqCountFail s)).busy = s.busy := rfl
@[simp] theorem freqCountFail_done (s : State) : ((freqCountFail s)).done = s.done := rfl
@[simp] theorem freqCountFail_err (s : State) : ((freqCountFail s)).err = s.err := rfl
@[simp] theorem freqCountFail_errCode (s : State) : ((freqCountFail s)).errCode = s.errCode := rfl
@[simp] theorem freqCountFail_errStage (s : State) : ((freqCountFail s)).errStage = s.errStage := rfl
@[simp] theorem freqCountFail_errInfo (s : State) : ((freqCountFail s)).errInfo = s.errInfo := rfl
@[simp] theorem freqCountFail_doneIe (s : State) : ((freqCountFail s)).doneIe = s.doneIe := rfl
@[simp] theorem freqCountFail_errIe (s : State) : ((freqCountFail s)).errIe = s.errIe := rfl
@[simp] theorem freqCountFail_symLen (s : State) : ((freqCountFail s)).symLen = s.symLen := rfl
@[simp] theorem freqCountFail_tokLen (s : State) : ((freqCountFail s)).tokLen = s.tokLen := rfl
@[simp] theorem freqCountFail_bitLen (s : State) : ((freqCountFail s)).bitLen = s.bitLen := rfl
@[simp] theorem freqCountFail_nodeCount (s : State) : ((freqCountFail s)).nodeCount = s.nodeCount := rfl
@[simp] theorem freqCountFail_root (s : State) : ((freqCountFail s)).root = s.root := rfl
@[simp] theorem freqCountFail_latch (s : State) : ((freqCountFail s)).latch = s.latch := rfl
@[simp] theorem freqCountFail_mem (s : State) : ((freqCountFail s)).mem = s.mem.clear .freq := rfl
@[simp] theorem freqCountFail_code (s : State) : ((freqCountFail s)).code = s.code := rfl
@[simp] theorem freqCountFail_dict (s : State) : ((freqCountFail s)).dict = s.dict := rfl
@[simp] theorem freqCountFail_draws (s : State) : ((freqCountFail s)).draws = s.draws := rfl
@[simp] theorem freqCountFail_inputs (s : State) : ((freqCountFail s)).inputs = s.inputs := rfl
@[simp] theorem freqCountFail_reads (s : State) : ((freqCountFail s)).reads = s.reads := rfl

/-! ### HUFF_BUILD's failure rule (41_huffman.md R183) -/

@[simp] theorem huffBuildFail_cfg (s : State) : ((huffBuildFail s)).cfg = s.cfg := rfl
@[simp] theorem huffBuildFail_busy (s : State) : ((huffBuildFail s)).busy = s.busy := rfl
@[simp] theorem huffBuildFail_done (s : State) : ((huffBuildFail s)).done = s.done := rfl
@[simp] theorem huffBuildFail_err (s : State) : ((huffBuildFail s)).err = s.err := rfl
@[simp] theorem huffBuildFail_errCode (s : State) : ((huffBuildFail s)).errCode = s.errCode := rfl
@[simp] theorem huffBuildFail_errStage (s : State) : ((huffBuildFail s)).errStage = s.errStage := rfl
@[simp] theorem huffBuildFail_errInfo (s : State) : ((huffBuildFail s)).errInfo = s.errInfo := rfl
@[simp] theorem huffBuildFail_doneIe (s : State) : ((huffBuildFail s)).doneIe = s.doneIe := rfl
@[simp] theorem huffBuildFail_errIe (s : State) : ((huffBuildFail s)).errIe = s.errIe := rfl
@[simp] theorem huffBuildFail_symLen (s : State) : ((huffBuildFail s)).symLen = s.symLen := rfl
@[simp] theorem huffBuildFail_tokLen (s : State) : ((huffBuildFail s)).tokLen = s.tokLen := rfl
@[simp] theorem huffBuildFail_bitLen (s : State) : ((huffBuildFail s)).bitLen = s.bitLen := rfl
@[simp] theorem huffBuildFail_nodeCount (s : State) : ((huffBuildFail s)).nodeCount = 0#32 := rfl
@[simp] theorem huffBuildFail_root (s : State) : ((huffBuildFail s)).root = 0#32 := rfl
@[simp] theorem huffBuildFail_latch (s : State) : ((huffBuildFail s)).latch = s.latch := rfl
@[simp] theorem huffBuildFail_mem (s : State) : ((huffBuildFail s)).mem = s.mem.redraw .node s.draws := rfl
@[simp] theorem huffBuildFail_code (s : State) : ((huffBuildFail s)).code = s.code := rfl
@[simp] theorem huffBuildFail_dict (s : State) : ((huffBuildFail s)).dict = s.dict := rfl
@[simp] theorem huffBuildFail_draws (s : State) : ((huffBuildFail s)).draws = s.draws + 1 := rfl
@[simp] theorem huffBuildFail_inputs (s : State) : ((huffBuildFail s)).inputs = s.inputs := rfl
@[simp] theorem huffBuildFail_reads (s : State) : ((huffBuildFail s)).reads = s.reads := rfl

/-! ### HUFF_CODES's failure rule (41_huffman.md R197) -/

@[simp] theorem huffCodesFail_cfg (s : State) : ((huffCodesFail s)).cfg = s.cfg := rfl
@[simp] theorem huffCodesFail_busy (s : State) : ((huffCodesFail s)).busy = s.busy := rfl
@[simp] theorem huffCodesFail_done (s : State) : ((huffCodesFail s)).done = s.done := rfl
@[simp] theorem huffCodesFail_err (s : State) : ((huffCodesFail s)).err = s.err := rfl
@[simp] theorem huffCodesFail_errCode (s : State) : ((huffCodesFail s)).errCode = s.errCode := rfl
@[simp] theorem huffCodesFail_errStage (s : State) : ((huffCodesFail s)).errStage = s.errStage := rfl
@[simp] theorem huffCodesFail_errInfo (s : State) : ((huffCodesFail s)).errInfo = s.errInfo := rfl
@[simp] theorem huffCodesFail_doneIe (s : State) : ((huffCodesFail s)).doneIe = s.doneIe := rfl
@[simp] theorem huffCodesFail_errIe (s : State) : ((huffCodesFail s)).errIe = s.errIe := rfl
@[simp] theorem huffCodesFail_symLen (s : State) : ((huffCodesFail s)).symLen = s.symLen := rfl
@[simp] theorem huffCodesFail_tokLen (s : State) : ((huffCodesFail s)).tokLen = s.tokLen := rfl
@[simp] theorem huffCodesFail_bitLen (s : State) : ((huffCodesFail s)).bitLen = s.bitLen := rfl
@[simp] theorem huffCodesFail_nodeCount (s : State) : ((huffCodesFail s)).nodeCount = s.nodeCount := rfl
@[simp] theorem huffCodesFail_root (s : State) : ((huffCodesFail s)).root = s.root := rfl
@[simp] theorem huffCodesFail_latch (s : State) : ((huffCodesFail s)).latch = s.latch := rfl
@[simp] theorem huffCodesFail_mem (s : State) : ((huffCodesFail s)).mem = s.mem := rfl
@[simp] theorem huffCodesFail_code (s : State) : ((huffCodesFail s)).code = [] := rfl
@[simp] theorem huffCodesFail_dict (s : State) : ((huffCodesFail s)).dict = s.dict := rfl
@[simp] theorem huffCodesFail_draws (s : State) : ((huffCodesFail s)).draws = s.draws := rfl
@[simp] theorem huffCodesFail_inputs (s : State) : ((huffCodesFail s)).inputs = s.inputs := rfl
@[simp] theorem huffCodesFail_reads (s : State) : ((huffCodesFail s)).reads = s.reads := rfl

/-! ### ENT_ENC's failure rule (42_entropy.md R224) -/

@[simp] theorem entEncFail_cfg (s : State) : ((entEncFail s)).cfg = s.cfg := rfl
@[simp] theorem entEncFail_busy (s : State) : ((entEncFail s)).busy = s.busy := rfl
@[simp] theorem entEncFail_done (s : State) : ((entEncFail s)).done = s.done := rfl
@[simp] theorem entEncFail_err (s : State) : ((entEncFail s)).err = s.err := rfl
@[simp] theorem entEncFail_errCode (s : State) : ((entEncFail s)).errCode = s.errCode := rfl
@[simp] theorem entEncFail_errStage (s : State) : ((entEncFail s)).errStage = s.errStage := rfl
@[simp] theorem entEncFail_errInfo (s : State) : ((entEncFail s)).errInfo = s.errInfo := rfl
@[simp] theorem entEncFail_doneIe (s : State) : ((entEncFail s)).doneIe = s.doneIe := rfl
@[simp] theorem entEncFail_errIe (s : State) : ((entEncFail s)).errIe = s.errIe := rfl
@[simp] theorem entEncFail_symLen (s : State) : ((entEncFail s)).symLen = s.symLen := rfl
@[simp] theorem entEncFail_tokLen (s : State) : ((entEncFail s)).tokLen = s.tokLen := rfl
@[simp] theorem entEncFail_bitLen (s : State) : ((entEncFail s)).bitLen = 0#32 := rfl
@[simp] theorem entEncFail_nodeCount (s : State) : ((entEncFail s)).nodeCount = s.nodeCount := rfl
@[simp] theorem entEncFail_root (s : State) : ((entEncFail s)).root = s.root := rfl
@[simp] theorem entEncFail_latch (s : State) : ((entEncFail s)).latch = s.latch := rfl
@[simp] theorem entEncFail_mem (s : State) : ((entEncFail s)).mem = s.mem.redraw .bits s.draws := rfl
@[simp] theorem entEncFail_code (s : State) : ((entEncFail s)).code = s.code := rfl
@[simp] theorem entEncFail_dict (s : State) : ((entEncFail s)).dict = s.dict := rfl
@[simp] theorem entEncFail_draws (s : State) : ((entEncFail s)).draws = s.draws + 1 := rfl
@[simp] theorem entEncFail_inputs (s : State) : ((entEncFail s)).inputs = s.inputs := rfl
@[simp] theorem entEncFail_reads (s : State) : ((entEncFail s)).reads = s.reads := rfl

/-! ### ENT_DEC's failure rule (42_entropy.md R233) -/

@[simp] theorem entDecFail_cfg (s : State) : ((entDecFail s)).cfg = s.cfg := rfl
@[simp] theorem entDecFail_busy (s : State) : ((entDecFail s)).busy = s.busy := rfl
@[simp] theorem entDecFail_done (s : State) : ((entDecFail s)).done = s.done := rfl
@[simp] theorem entDecFail_err (s : State) : ((entDecFail s)).err = s.err := rfl
@[simp] theorem entDecFail_errCode (s : State) : ((entDecFail s)).errCode = s.errCode := rfl
@[simp] theorem entDecFail_errStage (s : State) : ((entDecFail s)).errStage = s.errStage := rfl
@[simp] theorem entDecFail_errInfo (s : State) : ((entDecFail s)).errInfo = s.errInfo := rfl
@[simp] theorem entDecFail_doneIe (s : State) : ((entDecFail s)).doneIe = s.doneIe := rfl
@[simp] theorem entDecFail_errIe (s : State) : ((entDecFail s)).errIe = s.errIe := rfl
@[simp] theorem entDecFail_symLen (s : State) : ((entDecFail s)).symLen = s.symLen := rfl
@[simp] theorem entDecFail_tokLen (s : State) : ((entDecFail s)).tokLen = 0#32 := rfl
@[simp] theorem entDecFail_bitLen (s : State) : ((entDecFail s)).bitLen = s.bitLen := rfl
@[simp] theorem entDecFail_nodeCount (s : State) : ((entDecFail s)).nodeCount = s.nodeCount := rfl
@[simp] theorem entDecFail_root (s : State) : ((entDecFail s)).root = s.root := rfl
@[simp] theorem entDecFail_latch (s : State) : ((entDecFail s)).latch = s.latch := rfl
@[simp] theorem entDecFail_mem (s : State) : ((entDecFail s)).mem = s.mem.redraw .tok s.draws := rfl
@[simp] theorem entDecFail_code (s : State) : ((entDecFail s)).code = s.code := rfl
@[simp] theorem entDecFail_dict (s : State) : ((entDecFail s)).dict = s.dict := rfl
@[simp] theorem entDecFail_draws (s : State) : ((entDecFail s)).draws = s.draws + 1 := rfl
@[simp] theorem entDecFail_inputs (s : State) : ((entDecFail s)).inputs = s.inputs := rfl
@[simp] theorem entDecFail_reads (s : State) : ((entDecFail s)).reads = s.reads := rfl

/-! ### CLEAR (43_control.md R270) -/

@[simp] theorem clearAll_cfg (s : State) : ((clearAll s)).cfg = s.cfg := rfl
@[simp] theorem clearAll_busy (s : State) : ((clearAll s)).busy = s.busy := rfl
@[simp] theorem clearAll_done (s : State) : ((clearAll s)).done = s.done := rfl
@[simp] theorem clearAll_err (s : State) : ((clearAll s)).err = s.err := rfl
@[simp] theorem clearAll_errCode (s : State) : ((clearAll s)).errCode = s.errCode := rfl
@[simp] theorem clearAll_errStage (s : State) : ((clearAll s)).errStage = s.errStage := rfl
@[simp] theorem clearAll_errInfo (s : State) : ((clearAll s)).errInfo = s.errInfo := rfl
@[simp] theorem clearAll_doneIe (s : State) : ((clearAll s)).doneIe = s.doneIe := rfl
@[simp] theorem clearAll_errIe (s : State) : ((clearAll s)).errIe = s.errIe := rfl
@[simp] theorem clearAll_symLen (s : State) : ((clearAll s)).symLen = 0#32 := rfl
@[simp] theorem clearAll_tokLen (s : State) : ((clearAll s)).tokLen = 0#32 := rfl
@[simp] theorem clearAll_bitLen (s : State) : ((clearAll s)).bitLen = 0#32 := rfl
@[simp] theorem clearAll_nodeCount (s : State) : ((clearAll s)).nodeCount = 0#32 := rfl
@[simp] theorem clearAll_root (s : State) : ((clearAll s)).root = 0#32 := rfl
@[simp] theorem clearAll_latch (s : State) : ((clearAll s)).latch = s.latch := rfl
@[simp] theorem clearAll_mem (s : State) : ((clearAll s)).mem = Memory.zeros := rfl
@[simp] theorem clearAll_code (s : State) : ((clearAll s)).code = [] := rfl
@[simp] theorem clearAll_dict (s : State) : ((clearAll s)).dict = [] := rfl
@[simp] theorem clearAll_draws (s : State) : ((clearAll s)).draws = s.draws := rfl
@[simp] theorem clearAll_inputs (s : State) : ((clearAll s)).inputs = s.inputs := rfl
@[simp] theorem clearAll_reads (s : State) : ((clearAll s)).reads = s.reads := rfl

end Sys2Proof.Machine
end

