-- ==== Sys2Proof/Laws/Commands.lean ====
section
/-! SUPPORT. What each stage can do, said once: the inversion of every stage, the bounds of what the passes compute, and the
least member of a merge multiset. -/

namespace Sys2Proof.Machine

/-! ### Commands -/

/-- The outcome whose completion a command's step is. -/
def commandOutcome : Instr → State → StageOutcome
  | .lzwEnc, s => lzwEncStage s
  | .lzwDec, s => lzwDecStage s
  | .freqCount, s => freqCountStage s
  | .huffBuild, s => huffBuildStage s
  | .huffCodes, s => huffCodesStage s
  | .entEnc, s => entEncStage s
  | .entDec, s => entDecStage s
  | .compress, s => compressStages s
  | .decompress, s => decompressStages s
  | .clear, s => .ok (clearAll s)

/-- Every command's step is the completion of its outcome (43_control.md R262 to R264). -/
theorem exec_eq (i : Instr) (s : State) : exec i s = .next (commandOutcome i s).finish := by cases i <;> rfl

theorem finish_ok (t : State) : (StageOutcome.ok t).finish = t.complete Report.ok := rfl

theorem finish_failed (t : State) (st : Instr) (e : ErrorKind) :
    (StageOutcome.failed t st e).finish = t.complete (Report.failure st.opcode e) := rfl

/-- No error has code 0, and a command's errors have codes up to 9 (60_exceptions.md R300). -/
theorem ErrorKind.code_range (e : ErrorKind) : e.code ≠ 0#8 ∧ e.code.toNat ≤ 9 := by
  cases e <;> simp [ErrorKind.code]

/-! ### Inversions -/

theorem lzwEncStage_cases (s : State) :
    (∃ ts d, s.symLen.toNat ≤ s.cfg.symCap ∧ lzwEncPass s.cfg (s.mem.symbols s.symLen.toNat) = .ok (ts, d)
      ∧ lzwEncStage s = .ok { s with mem := s.mem.putTokens ts, tokLen := BitVec.ofNat 32 ts.length, dict := d })
    ∨ ∃ e, lzwEncStage s = .failed (lzwEncFail s) .lzwEnc e
      ∧ ((s.cfg.symCap < s.symLen.toNat ∧ e = .capacity .sym)
        ∨ (s.symLen.toNat ≤ s.cfg.symCap ∧ lzwEncPass s.cfg (s.mem.symbols s.symLen.toNat) = .error e)) := by
  unfold lzwEncStage
  split
  · exact .inr ⟨_, rfl, .inl ⟨‹_›, rfl⟩⟩
  · split
    · exact .inr ⟨_, rfl, .inr ⟨by omega, ‹_›⟩⟩
    · exact .inl ⟨_, _, by omega, ‹_›, rfl⟩

theorem lzwDecStage_cases (s : State) :
    (∃ out d, s.tokLen.toNat ≤ s.cfg.tokCap ∧ lzwDecPass s.cfg (s.mem.tokens s.tokLen.toNat) = .ok (out, d)
      ∧ lzwDecStage s = .ok { s with mem := s.mem.putSymbols out, symLen := BitVec.ofNat 32 out.length, dict := d })
    ∨ ∃ e, lzwDecStage s = .failed (lzwDecFail s) .lzwDec e
      ∧ ((s.cfg.tokCap < s.tokLen.toNat ∧ e = .capacity .tok)
        ∨ (s.tokLen.toNat ≤ s.cfg.tokCap ∧ lzwDecPass s.cfg (s.mem.tokens s.tokLen.toNat) = .error e)) := by
  unfold lzwDecStage
  split
  · exact .inr ⟨_, rfl, .inl ⟨‹_›, rfl⟩⟩
  · split
    · exact .inr ⟨_, rfl, .inr ⟨by omega, ‹_›⟩⟩
    · exact .inl ⟨_, _, by omega, ‹_›, rfl⟩

theorem freqCountStage_cases (s : State) :
    (∃ m, s.tokLen.toNat ≤ s.cfg.tokCap
      ∧ freqCountFrom s.cfg (s.mem.tokens s.tokLen.toNat) (s.mem.clear .freq) = .ok m
      ∧ freqCountStage s = .ok { s with mem := m })
    ∨ ∃ e, freqCountStage s = .failed (freqCountFail s) .freqCount e
      ∧ ((s.cfg.tokCap < s.tokLen.toNat ∧ e = .capacity .tok)
        ∨ (s.tokLen.toNat ≤ s.cfg.tokCap
          ∧ freqCountFrom s.cfg (s.mem.tokens s.tokLen.toNat) (s.mem.clear .freq) = .error e)) := by
  unfold freqCountStage
  split
  · exact .inr ⟨_, rfl, .inl ⟨‹_›, rfl⟩⟩
  · split
    · exact .inr ⟨_, rfl, .inr ⟨by omega, ‹_›⟩⟩
    · exact .inl ⟨_, by omega, ‹_›, rfl⟩

theorem huffBuildStage_cases (s : State) :
    (∃ nds, huffTree (huffLeaves s.cfg s.mem) = .ok nds
      ∧ huffBuildStage s = .ok { s with mem := s.mem.putNodes 0 nds, nodeCount := BitVec.ofNat 32 nds.length,
                                        root := BitVec.ofNat 32 (nds.length - 1) })
    ∨ ∃ e, huffTree (huffLeaves s.cfg s.mem) = .error e
      ∧ huffBuildStage s = .failed (huffBuildFail s) .huffBuild e := by
  unfold huffBuildStage
  split
  · exact .inr ⟨_, ‹_›, rfl⟩
  · exact .inl ⟨_, ‹_›, rfl⟩

theorem huffCodesStage_cases (s : State) :
    (wellFormedTree s = true
      ∧ (∀ p ∈ treeCodes s.heldNodes s.nodeCount.toNat s.root.toNat, p.2.length ≤ s.cfg.codeMaxLen)
      ∧ huffCodesStage s
          = .ok { s with code := codeTable (treeCodes s.heldNodes s.nodeCount.toNat s.root.toNat) })
    ∨ (wellFormedTree s = true
      ∧ (∃ p ∈ treeCodes s.heldNodes s.nodeCount.toNat s.root.toNat, s.cfg.codeMaxLen < p.2.length)
      ∧ huffCodesStage s = .failed (huffCodesFail s) .huffCodes (.capacity .codeLen))
    ∨ (wellFormedTree s = false ∧ huffCodesStage s = .failed (huffCodesFail s) .huffCodes .badTree) := by
  cases hw : wellFormedTree s with
  | false => exact .inr (.inr ⟨rfl, by simp [huffCodesStage, hw]⟩)
  | true =>
    by_cases hl : ∀ p ∈ treeCodes s.heldNodes s.nodeCount.toNat s.root.toNat, p.2.length ≤ s.cfg.codeMaxLen
    · refine .inl ⟨rfl, hl, ?_⟩
      have : ((treeCodes s.heldNodes s.nodeCount.toNat s.root.toNat).all
          fun p => decide (p.2.length ≤ s.cfg.codeMaxLen)) = true := by simpa using hl
      simp only [huffCodesStage, hw, if_true, this]
    · refine .inr (.inl ⟨rfl, by simpa using hl, ?_⟩)
      have : ((treeCodes s.heldNodes s.nodeCount.toNat s.root.toNat).all
          fun p => decide (p.2.length ≤ s.cfg.codeMaxLen)) = false := by simpa using hl
      simp [huffCodesStage, hw, this]

theorem entEncStage_cases (s : State) :
    (∃ bs, s.tokLen.toNat ≤ s.cfg.tokCap ∧ entEncFrom s.cfg s.code (s.mem.tokens s.tokLen.toNat) 0 0 = .ok bs
      ∧ entEncStage s = .ok { s with mem := s.mem.putStream bs, bitLen := BitVec.ofNat 32 bs.length })
    ∨ ∃ e, entEncStage s = .failed (entEncFail s) .entEnc e
      ∧ ((s.cfg.tokCap < s.tokLen.toNat ∧ e = .capacity .tok)
        ∨ (s.tokLen.toNat ≤ s.cfg.tokCap
          ∧ entEncFrom s.cfg s.code (s.mem.tokens s.tokLen.toNat) 0 0 = .error e)) := by
  unfold entEncStage
  split
  · exact .inr ⟨_, rfl, .inl ⟨‹_›, rfl⟩⟩
  · split
    · exact .inr ⟨_, rfl, .inr ⟨by omega, ‹_›⟩⟩
    · exact .inl ⟨_, by omega, ‹_›, rfl⟩

theorem entDecStage_cases (s : State) :
    (∃ ts, s.bitLen.toNat ≤ s.cfg.bitCap ∧ wellFormedTree s = true
      ∧ entDecPass s.cfg s.heldNodes s.root.toNat (s.mem.stream s.bitLen.toNat) = .ok ts
      ∧ entDecStage s = .ok { s with mem := s.mem.putTokens ts, tokLen := BitVec.ofNat 32 ts.length })
    ∨ ∃ e, entDecStage s = .failed (entDecFail s) .entDec e
      ∧ ((s.cfg.bitCap < s.bitLen.toNat ∧ e = .capacity .bits)
        ∨ (s.bitLen.toNat ≤ s.cfg.bitCap ∧ wellFormedTree s = false ∧ e = .badTree)
        ∨ (s.bitLen.toNat ≤ s.cfg.bitCap ∧ wellFormedTree s = true
          ∧ entDecPass s.cfg s.heldNodes s.root.toNat (s.mem.stream s.bitLen.toNat) = .error e)) := by
  unfold entDecStage
  split
  · exact .inr ⟨_, rfl, .inl ⟨‹_›, rfl⟩⟩
  · split
    · split
      · exact .inr ⟨_, rfl, .inr (.inr ⟨by omega, ‹_›, ‹_›⟩)⟩
      · exact .inl ⟨_, by omega, ‹_›, ‹_›, rfl⟩
    · exact .inr ⟨_, rfl, .inr (.inl ⟨by omega, by simpa using ‹¬ wellFormedTree s = true›, rfl⟩)⟩

/-! ### Bounds of what the passes compute -/

/-- An encoding pass emits at most TOK_CAP tokens in all. -/
theorem lzwEncFrom_length {c : Config} {xs : List Byte} {w n : Nat} {d d' : List DictEntry} {ts : List Nat}
    (h : lzwEncFrom c xs w n d = .ok (ts, d')) : n + ts.length ≤ c.tokCap := by
  induction xs generalizing w n d ts with
  | nil =>
    simp only [lzwEncFrom] at h
    split at h
    · cases h
    · cases h; simp; omega
  | cons x xs ih =>
    simp only [lzwEncFrom] at h
    split at h
    · exact ih h
    · split at h
      · cases h
      · split at h
        · cases h
        · split at h
          · cases h
          · next hr => cases h; have := ih hr; simp only [List.length_cons]; omega

/-- A decoding pass writes at most SYM_CAP symbols in all. -/
theorem lzwDecFrom_length {c : Config} {ks : List Nat} {i prev n : Nat} {d d' : List DictEntry} {out : List Byte}
    (hn : n ≤ c.symCap) (h : lzwDecFrom c ks i prev n d = .ok (out, d')) : n + out.length ≤ c.symCap := by
  induction ks generalizing i prev n d out with
  | nil => cases h; simpa using hn
  | cons k ks ih =>
    simp only [lzwDecFrom] at h
    split at h
    · cases h
    · split at h
      · cases h
      · split at h
        · cases h
        · split at h
          · cases h
          · next hr => cases h; have := ih (by omega) hr; simp only [List.length_append]; omega

/-- An encoded stream has at most BIT_CAP bits in all. -/
theorem entEncFrom_length {c : Config} {code : List (Nat × CodeEntry)} {ks : List Nat} {i pos : Nat} {bs : List Bool}
    (hp : pos ≤ c.bitCap) (h : entEncFrom c code ks i pos = .ok bs) : pos + bs.length ≤ c.bitCap := by
  induction ks generalizing i pos bs with
  | nil => cases h; simpa using hp
  | cons k ks ih =>
    simp only [entEncFrom] at h
    split at h
    · cases h
    · split at h
      · cases h
      · split at h
        · cases h
        · next hr =>
          cases h
          have := ih (by omega) hr
          simp only [List.length_append, CodeEntry.length_toBits]
          omega

theorem entDecSingle_length {c : Config} {t : Nat} {bs : List Bool} {p n : Nat} {ts : List Nat} (hn : n ≤ c.tokCap)
    (h : entDecSingle c t bs p n = .ok ts) : n + ts.length ≤ c.tokCap := by
  induction bs generalizing p n ts with
  | nil => cases h; simpa using hn
  | cons b bs ih =>
    simp only [entDecSingle] at h
    split at h
    · cases h
    · split at h
      · cases h
      · split at h
        · cases h
        · next hr => cases h; have := ih (by omega) hr; simp only [List.length_cons]; omega

theorem entDecWalk_length {c : Config} {nds : List Node} {rt : Nat} {bs : List Bool} {p cur start n : Nat} {ts : List Nat}
    (hn : n ≤ c.tokCap) (h : entDecWalk c nds rt bs p cur start n = .ok ts) : n + ts.length ≤ c.tokCap := by
  induction bs generalizing p cur start n ts with
  | nil =>
    simp only [entDecWalk] at h
    split at h
    · cases h; simpa using hn
    · cases h
  | cons b bs ih =>
    simp only [entDecWalk] at h
    split at h
    · split at h
      · cases h
      · split at h
        · cases h
        · next hr => cases h; have := ih (by omega) hr; simp only [List.length_cons]; omega
    · exact ih hn h
    · exact ih hn h

/-! ### The least member -/

theorem takeLeast_eq_none {q : List MergeItem} : takeLeast q = none ↔ q = [] := by
  cases q with
  | nil => simp [takeLeast]
  | cons x xs =>
    simp only [takeLeast, List.cons_ne_nil, iff_false]
    split
    · simp
    · split <;> simp

theorem takeLeast_perm {q rest : List MergeItem} {x : MergeItem} (h : takeLeast q = some (x, rest)) :
    (x :: rest).Perm q := by
  induction q generalizing x rest with
  | nil => cases h
  | cons y ys ih =>
    simp only [takeLeast] at h
    split at h
    · next hn => cases h; rw [takeLeast_eq_none.1 hn]
    · next z zs hz =>
      split at h
      · cases h; exact List.Perm.refl _
      · obtain ⟨rfl, rfl⟩ : z = x ∧ y :: zs = rest := by simpa using h
        exact (List.Perm.swap ..).trans ((ih hz).cons _)

theorem MergeItem.before_asymm {x y : MergeItem} (h : x.before y = true) : y.before x = false := by
  simp only [MergeItem.before, decide_eq_true_eq, decide_eq_false_iff_not] at *
  omega

theorem MergeItem.before_trans {x y z : MergeItem} (h : x.before y = true) (h' : y.before z = true) :
    x.before z = true := by
  simp only [MergeItem.before, decide_eq_true_eq] at *
  omega

/-- No member left has a smaller key than the one taken (41_huffman.md R177, R180). -/
theorem takeLeast_least {q rest : List MergeItem} {x : MergeItem} (h : takeLeast q = some (x, rest)) :
    ∀ y ∈ rest, y.before x = false := by
  induction q generalizing x rest with
  | nil => cases h
  | cons y ys ih =>
    simp only [takeLeast] at h
    split at h
    · cases h; simp
    · next z zs hz =>
      have hl := ih hz
      split at h
      · next hb =>
        cases h
        intro w hw
        rcases List.mem_cons.1 ((takeLeast_perm hz).mem_iff.2 hw) with rfl | hw'
        · exact MergeItem.before_asymm hb
        · by_contra hc
          have h2 := MergeItem.before_trans (by simpa using hc) hb
          rw [hl w hw'] at h2
          cases h2
      · next hb =>
        cases h
        intro w hw
        rcases List.mem_cons.1 hw with rfl | hw'
        · simpa using hb
        · exact hl w hw'

end Sys2Proof.Machine
end

