-- ==== Sys2Proof/Laws/PerInstr.lean ====
section
/-! SUPPORT. Facts made for each command of the syntax. -/

namespace Sys2Proof.Laws.Encoding

/-- The encoding of a command has its opcode in bits 7:0 and 0 in RSVD, so it is a legal command word (30_encoding.md R100, R102). -/
def Statement (i : Instr) : Prop :=
  i.wellFormed = true ∧ opcodeField (encode i) = i.opcode ∧ reservedField (encode i) = 0#24
    ∧ legalCommandWord (encode i) = true

theorem lzwEnc : Statement .lzwEnc := by unfold Statement; decide
theorem lzwDec : Statement .lzwDec := by unfold Statement; decide
theorem freqCount : Statement .freqCount := by unfold Statement; decide
theorem huffBuild : Statement .huffBuild := by unfold Statement; decide
theorem huffCodes : Statement .huffCodes := by unfold Statement; decide
theorem entEnc : Statement .entEnc := by unfold Statement; decide
theorem entDec : Statement .entDec := by unfold Statement; decide
theorem compress : Statement .compress := by unfold Statement; decide
theorem decompress : Statement .decompress := by unfold Statement; decide
theorem clear : Statement .clear := by unfold Statement; decide

end Sys2Proof.Laws.Encoding
end

