-- ==== Sys2Proof/Laws/Step.lean ====
section
/-! SUPPORT. What a step can do, said once: a performed access, a held one, the engine's turn, a reset; and what running commands in
order does at its first command. -/

namespace Sys2Proof.Machine

open Sys2Proof.Reference

/-! ### Host accesses -/

theorem Access.proper.offset {c : Config} {a : Access} (h : a.proper c) : a.offset? c = some (a.addr - c.base) :=
  if_pos ⟨h.1, h.2.1⟩

theorem Access.proper.wellFormed {c : Config} {a : Access} (h : a.proper c) :
    wellFormedAccess (a.addr - c.base) a.width = true := by
  obtain ⟨h1, h2, h3, h4⟩ := h
  simp only [wellFormedAccess, Bool.and_eq_true, decide_eq_true_eq]
  omega

/-- No data window is unheld. -/
theorem bufferLocation_unheld (c : Config) (b : BufId) (i : Nat) : (bufferLocation c b i).unheld = false := by
  unfold bufferLocation; split <;> rfl

/-- The unheld locations are those of the unheld offsets (20_memory.md R80). -/
theorem locate_unheld {c : Config} {off : Nat} (h4 : off % 4 = 0) : (locate c off).unheld = true ↔ unheldOffset off := by
  unfold unheldOffset
  by_cases h : off < 0x100000
  · simp only [locate, if_pos h]
    unfold regAt
    split
    · rename_i r hr
      split at hr <;> first
        | (injection hr with hr; subst hr; simp [Location.unheld])
        | cases hr
    · rename_i hr
      simp only [Location.unheld]
      split at hr <;> first | (cases hr; done) | skip
      simp only [imp_false] at *
      refine ⟨fun h => (nomatch h), fun _ => ?_⟩
      omega
  · have hn : (locate c off).unheld = false := by
      simp only [locate, if_neg h]
      repeat' split
      all_goals first | exact bufferLocation_unheld _ _ _ | rfl
    rw [hn]
    simp
    omega

/-- Whether a proper access is held (R80). -/
theorem State.holds_iff {s : State} {a : Access} (h : a.proper s.cfg) :
    s.holds a = true ↔ s.busy = true ∧ ¬ unheldOffset (a.addr - s.cfg.base) := by
  rw [State.holds, h.offset, ← locate_unheld (c := s.cfg) h.2.2.2]
  simp [h.wellFormed]

/-- A proper access that is not held is performed by the step (R80; 43_control.md R261). -/
theorem step_performed {s : State} {a : Access} {rest : List Input} (hi : s.inputs = .access a :: rest) (hp : a.proper s.cfg)
    (hh : s.busy = false ∨ unheldOffset (a.addr - s.cfg.base)) :
    step s = .next (State.performAt { s with inputs := rest } (a.addr - s.cfg.base) a.kind) := by
  have hn : s.holds a = false := by
    rw [Bool.eq_false_iff, Ne, State.holds_iff hp]
    rcases hh with hb | hu
    · simp [hb]
    · exact fun h => h.2 hu
  simp [step, hi, hn, hostAccess, hp.offset, hp.wellFormed]

theorem step_nextAccess {s : State} {off : Nat} {k : AccessKind} {rest : List Input} (h : s.nextAccess off k rest)
    (hh : s.busy = false ∨ unheldOffset off) : step s = .next (State.performAt { s with inputs := rest } off k) := by
  obtain ⟨a, hi, hp, ha, rfl⟩ := h
  have e : a.addr - s.cfg.base = off := by omega
  have := step_performed hi hp (by rwa [e])
  rwa [e] at this

/-! ### The engine's turn -/

/-- When the engine has the next turn, the step is its step. -/
theorem step_engineNext {s s0 : State} (h : s.engineNext = some s0) : step s = engineStep s0 := by
  unfold State.engineNext at h
  split at h
  · rename_i hb
    split at h
    · rename_i hi; cases h; simp [step, hi, engineTurn, hb]
    · rename_i a rest hi
      split at h
      · rename_i hh; cases h; simp [step, hi, hh]
      · cases h
    · rename_i rest hi; cases h; simp [step, hi, engineTurn, hb]
    · cases h
    · cases h
  · cases h

/-- Everything a step that answers a next state can be. -/
theorem step_cases {s t : State} (h : step s = .next t) :
    s.engineMoves t
    ∨ (∃ a rest, s.inputs = .access a :: rest ∧ a.proper s.cfg ∧ s.holds a = false
        ∧ t = State.performAt { s with inputs := rest } (a.addr - s.cfg.base) a.kind)
    ∨ (s.busy = false ∧ ((s.inputs = [] ∧ t = s) ∨ ∃ rest, s.inputs = .engineTurn :: rest ∧ t = { s with inputs := rest }))
    ∨ (∃ rest, s.inputs = .reset :: rest ∧ t = State.applyReset { s with inputs := rest })
    ∨ ∃ a rest, s.inputs = .resetOver a :: rest ∧ t = resetOverAccess a { s with inputs := rest } := by
  have hm : ∀ {s0}, s.engineNext = some s0 → s.engineMoves t := fun {s0} e => ⟨s0, e, by rw [← step_engineNext e]; exact h⟩
  match hi : s.inputs with
  | [] =>
    cases hb : s.busy
    · simp [step, hi, engineTurn, hb] at h
      exact .inr (.inr (.inl ⟨rfl, .inl ⟨rfl, h.symm⟩⟩))
    · exact .inl (hm (s0 := s) (by simp [State.engineNext, hb, hi]))
  | .access a :: rest =>
    cases hh : s.holds a
    · refine .inr (.inl ⟨a, rest, rfl, ?_⟩)
      simp only [step, hi, hh, hostAccess, Access.offset?, Bool.false_eq_true, if_false] at h
      split at h
      · cases h
      · rename_i off ho
        split at h
        · rename_i hw
          split at ho
          · rename_i hr
            cases ho
            refine ⟨⟨hr.1, hr.2, ?_⟩, hh, by cases h; rfl⟩
            simp only [wellFormedAccess, Bool.and_eq_true, decide_eq_true_eq] at hw
            omega
          · cases ho
        · cases h
    · have hb : s.busy = true := by
        unfold State.holds at hh; exact (Bool.and_eq_true _ _ ▸ hh : _ ∧ _).1
      exact .inl (hm (s0 := s) (by simp [State.engineNext, hb, hi, hh]))
  | .engineTurn :: rest =>
    cases hb : s.busy
    · simp [step, hi, engineTurn, hb] at h
      exact .inr (.inr (.inl ⟨rfl, .inr ⟨rest, rfl, h.symm⟩⟩))
    · exact .inl (hm (s0 := { s with inputs := rest }) (by simp [State.engineNext, hb, hi]))
  | .reset :: rest =>
    simp only [step, hi] at h
    exact .inr (.inr (.inr (.inl ⟨rest, rfl, by cases h; rfl⟩)))
  | .resetOver a :: rest =>
    simp only [step, hi] at h
    exact .inr (.inr (.inr (.inr ⟨a, rest, rfl, by cases h; rfl⟩)))

/-! ### Commands in order -/

theorem runInOrder_cons (i : Instr) (is : List Instr) (s : State) :
    runInOrder (i :: is) s =
      if (commandOutcome i s).finish.errCode = 0#8 then runInOrder is (commandOutcome i s).finish else (commandOutcome i s).finish := by
  rw [runInOrder, exec_eq]

theorem firstFailing_cons (i : Instr) (is : List Instr) (s : State) :
    firstFailing (i :: is) s =
      if (commandOutcome i s).finish.errCode = 0#8 then firstFailing is (commandOutcome i s).finish else some i := by
  rw [firstFailing, exec_eq]

end Sys2Proof.Machine
end

