-- ==== Sys2Proof/Tests/Slice0.lean ====
section
/-! SUPPORT. The model's own tests: the static checks refuse ill-formed terms, words written out from the encoding decode,
single steps give the values of spec/95_test_vectors.md, and the hypotheses of the statements are met by concrete states. -/

set_option Elab.async false

namespace Sys2Proof.Tests

open Sys2Proof.Machine Sys2Proof.Reference

/-! ### Static checks (00_scope.md R10; 30_encoding.md R102; 20_memory.md R70) -/

theorem test_reference_legal : Config.reference.legal = true := by decide
theorem test_legal_base : ({ Config.reference with base := 2 ^ 23 } : Config).legal = false := by decide
theorem test_legal_symCap_low : ({ Config.reference with symCap := 0 } : Config).legal = false := by decide
theorem test_legal_symCap_high : ({ Config.reference with symCap := 2 ^ 18 + 1 } : Config).legal = false := by decide
theorem test_legal_tokCap_low : ({ Config.reference with tokCap := 0 } : Config).legal = false := by decide
theorem test_legal_tokCap_high : ({ Config.reference with tokCap := 2 ^ 18 + 1 } : Config).legal = false := by decide
theorem test_legal_bitCap_low : ({ Config.reference with bitCap := 0 } : Config).legal = false := by decide
theorem test_legal_bitCap_high : ({ Config.reference with bitCap := 2 ^ 23 + 32 } : Config).legal = false := by decide
theorem test_legal_bitCap_multiple : ({ Config.reference with bitCap := 48 } : Config).legal = false := by decide
theorem test_legal_dictCap_low : ({ Config.reference with dictCap := 255 } : Config).legal = false := by decide
theorem test_legal_dictCap_high : ({ Config.reference with dictCap := 2 ^ 16 + 1 } : Config).legal = false := by decide
theorem test_legal_codeMaxLen_low : ({ Config.reference with codeMaxLen := 0 } : Config).legal = false := by decide
theorem test_legal_codeMaxLen_high : ({ Config.reference with codeMaxLen := 65 } : Config).legal = false := by decide
theorem test_word_reserved : legalCommandWord 0x00000101#32 = false := by decide
theorem test_word_zero : legalCommandWord 0x00000000#32 = false := by decide
theorem test_word_unassigned : legalCommandWord 0x0000000B#32 = false := by decide
theorem test_access_width : wellFormedAccess 0x20 2 = false := by decide
theorem test_access_aligned : wellFormedAccess 0x22 4 = false := by decide
theorem test_access_range : wellFormedAccess (2 ^ 24) 4 = false := by decide

/-! ### Decoding: RSVD (24 bits), then OPCODE (8 bits), as R100 and R103 lay them out -/

theorem test_decode_stage_words :
    decode 0b000000000000000000000000_00000001#32 = .command .lzwEnc
    ∧ decode 0b000000000000000000000000_00000010#32 = .command .lzwDec
    ∧ decode 0b000000000000000000000000_00000011#32 = .command .freqCount
    ∧ decode 0b000000000000000000000000_00000100#32 = .command .huffBuild
    ∧ decode 0b000000000000000000000000_00000101#32 = .command .huffCodes
    ∧ decode 0b000000000000000000000000_00000110#32 = .command .entEnc
    ∧ decode 0b000000000000000000000000_00000111#32 = .command .entDec := by decide
theorem test_decode_control_words :
    decode 0b000000000000000000000000_00001000#32 = .command .compress
    ∧ decode 0b000000000000000000000000_00001001#32 = .command .decompress
    ∧ decode 0b000000000000000000000000_00001010#32 = .command .clear := by decide
theorem test_decode_illegal_words :
    decode 0x00000000#32 = .unassignedOpcode ∧ decode 0x0000000B#32 = .unassignedOpcode
    ∧ decode 0x000000FF#32 = .unassignedOpcode ∧ decode 0x00000101#32 = .reservedBits
    ∧ decode 0x80000001#32 = .reservedBits := by decide
theorem test_table_words : (List.range 12).map (decodeTableWord 32) =
    [none, some .lzwEnc, some .lzwDec, some .freqCount, some .huffBuild, some .huffCodes, some .entEnc, some .entDec,
     some .compress, some .decompress, some .clear, none] := by decide

/-! ### Small states -/

/-- A small legal configuration. -/
def tiny : Config where
  base := 2 ^ 24
  symCap := 8
  tokCap := 8
  bitCap := 64
  dictCap := 260
  codeMaxLen := 8

/-- A block of that configuration with every buffer zero. -/
def zeroed (c : Config := tiny) : State := clearAll (State.afterReset c 0)

def withSyms (xs : List Nat) (s : State) : State :=
  { s with mem := s.mem.putSymbols (xs.map (BitVec.ofNat 8)), symLen := BitVec.ofNat 32 xs.length }

def withToks (ts : List Nat) (s : State) : State :=
  { s with mem := s.mem.putTokens ts, tokLen := BitVec.ofNat 32 ts.length }

def withBits (bs : List Bool) (s : State) : State :=
  { s with mem := s.mem.putStream bs, bitLen := BitVec.ofNat 32 bs.length }

def withFreqs (fs : List (Nat × Nat)) (s : State) : State :=
  { s with mem := fs.foldl (fun m p => m.putFreq p.1 p.2) s.mem }

def withTree (nds : List Node) (rt : Nat) (s : State) : State :=
  { s with mem := s.mem.putNodes 0 (nds.map fun nd => (nd, 0)), nodeCount := BitVec.ofNat 32 nds.length,
           root := BitVec.ofNat 32 rt }

/-- The good reference tree of vector V5.4: 97 has the code "0", 98 the code "1". -/
def pair (s : State := zeroed) : State := withTree [.leaf 97, .leaf 98, .internal 0 1] 2 s

/-- The single-leaf tree T1 of section 2.7. -/
def single (s : State := zeroed) : State := withTree [.leaf 97] 0 s

/-- The state an outcome goes on in; the reset state of a stop, which no test here meets. -/
def after (o : Host.Outcome State Fault Refusal) : State :=
  match o with
  | .next t => t
  | .fault _ => State.reset
  | .refused _ => State.reset

def report (t : State) : Nat × Nat × Nat := (t.errCode.toNat, t.errStage.toNat, t.errInfo.toNat)

/-- A host access at an offset of the small block. -/
def accessAt (off : Nat) (k : AccessKind) : Input := .access ⟨2 ^ 24 + off, 4, k⟩

/-! ### One step of each command, from the vectors of 95_test_vectors.md -/

/-- V1.1, "abab", with the DICT of V1.2. -/
theorem test_lzwEnc_abab : let t := after (exec .lzwEnc (withSyms [97, 98, 97, 98] zeroed))
    t.mem.tokens 3 = [97, 98, 256] ∧ t.tokLen = 3#32 ∧ t.readDict 257 2 = 98#32 := by decide +kernel
/-- V1.3, DICT_CAP = 257, "abc". -/
theorem test_lzwEnc_dict_full : let t := after (exec .lzwEnc (withSyms [97, 98, 99] (zeroed { tiny with dictCap := 257 })))
    report t = (5, 1, 4) ∧ t.tokLen = 0#32 ∧ t.dictNext = 256 := by decide +kernel
/-- V2.1, the KwKwK case [65, 66, 257]. -/
theorem test_lzwDec_kwkwk : let t := after (exec .lzwDec (withToks [65, 66, 257] zeroed))
    t.mem.symbols 4 = [65#8, 66#8, 66#8, 66#8] ∧ t.symLen = 4#32 ∧ t.dictNext = 258 := by decide +kernel
/-- V2.1, [65, 66, 258]. -/
theorem test_lzwDec_invalid : report (after (exec .lzwDec (withToks [65, 66, 258] zeroed))) = (1, 2, 2) := by decide +kernel
/-- Section 2.3, [97, 98, 97, 256]. -/
theorem test_freqCount_counts : let t := after (exec .freqCount (withToks [97, 98, 97, 256] zeroed))
    t.mem.freqOf 97 = 2 ∧ t.mem.freqOf 98 = 1 ∧ t.mem.freqOf 256 = 1 ∧ t.mem.freqOf 99 = 0 := by decide +kernel
/-- Section 2.3, a token at DICT_CAP. -/
theorem test_freqCount_outside : let t := after (exec .freqCount (withToks [97, 260, 98] zeroed))
    report t = (5, 3, 6) ∧ t.mem.freqOf 97 = 0 := by decide +kernel
/-- V4.2, a new node ties with an older one. -/
theorem test_huffBuild_tie : let t := after (exec .huffBuild (withFreqs [(10, 1), (11, 1), (12, 2)] zeroed))
    t.heldNodes = [.leaf 10, .leaf 11, .leaf 12, .internal 0 1, .internal 2 3] ∧ t.root = 4#32 := by decide +kernel
/-- V4.5, the third merge overflows. -/
theorem test_huffBuild_overflow :
    report (after (exec .huffBuild (withFreqs [(0, 1), (1, 1), (2, 2 ^ 63), (3, 2 ^ 63)] zeroed))) = (8, 4, 6) := by
  decide +kernel
/-- V5.1, the codes of the tree of V4.1. -/
theorem test_huffCodes_paths : let t := after (exec .huffCodes
      (withTree [.leaf 2, .leaf 5, .leaf 7, .leaf 9, .internal 0 3, .internal 2 4, .internal 1 5] 6 zeroed))
    t.readCode 5 0 = 0x80000001#32 ∧ t.readCode 7 1 = 1#32 ∧ t.readCode 2 1 = 3#32 ∧ t.readCode 9 0 = 0x80000003#32 := by
  decide +kernel
/-- V5.4, a cycle. -/
theorem test_huffCodes_cycle :
    report (after (exec .huffCodes (withTree [.internal 1 2, .leaf 97, .internal 0 1] 2 zeroed))) = (7, 5, 0) := by
  decide +kernel
/-- Section 2.6, [97, 98, 97] over BITW[0] = 0xFFFFFFFF. -/
theorem test_entEnc_zero_fill : let s := after (exec .huffCodes pair)
    let t := after (exec .entEnc (withToks [97, 98, 97] { s with mem := s.mem.writeFrom .bits 0 [0xFFFFFFFF#32, 0x12345678#32] }))
    t.bitLen = 3#32 ∧ t.mem.read .bits 0 = 2#32 ∧ t.mem.read .bits 1 = 0x12345678#32 := by decide +kernel
/-- Section 2.6, an unknown token. -/
theorem test_entEnc_unknown : report (after (exec .entEnc (withToks [97, 99, 98] (after (exec .huffCodes pair))))) = (3, 6, 1) := by
  decide +kernel
/-- Section 2.7, T2 with "010". -/
theorem test_entDec_pair : let t := after (exec .entDec (withBits [false, true, false] pair))
    t.mem.tokens 3 = [97, 98, 97] ∧ t.tokLen = 3#32 := by decide +kernel
/-- Section 2.7, T3 with "01101": the code that begins at bit 4 is incomplete. -/
theorem test_entDec_truncated : report (after (exec .entDec (withBits [false, true, true, false, true]
    (withTree [.leaf 97, .leaf 98, .leaf 99, .internal 0 1, .internal 2 3] 4 zeroed)))) = (4, 7, 4) := by decide +kernel
/-- V8.2, "abab". -/
theorem test_compress_abab : let t := after (exec .compress (withSyms [97, 98, 97, 98] zeroed))
    report t = (0, 0, 0) ∧ t.bitLen = 5#32 ∧ t.mem.read .bits 0 = 0xD#32 := by decide +kernel
/-- V8.7, no symbols. -/
theorem test_compress_empty : report (after (exec .compress zeroed)) = (2, 4, 0) := by decide +kernel
/-- Program P2's stream and tree. -/
theorem test_decompress_abab : let t := after (exec .decompress (withBits [true, false, true, true, false]
      (withTree [.leaf 97, .leaf 98, .leaf 256, .internal 0 1, .internal 2 3] 4 zeroed)))
    t.mem.symbols 4 = [97#8, 98#8, 97#8, 98#8] ∧ t.symLen = 4#32 := by decide +kernel
/-- V9.6. -/
theorem test_clear : let t := after (exec .clear (withSyms [97] (pair (State.afterReset tiny 0))))
    t.mem.symbol 0 = 0#8 ∧ t.nodeCount = 0#32 ∧ t.statusWord = 2#32 := by decide +kernel
/-- V9.1: an illegal word. -/
theorem test_illegal_word : let t := after (step (State.reset.withFetchWord 32 0x80000001))
    t.readOffset 0x00C = 0x109#32 ∧ t.readOffset 0x010 = 0x80000001#32 ∧ t.statusWord = 6#32 := by decide +kernel
/-- V9.3: W1C from STATUS = 6. -/
theorem test_status_w1c : let s := { zeroed with done := true, err := true }
    (s.writeOffset 8 2#32).statusWord = 4#32 ∧ (s.writeOffset 8 1#32).statusWord = 6#32
    ∧ (s.writeOffset 8 0xFFFFFFFF#32).statusWord = 0#32 := by decide +kernel
/-- V9.5: TOK_LEN is held while BUSY, STATUS is not. -/
theorem test_hold : let s := { State.accept (withSyms [97, 98, 97, 98] zeroed) 1#32 with
      inputs := [accessAt 0x008 .read, accessAt 0x024 .read] }
    (after (Host.Core.run core 3 s)).reads = [1#32, 3#32] := by decide +kernel

/-! ### The hypotheses of the statements are met -/

theorem exec_after (i : Instr) (s : State) : exec i s = .next (after (exec i s)) := by cases i <;> rfl

theorem tiny_legal : tiny.legal = true := by decide

/-- A state of the small block whose next input is an access at an aligned offset. -/
theorem nextAccess_of (s : State) (off : Nat) (k : AccessKind) (hc : s.cfg = tiny) (hi : s.inputs = [accessAt off k])
    (ho : off < 2 ^ 24 ∧ off % 4 = 0) : s.nextAccess off k [] := by
  refine ⟨⟨2 ^ 24 + off, 4, k⟩, hi, ?_, by rw [hc]; rfl, rfl⟩
  rw [hc]
  show 2 ^ 24 ≤ 2 ^ 24 + off ∧ 2 ^ 24 + off < 2 ^ 24 + 2 ^ 24 ∧ 4 = 4 ∧ (2 ^ 24 + off - 2 ^ 24) % 4 = 0
  omega

theorem witness_StepRunsDecodedCommand : ∃ (s s0 : State) (w : Word),
    s.engineNext = some s0 ∧ decode s.latch = .command .lzwEnc ∧ decode w = .command .clear :=
  ⟨zeroed.withFetchWord 32 1, zeroed.accept 1#32, 10#32, by decide +kernel⟩

theorem witness_IllegalWordOnlyCompletes : ∃ s s0 : State, s.engineNext = some s0 ∧ ∀ i, decode s.latch ≠ .command i :=
  ⟨zeroed.accept 0xB#32, zeroed.accept 0xB#32, by decide +kernel, fun i => by cases i <;> decide⟩

theorem witness_CommandAcceptance : ∃ (s s' : State) (a : Access) (v : Word),
    s.inputs = [.access a] ∧ s'.inputs = [.access a] ∧ a.proper s.cfg ∧ a.proper s'.cfg ∧ a.addr - s.cfg.base = 4
    ∧ a.kind = .write v ∧ s.busy = false ∧ s'.busy = true :=
  ⟨{ zeroed with inputs := [accessAt 4 (.write 8#32)] }, { zeroed.accept 1#32 with inputs := [accessAt 4 (.write 8#32)] },
    ⟨2 ^ 24 + 4, 4, .write 8#32⟩, 8#32, rfl, rfl, by unfold Access.proper; decide, by unfold Access.proper; decide,
    by decide, rfl, rfl, rfl⟩

/-- Held at 0x03C and 0x058, not held at 0x040 and 0x054, the ends of the capacity registers. -/
theorem witness_HeldAccessWaitsForCompletion : ∀ off ∈ [0x004, 0x03C, 0x058, 0x040, 0x054, 0x000, 0x008, 0x014],
    ∃ (s : State) (a : Access), s.busy = true ∧ s.inputs = [.access a] ∧ a.proper s.cfg ∧ a.addr - s.cfg.base = off
    ∧ (unheldOffset off ↔ off ∉ [0x004, 0x03C, 0x058]) := by
  intro off h
  refine ⟨{ zeroed.accept 1#32 with inputs := [accessAt off .read] }, ⟨2 ^ 24 + off, 4, .read⟩, rfl, rfl, ?_, ?_, ?_⟩
  · revert off; unfold Access.proper; decide
  · revert off; decide
  · revert off; unfold unheldOffset; decide

theorem witness_StepStopsOnlyOnBadAccess : ∃ s s' : State,
    (∃ a rest, s.inputs = .access a :: rest ∧ ¬ (s.cfg.base ≤ a.addr ∧ a.addr < s.cfg.base + 2 ^ 24))
    ∧ ∃ a rest, s'.inputs = .access a :: rest ∧ s'.cfg.base ≤ a.addr ∧ a.addr < s'.cfg.base + 2 ^ 24
      ∧ ¬ (a.width = 4 ∧ (a.addr - s'.cfg.base) % 4 = 0) :=
  ⟨{ zeroed with inputs := [accessAt (2 ^ 24) .read] }, { zeroed with inputs := [accessAt (2 ^ 24 - 2) .read] },
    ⟨_, _, rfl, by decide⟩, _, _, rfl, by decide, by decide, by decide⟩

theorem witness_ProperInputsAreSafe : ∃ s : State, s.inputs ≠ [] ∧ s.properInputs :=
  ⟨{ zeroed with inputs := [accessAt (2 ^ 24 - 4) .read] }, by simp, by
    intro a ha
    have e : a = ⟨2 ^ 24 + (2 ^ 24 - 4), 4, .read⟩ := by simpa [accessAt] using ha
    subst e; unfold Access.proper; decide⟩

theorem witness_ReadsLeaveBlockUnchanged : ∃ (s s' : State) (a a' : Access),
    s.inputs = [.access a] ∧ a.proper s.cfg ∧ a.kind = .read ∧ s.busy = false
    ∧ s'.inputs = [.access a'] ∧ a'.proper s'.cfg ∧ a'.kind = .read ∧ s'.busy = true
    ∧ unheldOffset (a'.addr - s'.cfg.base) :=
  ⟨{ zeroed with inputs := [accessAt 0x020 .read] }, { zeroed.accept 1#32 with inputs := [accessAt 0x008 .read] },
    ⟨2 ^ 24 + 0x020, 4, .read⟩, ⟨2 ^ 24 + 0x008, 4, .read⟩, rfl, by unfold Access.proper; decide, rfl, rfl, rfl,
    by unfold Access.proper; decide, rfl, rfl, by unfold unheldOffset; decide⟩

/-- A write, not held, is the next input: at the first and last word of every RW window and at RW registers; IRQ_ENABLE also while
BUSY = 1. -/
theorem witness_StoredWordReadsBack : ∀ off ∈ [0x014, 0x020, 0x030, 0x100000, 0x10001C, 0x200000, 0x20001C, 0x300000, 0x300004,
    0x400000, 0x40081C, 0x800000, 0x800014, 0x8040D4], hostWritable tiny off
    ∧ ∀ v : Word, ∃ s : State, s.cfg = tiny ∧ s.cfg.legal = true ∧ s.busy = decide (off = 0x014) ∧ s.nextAccess off (.write v) [] := by
  intro off h
  have hn : off < 2 ^ 24 ∧ off % 4 = 0 := by revert off; decide
  refine ⟨by revert off; unfold hostWritable; decide, fun v => ?_⟩
  exact ⟨{ zeroed with inputs := [accessAt off (.write v)], busy := decide (off = 0x014) }, rfl, tiny_legal, rfl,
    nextAccess_of _ off _ rfl rfl hn⟩

theorem witness_StatusWriteOneToClear (v : Word) : ∃ s s' : State, s.busy = false ∧ s.done = true ∧ s.err = true
    ∧ s.nextAccess 0x008 (.write v) [] ∧ s'.busy = true ∧ s'.nextAccess 0x008 (.write v) [] :=
  ⟨{ zeroed with inputs := [accessAt 0x008 (.write v)], done := true, err := true },
    { zeroed.accept 1#32 with inputs := [accessAt 0x008 (.write v)] }, rfl, rfl, rfl, nextAccess_of _ _ _ rfl rfl (by decide), rfl,
    nextAccess_of _ _ _ rfl rfl (by decide)⟩

/-- The reserved words of the register page and the first one after every window; none is host-writable. -/
theorem witness_ReservedOffsets_pages : ∀ off ∈ [0x018, 0x01C, 0x038, 0x03C, 0x058, 0x0FFFFC, 0x100020, 0x200020, 0x300008, 0x400820],
    off % 4 = 0 ∧ reservedOffset tiny off ∧ ¬ hostWritable tiny off := by
  intro off h
  simp only [List.mem_cons, List.not_mem_nil, or_false] at h
  simp only [reservedOffset, hostWritable, tiny, Config.nodeCap]
  omega

/-- The reserved words of an entry, and the ends of the reserved ranges; none is host-writable. -/
theorem witness_ReservedOffsets_entries : ∀ off ∈ [0x501040, 0x50000C, 0x601040, 0x700000, 0x7FFFFC, 0x800018, 0x8040E0, 0xC00000, 0xFFFFFC],
    off % 4 = 0 ∧ reservedOffset tiny off ∧ ¬ hostWritable tiny off := by
  intro off h
  simp only [List.mem_cons, List.not_mem_nil, or_false] at h
  simp only [reservedOffset, hostWritable, tiny, Config.nodeCap]
  omega

/-- RO offsets; none is host-writable. -/
theorem witness_ReadOnlyOffsets : ∀ off ∈ [0x000, 0x00C, 0x010, 0x034, 0x040, 0x054, 0x500000, 0x6FFFFC],
    off % 4 = 0 ∧ readOnlyOffset off ∧ ¬ hostWritable tiny off := by
  intro off h
  simp only [List.mem_cons, List.not_mem_nil, or_false] at h
  simp only [readOnlyOffset, hostWritable, tiny, Config.nodeCap]
  omega

theorem witness_ReservedAndReadOnlyOffsets : ∀ off ∈ [0x004, 0x018, 0x100020, 0xFFFFFC, 0x010, 0x054], ∀ k : AccessKind,
    ∃ (s : State) (a : Access), s.cfg.legal = true ∧ s.inputs = [.access a] ∧ a.proper s.cfg ∧ s.busy = false
      ∧ a.addr - s.cfg.base = off ∧ a.kind = k := by
  intro off h k
  simp only [List.mem_cons, List.not_mem_nil, or_false] at h
  refine ⟨{ zeroed with inputs := [accessAt off k] }, ⟨2 ^ 24 + off, 4, k⟩, tiny_legal, rfl, ?_, rfl, ?_, rfl⟩
  · show 2 ^ 24 ≤ 2 ^ 24 + off ∧ 2 ^ 24 + off < 2 ^ 24 + 2 ^ 24 ∧ 4 = 4 ∧ (2 ^ 24 + off - 2 ^ 24) % 4 = 0
    omega
  · show 2 ^ 24 + off - 2 ^ 24 = off
    omega

theorem witness_TableWindowsRead : ∃ (s : State) (e : CodeEntry) (e' : DictEntry),
    s.cfg.legal = true ∧ codeEntry? s.code 97 = some e ∧ codeEntry? s.code 259 = none
    ∧ s.dict[256 - 256]? = some e' ∧ s.dictNext ≤ 257 ∧ 259 < s.cfg.dictCap :=
  ⟨after (exec .compress (withSyms [97, 98] zeroed)), ⟨1#7, 0#64⟩, ⟨97#32, 98#8, 97#8, 2#32⟩, by decide +kernel⟩

/-- COMPRESS of no symbols fails in HUFF_BUILD. -/
theorem witness_FailuresLeaveNoPartialOutput : ∃ s t : State, exec .compress s = .next t ∧ t.errCode ≠ 0#8 :=
  ⟨zeroed, after (exec .compress zeroed), exec_after _ _, by decide +kernel⟩

theorem witness_InterruptFollowsStatus (v : Word) :
    (∀ off ∈ [0x004, 0x008, 0x014], ∃ s : State, s.busy = false ∧ s.writeNext off v) ∧ ∃ s : State, s.resetNext :=
  ⟨fun off h => ⟨{ zeroed with inputs := [accessAt off (.write v)] }, rfl, [], nextAccess_of _ _ _ rfl rfl (by revert off; decide)⟩,
    { zeroed with inputs := [.reset] }, [], .inl rfl⟩

/-- COMPRESS of no symbols, whose third stage is the first to fail; DECOMPRESS of an invalid token, whose second stage is; CLEAR;
and an illegal word. -/
theorem witness_ErrorStageIsFailingStage :
    (firstFailing (failingStages .compress) (zeroed.accept 8#32) = some .huffBuild
      ∧ (after (engineStep (zeroed.accept 8#32))).errStage = 4#8)
    ∧ (firstFailing (failingStages .decompress) ((withBits [false] (withTree [.leaf 259] 0 zeroed)).accept 9#32) = some .lzwDec
      ∧ (after (engineStep ((withBits [false] (withTree [.leaf 259] 0 zeroed)).accept 9#32))).errStage = 2#8)
    ∧ firstFailing (failingStages .clear) (zeroed.accept 10#32) = none
    ∧ (after (engineStep (zeroed.accept 0x1FF#32))).errStage = 0xFF#8 := by decide +kernel

theorem witness_ErrorStageIsFailingStage_illegal : ∃ s t : State, engineStep s = .next t ∧ ∀ i, decode s.latch ≠ .command i :=
  ⟨zeroed.accept 0#32, after (engineStep (zeroed.accept 0#32)), rfl, fun i => by cases i <;> decide⟩

/-- A failing instance of every stage. -/
theorem witness_ErrorCodesOfStages :
    report (after (exec .lzwEnc { zeroed with symLen := 9#32 })) = (5, 1, 1)
    ∧ report (after (exec .lzwDec { zeroed with tokLen := 9#32 })) = (5, 2, 2)
    ∧ report (after (exec .freqCount { zeroed with tokLen := 9#32 })) = (5, 3, 2)
    ∧ report (after (exec .huffBuild zeroed)) = (2, 4, 0)
    ∧ report (after (exec .huffBuild (withFreqs [(0, 2 ^ 63), (1, 2 ^ 63)] zeroed))) = (8, 4, 2) ∧ report (after (exec .huffCodes zeroed)) = (7, 5, 0)
    ∧ report (after (exec .entEnc { zeroed with tokLen := 9#32 })) = (5, 6, 2)
    ∧ report (after (exec .entDec zeroed)) = (7, 7, 0) := by decide +kernel

/-- Two states that differ outside what LZW_ENC reads. -/
theorem witness_CommandsReadOnlyListedState : ∃ s s' : State, s'.cfg = s.cfg ∧ s' ≠ s ∧ s'.draws = s.draws
    ∧ (∀ c ∈ commandReads .lzwEnc, c.agree s s') ∧ ∀ c ∈ commandWrites .lzwEnc, c.agree s s' :=
  ⟨zeroed, { zeroed with nodeCount := 1#32 }, rfl, by decide +kernel, rfl,
    by simp [commandReads, Component.agree], by simp [commandWrites, Component.agree]⟩

/-- A step that accepts a command, one that completes it, one that writes IRQ_ENABLE, and a reset that changes all of them. -/
theorem witness_ControlRegistersChangeOnlyByTheirEvents :
    (let s := { zeroed with inputs := [accessAt 4 (.write 0#32)] }; s.busy = false ∧ (after (step s)).busy = true)
    ∧ (let s := zeroed.accept 0#32
       s.busy = true ∧ (after (step s)).busy = false
        ∧ s.done = false ∧ (after (step s)).done = true ∧ s.err = false ∧ (after (step s)).err = true
        ∧ (after (step s)).errCode ≠ s.errCode)
    ∧ (let s := { zeroed with inputs := [accessAt 0x014 (.write 3#32)] }; (after (step s)).doneIe ≠ s.doneIe)
    ∧ (let s := { zeroed with inputs := [.reset], doneIe := true, errCode := 9#8 }
       (after (step s)).doneIe ≠ s.doneIe ∧ (after (step s)).errCode ≠ s.errCode) := by decide +kernel

/-- The state after an illegal command word, with one input to come. -/
def failedThen (x : Input) : State := { zeroed.completeIllegal 0#32 with inputs := [x] }

theorem failedThen_flagsOk (x : Input) : (failedThen x).FlagsOk where
  busy h := nomatch h
  err _ := by show (9#8 : Byte) ≠ 0#8; decide
  code := by show (9#8 : Byte).toNat ≤ 9; decide
  ok h := absurd (show (9#8 : Byte) = 0#8 from h) (by decide)

/-- DONE and ERR of a failed command are cleared by an acknowledgement, by an acceptance and by a reset. -/
theorem witness_ControlRegistersChangeOnlyByTheirEvents_clear :
    ∀ x ∈ [accessAt 8 (.write 6#32), accessAt 4 (.write 1#32), .reset], ∃ s t : State, s.FlagsOk ∧ step s = .next t
      ∧ s.done = true ∧ s.err = true ∧ t.done = false ∧ t.err = false := by
  have hx : ∀ x ∈ [accessAt 8 (.write 6#32), accessAt 4 (.write 1#32), .reset],
      (after (step (failedThen x))).done = false ∧ (after (step (failedThen x))).err = false := by decide +kernel
  intro x h
  refine ⟨failedThen x, after (step (failedThen x)), failedThen_flagsOk x, ?_, rfl, rfl, hx x h⟩
  simp only [List.mem_cons, List.not_mem_nil, or_false] at h
  rcases h with rfl | rfl | rfl <;> rfl

theorem witness_TablesChangeOnlyByTheirCommands :
    (let s := pair.accept 5#32; (after (step s)).code ≠ s.code)
    ∧ let s := (withSyms [97, 98] zeroed).accept 1#32; (after (step s)).dict ≠ s.dict := by decide +kernel

/-- A reset with a command latched, and one over an outstanding read and over an outstanding write. -/
theorem witness_ResetDiscardsLatchedCommand : ∃ (s s' s'' : State) (a a' : Access) (v : Word), s.busy = true ∧ s.inputs = [.reset]
    ∧ s'.inputs = [.resetOver a] ∧ a.kind = .read ∧ s''.busy = true ∧ s''.inputs = [.resetOver a'] ∧ a'.kind = .write v :=
  ⟨{ zeroed.accept 1#32 with inputs := [.reset] },
    { zeroed.accept 1#32 with inputs := [.resetOver ⟨2 ^ 24 + 0x20, 4, .read⟩] },
    { zeroed.accept 1#32 with inputs := [.resetOver ⟨2 ^ 24 + 0x20, 4, .write 7#32⟩] },
    ⟨2 ^ 24 + 0x20, 4, .read⟩, ⟨2 ^ 24 + 0x20, 4, .write 7#32⟩, 7#32, rfl, rfl, rfl, rfl, rfl, rfl, rfl⟩

/-- The outstanding write of SYM_LEN has no effect. -/
theorem test_reset_over_write : (after (step { zeroed.accept 1#32 with
    inputs := [.resetOver ⟨2 ^ 24 + 0x20, 4, .write 7#32⟩] })).symLen = 0#32 := by decide +kernel

theorem witness_LzwInputLengthChecks : ∃ s : State, s.cfg.symCap < s.symLen.toNat ∧ s.cfg.tokCap < s.tokLen.toNat :=
  ⟨{ zeroed with symLen := 9#32, tokLen := 0xFFFFFFFF#32 }, by decide +kernel⟩

/-- "aba" needs 3 tokens and 2 entries; the tokens fill TOK_CAP and the entries DICT_CAP. -/
theorem witness_LzwEncRefinesSource : ∃ (s : State) (ts : List Nat) (d : Strings), s.cfg.legal = true
    ∧ s.symLen.toNat ≤ s.cfg.symCap ∧ lzwEncode (s.mem.symbols s.symLen.toNat) = (ts, d)
    ∧ ts.length = s.cfg.tokCap ∧ 255 + ts.length = s.cfg.dictCap :=
  ⟨withSyms [97, 98, 97] (zeroed { tiny with tokCap := 3, dictCap := 258 }), [97, 98, 97], [[97#8, 98#8], [98#8, 97#8]],
    by decide +kernel⟩

/-- The same input with one token or one entry less. -/
theorem witness_LzwEncCapacityFailure : ∃ (s s' : State) (ts : List Nat) (d : Strings),
    s.cfg.legal = true ∧ s'.cfg.legal = true ∧ s.symLen.toNat ≤ s.cfg.symCap ∧ s'.symLen.toNat ≤ s'.cfg.symCap
    ∧ lzwEncode (s.mem.symbols s.symLen.toNat) = (ts, d) ∧ lzwEncode (s'.mem.symbols s'.symLen.toNat) = (ts, d)
    ∧ s.cfg.tokCap < ts.length ∧ s'.cfg.dictCap < 255 + ts.length :=
  ⟨withSyms [97, 98, 97] (zeroed { tiny with tokCap := 2, dictCap := 258 }), withSyms [97, 98, 97] (zeroed { tiny with dictCap := 257 }),
    [97, 98, 97], [[97#8, 98#8], [98#8, 97#8]], by decide +kernel⟩

theorem witness_LzwEncDictionaryInjective : ∃ s t : State, s.cfg.legal = true ∧ exec .lzwEnc s = .next t ∧ 257 < t.dictNext :=
  ⟨withSyms [97, 98, 97, 98] zeroed, after (exec .lzwEnc (withSyms [97, 98, 97, 98] zeroed)), by decide, exec_after _ _, by decide +kernel⟩

theorem witness_LzwDecRefinesSource : ∃ (s : State) (out : List Byte) (d : Strings), s.cfg.legal = true
    ∧ s.tokLen.toNat ≤ s.cfg.tokCap ∧ lzwDecode (s.mem.tokens s.tokLen.toNat) = some (out, d)
    ∧ out.length = s.cfg.symCap ∧ 255 + s.tokLen.toNat = s.cfg.dictCap :=
  ⟨withToks [97, 256] (zeroed { tiny with symCap := 3, dictCap := 257 }), [97#8, 97#8, 97#8], [[97#8, 97#8]], by decide +kernel⟩

/-- The vector [65, 66, 258]. -/
theorem witness_LzwDecFirstErrorReported_invalid : ∃ s : State, s.cfg.legal = true ∧ s.tokLen.toNat = 3 ∧ 3 ≤ s.cfg.tokCap
    ∧ lzwDecode ((s.mem.tokens 3).take 2) = some ([65#8, 66#8], [[65#8, 66#8]]) ∧ lzwDecode ((s.mem.tokens 3).take 3) = none :=
  ⟨withToks [65, 66, 258] zeroed, by decide +kernel⟩

/-- [97, 256] with SYM_CAP = 2. -/
theorem witness_LzwDecFirstErrorReported_sym : ∃ s : State, s.cfg.legal = true ∧ s.tokLen.toNat = 2 ∧ 255 + 1 ≤ s.cfg.dictCap
    ∧ lzwDecode ((s.mem.tokens 2).take 1) = some ([97#8], [])
    ∧ lzwDecode ((s.mem.tokens 2).take 2) = some ([97#8, 97#8, 97#8], [[97#8, 97#8]]) ∧ s.cfg.symCap < 3 :=
  ⟨withToks [97, 256] (zeroed { tiny with symCap := 2 }), by decide +kernel⟩

/-- [97, 97] with DICT_CAP = 256. -/
theorem witness_LzwDecFirstErrorReported_dict : ∃ s : State, s.cfg.legal = true ∧ s.tokLen.toNat = 2 ∧ 255 + 1 ≤ s.cfg.dictCap
    ∧ lzwDecode ((s.mem.tokens 2).take 1) = some ([97#8], [])
    ∧ lzwDecode ((s.mem.tokens 2).take 2) = some ([97#8, 97#8], [[97#8, 97#8]]) ∧ 2 ≤ s.cfg.symCap ∧ s.cfg.dictCap < 256 + 1 :=
  ⟨withToks [97, 97] (zeroed { tiny with dictCap := 256 }), by decide +kernel⟩

/-- A report of success, from the values of its fields. -/
theorem succeeded_of {t : State}
    (h : t.busy = false ∧ t.done = true ∧ t.err = false ∧ t.errCode.toNat = 0 ∧ t.errStage.toNat = 0 ∧ t.errInfo.toNat = 0) :
    t.Succeeded := ⟨h.1, h.2.1, h.2.2.1, h.2.2.2.1, h.2.2.2.2.1, h.2.2.2.2.2⟩

theorem witness_LzwRoundTrip : ∃ s t : State, s.cfg.legal = true ∧ exec .lzwEnc s = .next t ∧ t.Succeeded ∧ t.dict ≠ [] :=
  ⟨withSyms [97, 98, 97, 98] zeroed, after (exec .lzwEnc (withSyms [97, 98, 97, 98] zeroed)), by decide, exec_after _ _,
    succeeded_of (by decide +kernel), by decide +kernel⟩

theorem witness_FreqCountCountsTokens : ∃ s s' : State, s.cfg.legal = true ∧ s.tokLen.toNat ≤ s.cfg.tokCap ∧ 0 < s.tokLen.toNat
    ∧ (∀ k ∈ s.mem.tokens s.tokLen.toNat, k < s.cfg.dictCap) ∧ s'.cfg.legal = true
    ∧ (after (exec .freqCount s')).errCode ≠ 0#8 :=
  ⟨withToks [97, 259] zeroed, withToks [97, 260] zeroed, by decide +kernel⟩

theorem witness_FreqCountErrors : ∃ s s' : State, s.cfg.tokCap < s.tokLen.toNat ∧ s'.tokLen.toNat ≤ s'.cfg.tokCap
    ∧ ∃ k ∈ s'.mem.tokens s'.tokLen.toNat, s'.cfg.dictCap ≤ k :=
  ⟨{ zeroed with tokLen := 9#32 }, withToks [97, 260] zeroed, by decide +kernel, by decide +kernel, 260, by decide +kernel⟩

/-- The weights sum to 2^64 - 1 and to 2^64. -/
theorem witness_HuffBuildBuildsWellFormedTree_HuffBuildErrors : ∃ s s' : State, s.cfg.legal = true ∧ freqTokens s ≠ [] ∧ freqTotal s = 2 ^ 64 - 1
    ∧ s'.cfg.legal = true ∧ freqTotal s' = 2 ^ 64 ∧ freqTokens (zeroed : State) = [] :=
  ⟨withFreqs [(0, 2 ^ 63 - 1), (259, 2 ^ 63)] zeroed, withFreqs [(0, 2 ^ 63), (1, 2 ^ 63)] zeroed, by decide +kernel⟩

theorem witness_HuffBuildMergesLeastKeys : ∃ s t : State, s.cfg.legal = true ∧ exec .huffBuild s = .next t ∧ t.Succeeded
    ∧ (freqTokens s).length = 3 :=
  ⟨withFreqs [(10, 1), (11, 1), (12, 2)] zeroed, after (exec .huffBuild (withFreqs [(10, 1), (11, 1), (12, 2)] zeroed)), by decide, exec_after _ _,
    succeeded_of (by decide +kernel), by decide +kernel⟩

theorem pair_nodes : ∀ i, i < 3 → (pair : State).mem.nodeAt i = [Node.leaf 97, .leaf 98, .internal 0 1].getD i (.leaf 0) := by decide +kernel

/-- The tree of V5.4 is well formed. -/
theorem pair_wellFormed : TreeWellFormed pair where
  v1 := by decide +kernel
  v2 := by decide +kernel
  v3 := by
    intro i l r (hi : i < 3) h
    rw [pair_nodes i hi] at h
    have hn : (pair : State).nodeCount.toNat = 3 := by decide
    rw [hn]
    interval_cases i <;> simp at h
    omega
  v4root := by decide +kernel
  v4other := by
    have h : ∀ i, i < 3 → i ≠ 2 → parents pair 3 i = 1 := by decide +kernel
    exact h
  v4reach := by
    intro i (hi : i < 3)
    have h2 : (pair : State).mem.nodeAt 2 = .internal 0 1 := pair_nodes 2 (by decide)
    have hr : (pair : State).root.toNat = 2 := by decide
    rw [hr]
    interval_cases i
    · exact .left .here h2
    · exact .right .here h2
    · exact .here
  v5range := by
    intro i t (hi : i < 3) h
    rw [pair_nodes i hi] at h
    have hn : (pair : State).cfg.dictCap = 260 := rfl
    rw [hn]
    interval_cases i <;> simp at h <;> omega
  v5once := by
    intro i j t (hi : i < 3) (hj : j < 3) h h'
    rw [pair_nodes i hi] at h
    rw [pair_nodes j hj] at h'
    interval_cases i <;> interval_cases j <;> simp_all <;> omega

theorem single_node : (single : State).mem.nodeAt 0 = .leaf 97 := by decide +kernel

/-- The tree T1 is well formed. -/
theorem single_wellFormed : TreeWellFormed single where
  v1 := by decide +kernel
  v2 := by decide +kernel
  v3 := by
    intro i l r (hi : i < 1) h
    obtain rfl : i = 0 := by omega
    rw [single_node] at h; cases h
  v4root := by decide +kernel
  v4other := by
    have h : ∀ i, i < 1 → i ≠ 0 → parents single 1 i = 1 := by decide +kernel
    exact h
  v4reach := by
    intro i (hi : i < 1)
    obtain rfl : i = 0 := by omega
    exact .here
  v5range := by
    intro i t (hi : i < 1) h
    obtain rfl : i = 0 := by omega
    rw [single_node] at h; cases h; decide
  v5once := by intro i j t (hi : i < 1) (hj : j < 1) _ _; omega

theorem pair_root : (pair : State).mem.nodeAt (pair : State).root.toNat = .internal 0 1 := by decide +kernel

/-- The codes of the tree of V5.4 (V5.4: 97 "0", 98 "1"). -/
theorem pair_isCode {k : Nat} {p : List Bool} (h : IsCode pair k p) : p.length = 1 := by
  unfold IsCode at h
  rw [pair_root] at h
  obtain ⟨x, hw, hx⟩ := h
  have hr : (pair : State).root.toNat = 2 := by decide
  rw [hr] at hw
  match p with
  | [] => cases hw; rw [pair_nodes 2 (by decide)] at hx; cases hx
  | [_] => rfl
  | b :: b' :: _ =>
    simp only [walk, pair_nodes 2 (by decide)] at hw
    cases b <;> simp [pair_nodes 0 (by decide), pair_nodes 1 (by decide)] at hw

theorem pair_code_97 : IsCode pair 97 [false] := by
  unfold IsCode; rw [pair_root]; exact ⟨0, by decide +kernel, by decide +kernel⟩

theorem pair_code_98 : IsCode pair 98 [true] := by
  unfold IsCode; rw [pair_root]; exact ⟨1, by decide +kernel, by decide +kernel⟩

theorem single_code_97 : IsCode single 97 [false] := by
  unfold IsCode
  have h : (single : State).mem.nodeAt (single : State).root.toNat = .leaf 97 := by decide +kernel
  rw [h]; exact ⟨rfl, rfl⟩

theorem witness_TreeCheckDecidesWellFormed : ∃ s s' : State, TreeWellFormed s ∧ ¬ TreeWellFormed s' :=
  ⟨pair, zeroed, pair_wellFormed, fun h => absurd h.v1.1 (by decide +kernel)⟩

/-- The single-leaf tree, whose code is "0". -/
theorem witness_HuffCodesAssignsPathCodes_single : ∃ s : State, s.cfg.legal = true ∧ TreeWellFormed s
    ∧ (∀ k p, IsCode s k p → p.length ≤ s.cfg.codeMaxLen) ∧ IsCode s 97 [false] := by
  refine ⟨single, by decide, single_wellFormed, fun k p h => ?_, single_code_97⟩
  have hn : (single : State).mem.nodeAt (single : State).root.toNat = .leaf 97 := by decide +kernel
  unfold IsCode at h
  rw [hn] at h
  rw [h.2]; decide

theorem witness_HuffCodesAssignsPathCodes : ∃ s s' : State, s.cfg.legal = true ∧ TreeWellFormed s
    ∧ (∀ k p, IsCode s k p → p.length ≤ s.cfg.codeMaxLen) ∧ s'.cfg.legal = true
    ∧ (after (exec .huffCodes s')).errCode ≠ 0#8 :=
  ⟨pair, zeroed, by decide, pair_wellFormed, fun k p h => by rw [pair_isCode h]; decide, by decide, by decide +kernel⟩

/-- The tree {0: L(97), 1: L(98), 2: L(99), 3: (0, 1), 4: (2, 3)} of section 2.7 with CODE_MAXLEN = 1. -/
def deep : State := withTree [.leaf 97, .leaf 98, .leaf 99, .internal 0 1, .internal 2 3] 4 (zeroed { tiny with codeMaxLen := 1 })

theorem deep_nodes : ∀ i, i < 5 →
    deep.mem.nodeAt i = [Node.leaf 97, .leaf 98, .leaf 99, .internal 0 1, .internal 2 3].getD i (.leaf 0) := by decide +kernel

theorem deep_wellFormed : TreeWellFormed deep where
  v1 := by decide +kernel
  v2 := by decide +kernel
  v3 := by
    intro i l r (hi : i < 5) h
    rw [deep_nodes i hi] at h
    have hn : deep.nodeCount.toNat = 5 := by decide
    rw [hn]
    interval_cases i <;> simp at h <;> omega
  v4root := by decide +kernel
  v4other := by
    have h : ∀ i, i < 5 → i ≠ 4 → parents deep 5 i = 1 := by decide +kernel
    exact h
  v4reach := by
    intro i (hi : i < 5)
    have h4 : deep.mem.nodeAt 4 = .internal 2 3 := deep_nodes 4 (by decide)
    have h3 : deep.mem.nodeAt 3 = .internal 0 1 := deep_nodes 3 (by decide)
    have hr : deep.root.toNat = 4 := by decide
    rw [hr]
    interval_cases i
    · exact .left (.right .here h4) h3
    · exact .right (.right .here h4) h3
    · exact .left .here h4
    · exact .right .here h4
    · exact .here
  v5range := by
    intro i t (hi : i < 5) h
    rw [deep_nodes i hi] at h
    have hn : deep.cfg.dictCap = 260 := rfl
    rw [hn]
    interval_cases i <;> simp at h <;> omega
  v5once := by
    intro i j t (hi : i < 5) (hj : j < 5) h h'
    rw [deep_nodes i hi] at h
    rw [deep_nodes j hj] at h'
    interval_cases i <;> interval_cases j <;> simp_all <;> omega

theorem witness_HuffCodesErrors : ∃ s s' : State, s.cfg.legal = true ∧ ¬ TreeWellFormed s ∧ s'.cfg.legal = true
    ∧ TreeWellFormed s' ∧ ∃ k p, IsCode s' k p ∧ s'.cfg.codeMaxLen < p.length := by
  refine ⟨zeroed, deep, by decide, fun h => absurd h.v1.1 (by decide +kernel), by decide, deep_wellFormed, 98, [true, true], ?_,
    by decide⟩
  unfold IsCode
  have h : deep.mem.nodeAt deep.root.toNat = .internal 2 3 := by decide +kernel
  rw [h]
  exact ⟨1, by decide +kernel, by decide +kernel⟩

theorem witness_HuffCodesPrefixFree : ∃ (s t : State) (e e' : CodeEntry), s.cfg.legal = true ∧ exec .huffCodes s = .next t ∧ t.Succeeded
    ∧ codeEntry? t.code 97 = some e ∧ codeEntry? t.code 98 = some e' :=
  ⟨pair, after (exec .huffCodes pair), ⟨1#7, 0#64⟩, ⟨1#7, 1#64⟩, by decide, exec_after _ _, succeeded_of (by decide +kernel), by decide +kernel,
    by decide +kernel⟩

/-- The state in which ENT_ENC reads the code table of the tree of V5.4, with BIT_CAP = 32. -/
def coded (ts : List Nat) (c : Config := tiny) : State := withToks ts (after (exec .huffCodes (pair (zeroed c))))

theorem witness_EntEncConcatenatesCodes : ∃ (s : State) (ps : List (List Bool)), s.cfg.legal = true
    ∧ s.tokLen.toNat ≤ s.cfg.tokCap ∧ List.Forall₂ (fun k p => codeFor s k = some p) (s.mem.tokens s.tokLen.toNat) ps
    ∧ ps.flatten.length ≤ s.cfg.bitCap ∧ ps ≠ [] := by
  refine ⟨coded [97, 98], [[false], [true]], by decide, by decide +kernel, ?_, by decide +kernel, by simp⟩
  have h : (coded [97, 98]).mem.tokens (coded [97, 98]).tokLen.toNat = [97, 98] := by decide +kernel
  rw [h]
  exact .cons (by decide +kernel) (.cons (by decide +kernel) .nil)

theorem witness_EntEncFirstErrorReported_tok : ∃ s : State, s.cfg.tokCap < s.tokLen.toNat :=
  ⟨{ coded [] with tokLen := 9#32 }, by decide +kernel⟩

/-- An unknown token after a known one. -/
theorem witness_EntEncFirstErrorReported_unknown : ∃ (s : State) (ps : List (List Bool)) (ks : List Nat), s.cfg.legal = true
    ∧ s.tokLen.toNat ≤ s.cfg.tokCap ∧ s.mem.tokens s.tokLen.toNat = ks ++ 99 :: []
    ∧ List.Forall₂ (fun k p => codeFor s k = some p) ks ps ∧ ps.flatten.length ≤ s.cfg.bitCap ∧ codeFor s 99 = none :=
  ⟨coded [97, 99], [[false]], [97], by decide, by decide +kernel, by decide +kernel, .cons (by decide +kernel) .nil,
    by decide +kernel, by decide +kernel⟩

theorem ones_forall₂ (s : State) (h : codeFor s 98 = some [true]) : ∀ n,
    List.Forall₂ (fun k p => codeFor s k = some p) (List.replicate n 98) (List.replicate n [true])
  | 0 => .nil
  | n + 1 => .cons h (ones_forall₂ s h n)

/-- 33 tokens of one bit with BIT_CAP = 32. -/
theorem witness_EntEncFirstErrorReported_bits : ∃ (s : State) (ps : List (List Bool)) (ks : List Nat), s.cfg.legal = true
    ∧ s.tokLen.toNat ≤ s.cfg.tokCap ∧ s.mem.tokens s.tokLen.toNat = ks ++ 98 :: []
    ∧ List.Forall₂ (fun k p => codeFor s k = some p) ks ps ∧ ps.flatten.length ≤ s.cfg.bitCap
    ∧ codeFor s 98 = some [true] ∧ s.cfg.bitCap < ps.flatten.length + [true].length :=
  ⟨coded (List.replicate 33 98) { tiny with bitCap := 32, tokCap := 40 }, List.replicate 32 [true], List.replicate 32 98,
    by decide, by decide +kernel, by decide +kernel, ones_forall₂ _ (by decide +kernel) 32, by decide +kernel,
    by decide +kernel, by decide +kernel⟩

/-! The notions of the held tree depend on NODE_COUNT, ROOT, NODE and DICT_CAP alone. -/

section Same
variable {s t : State} (hc : t.cfg.dictCap = s.cfg.dictCap) (hm : t.mem.node = s.mem.node)

theorem nodeAt_same (hm : t.mem.node = s.mem.node) : t.mem.nodeAt = s.mem.nodeAt := by
  funext i; simp [Memory.nodeAt, Memory.read, Memory.get, hm]

include hm

theorem parents_same (n i : Nat) : parents t n i = parents s n i := by
  have hl : hasLeft t i = hasLeft s i := by funext j; simp [hasLeft, nodeAt_same hm]
  have hr : hasRight t i = hasRight s i := by funext j; simp [hasRight, nodeAt_same hm]
  rw [parents, parents, hl, hr]

theorem reaches_same {i j : Nat} (h : Reaches s i j) : Reaches t i j := by
  induction h with
  | here => exact .here
  | left _ e ih => exact .left ih (by rw [nodeAt_same hm]; exact e)
  | right _ e ih => exact .right ih (by rw [nodeAt_same hm]; exact e)

theorem walk_same (p : List Bool) : ∀ i, walk t i p = walk s i p := by
  induction p with
  | nil => exact fun _ => rfl
  | cons b bs ih => intro i; simp [walk, nodeAt_same hm, ih]

theorem isCode_same (hr : t.root = s.root) {k : Nat} {p : List Bool} (h : IsCode s k p) : IsCode t k p := by
  simpa [IsCode, nodeAt_same hm, walk_same hm, hr] using h

include hc

theorem wellFormed_same (hn : t.nodeCount = s.nodeCount) (hr : t.root = s.root) (h : TreeWellFormed s) : TreeWellFormed t where
  v1 := by rw [hn, Config.nodeCap, hc]; exact h.v1
  v2 := by rw [hn, hr]; exact h.v2
  v3 := by rw [hn, nodeAt_same hm]; exact h.v3
  v4root := by rw [hn, hr, parents_same hm]; exact h.v4root
  v4other := by intro i hi ne; rw [hn, parents_same hm]; exact h.v4other i (hn ▸ hi) (hr ▸ ne)
  v4reach := by rw [hn, hr]; exact fun i hi => reaches_same hm (h.v4reach i hi)
  v5range := by rw [hn, nodeAt_same hm, hc]; exact h.v5range
  v5once := by rw [hn, nodeAt_same hm]; exact h.v5once

end Same

theorem bits_node (bs : List Bool) (s : State) : (withBits bs s).mem.node = s.mem.node :=
  Memory.get_writeFrom_ne s.mem (b := .bits) (b' := .node) 0 _ (by decide)

theorem pair_node (c : Config) : (pair (zeroed c)).mem.node = pair.mem.node := rfl

theorem pair_wf (t : State) (hc : t.cfg.dictCap = 260) (hm : t.mem.node = pair.mem.node) (hn : t.nodeCount = 3#32)
    (hr : t.root = 2#32) : TreeWellFormed t := wellFormed_same (s := pair) hc hm hn hr pair_wellFormed

theorem pair_bits_isCode (bs : List Bool) (c : Config) {k : Nat} {p : List Bool} (h : IsCode pair k p) :
    IsCode (withBits bs (pair (zeroed c))) k p :=
  isCode_same (t := withBits bs (pair (zeroed c))) ((bits_node bs (pair (zeroed c))).trans (pair_node c)) rfl h

/-- Two tokens, and room for exactly two. -/
theorem witness_EntDecDecodesConcatenatedCodes : ∃ (s : State) (ts : List Nat) (ps : List (List Bool)), s.cfg.legal = true
    ∧ TreeWellFormed s ∧ s.bitLen.toNat ≤ s.cfg.bitCap ∧ List.Forall₂ (IsCode s) ts ps
    ∧ s.mem.stream s.bitLen.toNat = ps.flatten ∧ ts.length = s.cfg.tokCap :=
  ⟨withBits [false, true] (pair (zeroed { tiny with tokCap := 2 })), [97, 98], [[false], [true]], by decide,
    pair_wf _ rfl (bits_node _ _) rfl rfl, by decide +kernel,
    .cons (pair_bits_isCode _ _ pair_code_97)
      (.cons (pair_bits_isCode _ _ pair_code_98) .nil), by decide +kernel, by decide⟩

/-- The two length and tree checks: 65 bits with BIT_CAP = 64; no tree. -/
theorem witness_EntDecErrors_checks : ∃ s s' : State, s.cfg.legal = true ∧ s.cfg.bitCap < s.bitLen.toNat
    ∧ s'.cfg.legal = true ∧ s'.bitLen.toNat ≤ s'.cfg.bitCap ∧ ¬ TreeWellFormed s' :=
  ⟨{ zeroed with bitLen := 65#32 }, zeroed, by decide, by decide +kernel, by decide, by decide +kernel,
    fun h => absurd h.v1.1 (by decide +kernel)⟩

/-- Tree T1 with the stream "01" and TOK_CAP = 1: the bad code comes before the full token buffer. -/
theorem witness_EntDecErrors_badCode : ∃ s : State, s.cfg.legal = true ∧ TreeWellFormed s ∧ s.bitLen.toNat ≤ s.cfg.bitCap
    ∧ s.mem.nodeAt s.root.toNat = .leaf 97 ∧ 1 < s.bitLen.toNat ∧ 1 = s.cfg.tokCap
    ∧ (∀ q, q < 1 → s.mem.streamBit q = false) ∧ s.mem.streamBit 1 = true :=
  ⟨withBits [false, true] (single (zeroed { tiny with tokCap := 1 })), by decide,
    wellFormed_same (s := single) rfl (bits_node _ _) rfl rfl single_wellFormed, by decide +kernel, by decide +kernel,
    by decide +kernel, by decide, by decide +kernel, by decide +kernel⟩

/-- T3 of section 2.7 with "01101". -/
theorem witness_EntDecErrors_truncated : ∃ (s : State) (ts : List Nat) (ps : List (List Bool)) (q : List Bool),
    s.cfg.legal = true ∧ TreeWellFormed s ∧ s.bitLen.toNat ≤ s.cfg.bitCap ∧ List.Forall₂ (IsCode s) ts ps
    ∧ s.mem.stream s.bitLen.toNat = ps.flatten ++ q ∧ ts.length ≤ s.cfg.tokCap ∧ q ≠ [] ∧ ps.flatten.length = 4
    ∧ ∃ x l r, walk s s.root.toNat q = some x ∧ s.mem.nodeAt x = .internal l r := by
  let s := withBits [false, true, true, false, true] deep
  have hr : s.mem.nodeAt s.root.toNat = .internal 2 3 := by decide +kernel
  have h99 : IsCode s 99 [false] := by
    unfold IsCode; rw [hr]; exact ⟨2, by decide +kernel, by decide +kernel⟩
  have h98 : IsCode s 98 [true, true] := by
    unfold IsCode; rw [hr]; exact ⟨1, by decide +kernel, by decide +kernel⟩
  exact ⟨s, [99, 98, 99], [[false], [true, true], [false]], [true], by decide,
    wellFormed_same (s := deep) rfl (bits_node _ _) rfl rfl deep_wellFormed, by decide +kernel,
    .cons h99 (.cons h98 (.cons h99 .nil)), by decide +kernel, by decide, by decide, by decide, 3, 0, 1, by decide +kernel,
    by decide +kernel⟩

/-- Two tokens with TOK_CAP = 1. -/
theorem witness_EntDecErrors_tok : ∃ (s : State) (ts : List Nat) (ps : List (List Bool)) (q : List Bool),
    s.cfg.legal = true ∧ TreeWellFormed s ∧ s.bitLen.toNat ≤ s.cfg.bitCap ∧ List.Forall₂ (IsCode s) ts ps
    ∧ s.mem.stream s.bitLen.toNat = ps.flatten ++ q ∧ ts.length = s.cfg.tokCap + 1 :=
  ⟨withBits [false, true] (pair (zeroed { tiny with tokCap := 1 })), [97, 98], [[false], [true]], [], by decide,
    pair_wf _ rfl (bits_node _ _) rfl rfl, by decide +kernel,
    .cons (pair_bits_isCode _ _ pair_code_97)
      (.cons (pair_bits_isCode _ _ pair_code_98) .nil), by decide +kernel, by decide⟩

theorem witness_EntropyRoundTrip : ∃ s c s1 s2 : State, s.cfg.legal = true ∧ exec .huffCodes s = .next c ∧ c.Succeeded
    ∧ s1.cfg = c.cfg ∧ s1.mem.node = c.mem.node ∧ s1.nodeCount = c.nodeCount ∧ s1.root = c.root ∧ s1.code = c.code
    ∧ exec .entEnc s1 = .next s2 ∧ s2.Succeeded ∧ s2.bitLen.toNat = 3 :=
  ⟨pair, after (exec .huffCodes pair), coded [97, 98, 97], after (exec .entEnc (coded [97, 98, 97])), by decide, exec_after _ _,
    succeeded_of (by decide +kernel), by decide +kernel, by decide +kernel, by decide +kernel, by decide +kernel,
    by decide +kernel, exec_after _ _, succeeded_of (by decide +kernel), by decide +kernel⟩

/-- Three symbols, with the least TOK_CAP, DICT_CAP and CODE_MAXLEN the statement allows. -/
theorem witness_CompressSucceeds : ∃ s : State, s.cfg.legal = true ∧ s.symLen.toNat = 3 ∧ 3 ≤ s.cfg.symCap ∧ 3 = s.cfg.tokCap
    ∧ 255 + 3 = s.cfg.dictCap ∧ 3 = s.cfg.codeMaxLen ∧ 3 * 3 ≤ s.cfg.bitCap :=
  ⟨withSyms [97, 98, 97] (zeroed { tiny with tokCap := 3, dictCap := 258, codeMaxLen := 3 }), by decide +kernel⟩

/-! 65 equal symbols: more than any code is long.  They give 11 tokens; the nodes HUFF_BUILD makes have earlier children, so no path
is longer than the root's index. -/

section EarlierChildren
variable {b : State} {n : Nat}

theorem walk_short (hc : ∀ i, i < n → ((b.mem.nodeAt i).children.all fun j => decide (j < i)) = true) (p : List Bool) :
    ∀ i x, i < n → walk b i p = some x → p.length ≤ i := by
  induction p with
  | nil => intro i x _ _; exact Nat.zero_le _
  | cons e es ih =>
    intro i x hi h
    have hc := hc i hi
    unfold walk at h
    split at h
    · rename_i l r hn
      simp only [hn, Node.children, List.all_cons, List.all_nil, Bool.and_true, Bool.and_eq_true, decide_eq_true_eq] at hc
      have := ih _ x (by cases e <;> simp <;> omega) h
      simp only [List.length_cons]
      cases e <;> simp at this <;> omega
    · cases h

theorem isCode_short (hc : ∀ i, i < n + 1 → ((b.mem.nodeAt i).children.all fun j => decide (j < i)) = true)
    (hr : b.root.toNat = n) (hn : 1 ≤ n) {k : Nat} {p : List Bool} (h : IsCode b k p) : p.length ≤ n := by
  unfold IsCode at h
  split at h
  · rw [h.2]; exact hn
  · obtain ⟨x, hw, -⟩ := h
    rw [hr] at hw
    exact walk_short hc p n x (by omega) hw

theorem total_short (hb : ∀ k p, IsCode b k p → p.length ≤ n) {ts : List Nat} {ps : List (List Bool)}
    (h : List.Forall₂ (IsCode b) ts ps) : ps.flatten.length ≤ n * ts.length := by
  induction h with
  | nil => simp
  | cons h _ ih =>
    have := hb _ _ h
    simp only [List.flatten_cons, List.length_append, List.length_cons, Nat.mul_add, Nat.mul_one]
    omega

end EarlierChildren

@[irreducible] def manySymbols : State :=
  withSyms (List.replicate 65 97) (zeroed { tiny with symCap := 65, tokCap := 11, bitCap := 224, dictCap := 266, codeMaxLen := 18 })

@[irreducible] def manyBuilt : State := runInOrder [.lzwEnc, .freqCount, .huffBuild] manySymbols

theorem manyBuilt_children : ∀ i, i < 18 + 1 →
    ((manyBuilt.mem.nodeAt i).children.all fun j => decide (j < i)) = true := by decide +kernel

theorem manyBuilt_root : manyBuilt.root.toNat = 18 := by decide +kernel

theorem manyBuilt_isCode (k : Nat) (p : List Bool) (h : IsCode manyBuilt k p) : p.length ≤ 18 :=
  isCode_short manyBuilt_children manyBuilt_root (by decide) h

@[irreducible] def manyLzw : List Nat × Strings := lzwEncode (manySymbols.mem.symbols manySymbols.symLen.toNat)

theorem manyLzw_tokens : manyLzw.1 = [97, 256, 257, 258, 259, 260, 261, 262, 263, 264, 264] := by decide +kernel

theorem witness_CompressSucceedsWhenCodesFit : ∃ (s : State) (ts : List Nat) (d : Strings) (b : State), s.cfg.legal = true
    ∧ s.symLen.toNat = 65 ∧ 65 ≤ s.cfg.symCap ∧ lzwEncode (s.mem.symbols s.symLen.toNat) = (ts, d)
    ∧ ts.length = s.cfg.tokCap ∧ 255 + ts.length = s.cfg.dictCap
    ∧ b = runInOrder [.lzwEnc, .freqCount, .huffBuild] s
    ∧ (∀ k p, IsCode b k p → p.length ≤ s.cfg.codeMaxLen)
    ∧ ∀ ps, List.Forall₂ (IsCode b) ts ps → ps.flatten.length ≤ s.cfg.bitCap := by
  have hl : manyLzw.1.length = 11 := by rw [manyLzw_tokens]; rfl
  have he : lzwEncode (manySymbols.mem.symbols manySymbols.symLen.toNat) = (manyLzw.1, manyLzw.2) := by rw [manyLzw]
  have hr : manyBuilt = runInOrder [.lzwEnc, .freqCount, .huffBuild] manySymbols := by rw [manyBuilt]
  have hm : manySymbols.cfg.codeMaxLen = 18 := by decide +kernel
  have hb : manySymbols.cfg.bitCap = 224 := by decide +kernel
  refine ⟨manySymbols, manyLzw.1, manyLzw.2, manyBuilt, by decide +kernel, by decide +kernel, by decide +kernel, he, ?_, ?_, hr, ?_, fun ps h => ?_⟩
  · rw [hl]; decide +kernel
  · rw [hl]; decide +kernel
  · rw [hm]; exact manyBuilt_isCode
  · rw [hb]
    refine Nat.le_trans (total_short manyBuilt_isCode h) ?_
    rw [hl]; decide

theorem witness_CompressOfNothingFails : ∃ s : State, s.cfg.legal = true ∧ s.symLen = 0#32 := ⟨zeroed, by decide⟩

theorem witness_DecompressDecodesStream : ∃ (s : State) (ts : List Nat) (ps : List (List Bool)) (out : List Byte) (d : Strings),
    s.cfg.legal = true ∧ TreeWellFormed s ∧ s.bitLen.toNat ≤ s.cfg.bitCap ∧ List.Forall₂ (IsCode s) ts ps
    ∧ s.mem.stream s.bitLen.toNat = ps.flatten ∧ ts.length = s.cfg.tokCap
    ∧ lzwDecode ts = some (out, d) ∧ out.length = s.cfg.symCap ∧ 255 + ts.length ≤ s.cfg.dictCap :=
  ⟨withBits [false, true] (pair (zeroed { tiny with tokCap := 2, symCap := 2 })), [97, 98], [[false], [true]], [97#8, 98#8],
    [[97#8, 98#8]], by decide, pair_wf _ rfl (bits_node _ _) rfl rfl, by decide +kernel,
    .cons (pair_bits_isCode _ _ pair_code_97)
      (.cons (pair_bits_isCode _ _ pair_code_98) .nil), by decide +kernel, by decide,
    by decide +kernel, by decide, by decide⟩

theorem witness_CompositeRoundTrip : ∃ s t : State, s.cfg.legal = true ∧ exec .compress s = .next t ∧ t.Succeeded
    ∧ t.tokLen.toNat = 3 :=
  ⟨withSyms [97, 98, 97, 98] zeroed, after (exec .compress (withSyms [97, 98, 97, 98] zeroed)), by decide, exec_after _ _,
    succeeded_of (by decide +kernel), by decide +kernel⟩

/-- The state after COMPRESS of "ab", with DECOMPRESS accepted. -/
def running : State := (after (exec .compress (withSyms [97, 98] zeroed))).accept 9#32

theorem running_dict : running.dict = [⟨97#32, 98#8, 97#8, 2#32⟩] := by decide +kernel

theorem running_code : running.code = [(97, ⟨1#7, 0#64⟩), (98, ⟨1#7, 1#64⟩)] := by decide +kernel

theorem running_entry {t : Nat} {e : CodeEntry} (h : codeEntry? running.code t = some e) :
    (t = 97 ∧ e = ⟨1#7, 0#64⟩) ∨ (t = 98 ∧ e = ⟨1#7, 1#64⟩) := by
  rw [running_code] at h
  by_cases h97 : t = 97
  · subst h97; exact .inl ⟨rfl, (Option.some.inj h).symm⟩
  · by_cases h98 : t = 98
    · subst h98; exact .inr ⟨rfl, (Option.some.inj h).symm⟩
    · simp [codeEntry?, lookupKey, Ne.symm h97, Ne.symm h98] at h

theorem running_link {j : Nat} {e : DictEntry} (h : running.dict[j]? = some e) : j = 0 ∧ e = ⟨97#32, 98#8, 97#8, 2#32⟩ := by
  rw [running_dict] at h
  match j with
  | 0 => exact ⟨rfl, (Option.some.inj h).symm⟩
  | _ + 1 => simp at h

theorem running_dictOk : running.DictOk where
  next := by decide +kernel
  pre := by intro j e h; obtain ⟨rfl, rfl⟩ := running_link h; decide
  first := by intro j e h; obtain ⟨rfl, rfl⟩ := running_link h; decide +kernel
  length := by intro j e h; obtain ⟨rfl, rfl⟩ := running_link h; decide +kernel

theorem running_codeOk : running.CodeOk where
  rising := by decide +kernel
  token := by intro t e h; rcases running_entry h with ⟨rfl, rfl⟩ | ⟨rfl, rfl⟩ <;> decide +kernel
  len := by intro t e h; rcases running_entry h with ⟨rfl, rfl⟩ | ⟨rfl, rfl⟩ <;> decide +kernel
  bits := by
    intro t e j h hj
    rcases running_entry h with ⟨rfl, rfl⟩ | ⟨rfl, rfl⟩
    · simp
    · have hj : 1 ≤ j := hj
      simp [BitVec.getLsbD_one]; omega

theorem running_flagsOk : running.FlagsOk where
  busy := by decide +kernel
  err := by decide +kernel
  code := by decide +kernel
  ok := by decide +kernel

/-- The premises of StepKeepsConfiguration, StepKeepsMemoryCanonical, StepKeepsFlagsConsistent, StepKeepsDictionaryInvariants and
StepKeepsCodeTableInvariants: the invariant holds of a state with a command latched, both tables filled and every buffer written. -/
theorem witness_StepKeepsInvariant : ∃ s t : State, s.Inv ∧ s.engineNext = some s ∧ step s = .next t ∧ t.symLen = 2#32 :=
  ⟨running, after (step running), ⟨by decide +kernel, by decide +kernel, running_flagsOk, running_dictOk, running_codeOk⟩,
    by decide +kernel, rfl, by decide +kernel⟩

theorem witness_ResetMeetsInvariant : ∃ c : Config, c.legal = true := ⟨tiny, tiny_legal⟩

end Sys2Proof.Tests
end

section
/-! SUPPORT. What holds of the state a stage leaves, successful or failing: the rules for composite commands and completion. -/

namespace Sys2Proof.Machine

/-- `P` holds of the state an outcome leaves, whether the stage reached its end or failed. -/
def StageOutcome.Leaves (P : State → Prop) : StageOutcome → Prop
  | .ok t => P t
  | .failed t _ _ => P t

variable {P : State → Prop} {o : StageOutcome}

@[simp] theorem StageOutcome.leaves_ok {t : State} : (StageOutcome.ok t).Leaves P ↔ P t := Iff.rfl

@[simp] theorem StageOutcome.leaves_failed {t : State} {i : Instr} {e : ErrorKind} :
    (StageOutcome.failed t i e).Leaves P ↔ P t := Iff.rfl

theorem StageOutcome.Leaves.andThen {f : State → StageOutcome} (h : o.Leaves P) (hf : ∀ t, P t → (f t).Leaves P) :
    (o.andThen f).Leaves P := by
  cases o with
  | ok t => exact hf t h
  | failed t i e => exact h

theorem StageOutcome.Leaves.onFailure {f : State → State} (h : o.Leaves P) (hf : ∀ t, P t → P (f t)) :
    (o.onFailure f).Leaves P := by
  cases o with
  | ok t => exact h
  | failed t i e => exact hf t h

/-- What completion keeps, the end of a command keeps (43_control.md R263). -/
theorem StageOutcome.Leaves.finish (h : o.Leaves P) (hc : ∀ t r, P t → P (t.complete r)) : P o.finish := by
  cases o with
  | ok t => exact hc t _ h
  | failed t i e => exact hc t _ h

/-- What every stage of COMPRESS keeps, and clearing BIT_LEN keeps, COMPRESS keeps (43_control.md R265, R266). -/
theorem compressStages_leaves
    (h : ∀ i ∈ [Instr.lzwEnc, .freqCount, .huffBuild, .huffCodes, .entEnc], ∀ t, P t → (commandOutcome i t).Leaves P)
    (hb : ∀ t, P t → P { t with bitLen := 0#32 }) {s : State} (hs : P s) : (compressStages s).Leaves P := by
  have lzw := h .lzwEnc (by simp) s hs
  exact ((((lzw.andThen (h .freqCount (by simp))).andThen (h .huffBuild (by simp))).andThen
    (h .huffCodes (by simp))).andThen (h .entEnc (by simp))).onFailure hb

/-- What both stages of DECOMPRESS keep, and clearing SYM_LEN keeps, DECOMPRESS keeps (43_control.md R265, R267). -/
theorem decompressStages_leaves (h : ∀ i ∈ [Instr.entDec, .lzwDec], ∀ t, P t → (commandOutcome i t).Leaves P)
    (hb : ∀ t, P t → P { t with symLen := 0#32 }) {s : State} (hs : P s) : (decompressStages s).Leaves P :=
  ((h .entDec (by simp) s hs).andThen (h .lzwDec (by simp))).onFailure hb

end Sys2Proof.Machine
end

section
/-! PROOFS. 00_scope.md: the parameters of the block (R10) are no state that a step changes. -/

namespace Sys2Proof.Machine

/-! ### The engine -/

theorem lzwEncStage_cfg (s : State) : (lzwEncStage s).Leaves (·.cfg = s.cfg) := by
  rcases lzwEncStage_cases s with ⟨_, _, _, _, h⟩ | ⟨_, h, _⟩ <;> simp [h]

theorem lzwDecStage_cfg (s : State) : (lzwDecStage s).Leaves (·.cfg = s.cfg) := by
  rcases lzwDecStage_cases s with ⟨_, _, _, _, h⟩ | ⟨_, h, _⟩ <;> simp [h]

theorem freqCountStage_cfg (s : State) : (freqCountStage s).Leaves (·.cfg = s.cfg) := by
  rcases freqCountStage_cases s with ⟨_, _, _, h⟩ | ⟨_, h, _⟩ <;> simp [h]

theorem huffBuildStage_cfg (s : State) : (huffBuildStage s).Leaves (·.cfg = s.cfg) := by
  rcases huffBuildStage_cases s with ⟨_, _, h⟩ | ⟨_, _, h⟩ <;> simp [h]

theorem huffCodesStage_cfg (s : State) : (huffCodesStage s).Leaves (·.cfg = s.cfg) := by
  rcases huffCodesStage_cases s with ⟨_, _, h⟩ | ⟨_, _, h⟩ | ⟨_, h⟩ <;> simp [h]

theorem entEncStage_cfg (s : State) : (entEncStage s).Leaves (·.cfg = s.cfg) := by
  rcases entEncStage_cases s with ⟨_, _, _, h⟩ | ⟨_, h, _⟩ <;> simp [h]

theorem entDecStage_cfg (s : State) : (entDecStage s).Leaves (·.cfg = s.cfg) := by
  rcases entDecStage_cases s with ⟨_, _, _, _, h⟩ | ⟨_, h, _⟩ <;> simp [h]

/-- The composite commands keep the parameters because each of their stages does. -/
theorem commandOutcome_cfg (i : Instr) (s : State) : (commandOutcome i s).Leaves (·.cfg = s.cfg) := by
  cases i with
  | lzwEnc => exact lzwEncStage_cfg s
  | lzwDec => exact lzwDecStage_cfg s
  | freqCount => exact freqCountStage_cfg s
  | huffBuild => exact huffBuildStage_cfg s
  | huffCodes => exact huffCodesStage_cfg s
  | entEnc => exact entEncStage_cfg s
  | entDec => exact entDecStage_cfg s
  | compress =>
    refine compressStages_leaves (P := (·.cfg = s.cfg)) (fun i hi t ht => ?_) (fun _ ht => ht) rfl
    rw [← ht]
    fin_cases hi
    · exact lzwEncStage_cfg t
    · exact freqCountStage_cfg t
    · exact huffBuildStage_cfg t
    · exact huffCodesStage_cfg t
    · exact entEncStage_cfg t
  | decompress =>
    refine decompressStages_leaves (P := (·.cfg = s.cfg)) (fun i hi t ht => ?_) (fun _ ht => ht) rfl
    rw [← ht]
    fin_cases hi
    · exact entDecStage_cfg t
    · exact lzwDecStage_cfg t
  | clear => exact clearAll_cfg s

@[simp] theorem commandOutcome_finish_cfg (i : Instr) (s : State) : (commandOutcome i s).finish.cfg = s.cfg :=
  (commandOutcome_cfg i s).finish fun _ _ ht => ht

theorem engineStep_cfg {s t : State} (h : engineStep s = .next t) : t.cfg = s.cfg := by
  unfold engineStep at h
  split at h
  · rw [exec_eq] at h; cases h; exact commandOutcome_finish_cfg ..
  · cases h; rfl
  · cases h; rfl

/-- The state in which the engine's step begins differs from the one before it in the pending inputs alone. -/
theorem State.engineNext_cfg {s s0 : State} (h : s.engineNext = some s0) : s0.cfg = s.cfg := by
  unfold State.engineNext at h
  split at h
  · split at h
    · cases h; rfl
    · split at h <;> cases h; rfl
    · cases h; rfl
    · cases h
    · cases h
  · cases h

/-! ### The host and the platform -/

@[simp] theorem State.writeReg_cfg (s : State) (r : Reg) (v : Word) : (s.writeReg r v).cfg = s.cfg := by
  cases r <;> rfl

@[simp] theorem State.writeLocation_cfg (s : State) (l : Location) (v : Word) : (s.writeLocation l v).cfg = s.cfg := by
  cases l with
  | reg r => exact s.writeReg_cfg r v
  | word b i => rfl
  | code t field => rfl
  | dict k field => rfl
  | reserved => rfl

@[simp] theorem State.performAt_cfg (s : State) (off : Nat) (k : AccessKind) : (s.performAt off k).cfg = s.cfg := by
  cases k with
  | read => rfl
  | write v => exact s.writeLocation_cfg _ v

@[simp] theorem resetOverAccess_cfg (a : Access) (s : State) : (resetOverAccess a s).cfg = s.cfg := by
  unfold resetOverAccess
  split <;> rfl

end Sys2Proof.Machine

open Sys2Proof.Machine

/-- Settles O54, by the cases of a step: the engine's command, a performed access, an idle turn, and the two resets. -/
theorem stepKeepsConfiguration : Obligations.StepKeepsConfiguration := by
  intro s t h
  rcases step_cases h with ⟨s0, hn, he⟩ | ⟨a, rest, _, _, _, rfl⟩ | ⟨_, ⟨_, rfl⟩ | ⟨rest, _, rfl⟩⟩ | ⟨rest, _, rfl⟩
    | ⟨a, rest, _, rfl⟩
  · exact (engineStep_cfg he).trans (State.engineNext_cfg hn)
  · simp
  · rfl
  · rfl
  · simp
  · simp
end

section
/-! SUPPORT. How a property that every stage keeps becomes one that every command and every step keeps, and which commands
leave the CODE and DICT tables alone (30_encoding.md R105). -/

namespace Sys2Proof.Machine

variable {P Q : State → Prop}

theorem StageOutcome.Leaves.imp {o : StageOutcome} (h : o.Leaves P) (hi : ∀ t, P t → Q t) : o.Leaves Q := by
  cases o with
  | ok t => exact hi t h
  | failed t i e => exact hi t h

theorem StageOutcome.Leaves.and {o : StageOutcome} (hp : o.Leaves P) (hq : o.Leaves Q) : o.Leaves fun t => P t ∧ Q t := by
  cases o with
  | ok t => exact ⟨hp, hq⟩
  | failed t i e => exact ⟨hp, hq⟩

/-- The commands that are one stage, of which the composite commands are made (43_control.md R265). -/
def stageCommands : List Instr := [.lzwEnc, .lzwDec, .freqCount, .huffBuild, .huffCodes, .entEnc, .entDec]

/-- What every stage keeps, and clearing one length or everything keeps, every command keeps. -/
theorem commandOutcome_leaves (h : ∀ i ∈ stageCommands, ∀ t, P t → (commandOutcome i t).Leaves P)
    (hbit : ∀ t, P t → P { t with bitLen := 0#32 }) (hsym : ∀ t, P t → P { t with symLen := 0#32 })
    (hclear : ∀ t, P t → P (clearAll t)) (i : Instr) {s : State} (hs : P s) : (commandOutcome i s).Leaves P := by
  cases i with
  | compress => exact compressStages_leaves (fun i hi => h i (by fin_cases hi <;> decide)) hbit hs
  | decompress => exact decompressStages_leaves (fun i hi => h i (by fin_cases hi <;> decide)) hsym hs
  | clear => exact hclear s hs
  | lzwEnc | lzwDec | freqCount | huffBuild | huffCodes | entEnc | entDec => exact h _ (by decide) s hs

/-- An engine step is the completion of a command or of an illegal word (43_control.md R262, R272). -/
theorem engineStep_cases {s t : State} (h : engineStep s = .next t) :
    (∃ i, decode s.latch = .command i ∧ t = (commandOutcome i s).finish) ∨ t = s.completeIllegal s.latch := by
  unfold engineStep at h
  split at h
  · next i hi => exact .inl ⟨i, hi, by rw [exec_eq] at h; cases h; rfl⟩
  · cases h; exact .inr rfl
  · cases h; exact .inr rfl

/-- The engine has the next turn only with a command latched, and begins from the state before the step but for the inputs
to come. -/
theorem State.engineNext_eq {s s0 : State} (h : s.engineNext = some s0) :
    s.busy = true ∧ ∃ rest, s0 = { s with inputs := rest } := by
  unfold State.engineNext at h
  split at h
  · next hb =>
    refine ⟨hb, ?_⟩
    split at h
    · cases h; exact ⟨s.inputs, rfl⟩
    · split at h <;> cases h; exact ⟨s.inputs, rfl⟩
    · next rest _ => cases h; exact ⟨rest, rfl⟩
    · cases h
    · cases h
  · cases h

/-! ### Properties of the parameters and the tables -/

/-- Whether `P` holds is said by the parameters, CODE and DICT alone. -/
def OfTables (P : State → Prop) : Prop := ∀ s t : State, t.cfg = s.cfg → t.code = s.code → t.dict = s.dict → P s → P t

@[simp] theorem State.writeReg_code (s : State) (r : Reg) (v : Word) : (s.writeReg r v).code = s.code := by
  cases r <;> rfl

@[simp] theorem State.writeReg_dict (s : State) (r : Reg) (v : Word) : (s.writeReg r v).dict = s.dict := by
  cases r <;> rfl

@[simp] theorem State.writeLocation_code (s : State) (l : Location) (v : Word) : (s.writeLocation l v).code = s.code := by
  cases l with
  | reg r => exact s.writeReg_code r v
  | word b i => rfl
  | code t field => rfl
  | dict k field => rfl
  | reserved => rfl

@[simp] theorem State.writeLocation_dict (s : State) (l : Location) (v : Word) : (s.writeLocation l v).dict = s.dict := by
  cases l with
  | reg r => exact s.writeReg_dict r v
  | word b i => rfl
  | code t field => rfl
  | dict k field => rfl
  | reserved => rfl

/-- No access changes CODE: its window is read-only (20_memory.md R73). -/
@[simp] theorem State.performAt_code (s : State) (off : Nat) (k : AccessKind) : (s.performAt off k).code = s.code := by
  cases k with
  | read => rfl
  | write v => exact s.writeLocation_code _ v

/-- No access changes DICT: its window is read-only (20_memory.md R73). -/
@[simp] theorem State.performAt_dict (s : State) (off : Nat) (k : AccessKind) : (s.performAt off k).dict = s.dict := by
  cases k with
  | read => rfl
  | write v => exact s.writeLocation_dict _ v

@[simp] theorem resetOverAccess_code (a : Access) (s : State) : (resetOverAccess a s).code = [] := by
  unfold resetOverAccess
  split <;> rfl

@[simp] theorem resetOverAccess_dict (a : Access) (s : State) : (resetOverAccess a s).dict = [] := by
  unfold resetOverAccess
  split <;> rfl

/-- What a step can do to the tables: the engine has moved, they are as they were, or a reset has emptied them. -/
theorem step_tables {s t : State} (h : step s = .next t) :
    s.engineMoves t ∨ (t.code = s.code ∧ t.dict = s.dict) ∨ (s.resetNext ∧ t.code = [] ∧ t.dict = []) := by
  rcases step_cases h with hm | ⟨a, rest, _, _, _, rfl⟩ | ⟨_, ⟨_, rfl⟩ | ⟨rest, _, rfl⟩⟩ | ⟨rest, hi, rfl⟩
    | ⟨a, rest, hi, rfl⟩
  · exact .inl hm
  · exact .inr (.inl (by simp))
  · exact .inr (.inl ⟨rfl, rfl⟩)
  · exact .inr (.inl ⟨rfl, rfl⟩)
  · exact .inr (.inr ⟨⟨rest, .inl hi⟩, rfl, rfl⟩)
  · exact .inr (.inr ⟨⟨rest, .inr ⟨a, hi⟩⟩, by simp⟩)

/-- A property of the parameters and the tables that every stage keeps in a legal configuration, and that empty tables
have there, every step keeps. -/
theorem step_keeps_legal (hP : OfTables P)
    (hstage : ∀ i ∈ stageCommands, ∀ t : State, t.cfg.legal = true → P t → (commandOutcome i t).Leaves P)
    (hempty : ∀ t : State, t.cfg.legal = true → t.code = [] → t.dict = [] → P t) {s t : State} (hc : s.cfg.legal = true)
    (hs : P s) (h : step s = .next t) : P t := by
  have hcfg : t.cfg = s.cfg := stepKeepsConfiguration s t h
  rcases step_tables h with ⟨s0, hn, he⟩ | ⟨hcode, hdict⟩ | ⟨_, hcode, hdict⟩
  · obtain ⟨_, rest, rfl⟩ := State.engineNext_eq hn
    have hs0 : P { s with inputs := rest } := hP s _ rfl rfl rfl hs
    rcases engineStep_cases he with ⟨i, _, rfl⟩ | rfl
    · have hboth := commandOutcome_leaves (P := fun u => u.cfg.legal = true ∧ P u)
        (fun i hi u hu => ((commandOutcome_cfg i u).imp fun v hv => by rw [hv]; exact hu.1).and (hstage i hi u hu.1 hu.2))
        (fun u hu => ⟨hu.1, hP u _ rfl rfl rfl hu.2⟩) (fun u hu => ⟨hu.1, hP u _ rfl rfl rfl hu.2⟩)
        (fun u hu => ⟨hu.1, hempty (clearAll u) hu.1 rfl rfl⟩) i (s := { s with inputs := rest }) ⟨hc, hs0⟩
      exact (hboth.imp fun _ hu => hu.2).finish fun _ _ => hP _ _ rfl rfl rfl
    · exact hP { s with inputs := rest } _ rfl rfl rfl hs0
  · exact hP s t hcfg hcode hdict hs
  · exact hempty t (by rw [hcfg]; exact hc) hcode hdict

/-! ### The commands that leave a table alone -/

/-- The commands that may change CODE (70_reset_and_hazards.md R351). -/
def codeWriters : List Instr := [.huffCodes, .compress, .clear]

/-- The commands that may change DICT (10_state.md R33). -/
def dictWriters : List Instr := [.lzwEnc, .lzwDec, .compress, .decompress, .clear]

theorem commandOutcome_dict {i : Instr} (hi : i ∉ dictWriters) (s : State) :
    (commandOutcome i s).Leaves (·.dict = s.dict) := by
  cases i with
  | freqCount => rcases freqCountStage_cases s with ⟨_, _, _, h⟩ | ⟨_, h, _⟩ <;> simp [commandOutcome, h]
  | huffBuild => rcases huffBuildStage_cases s with ⟨_, _, h⟩ | ⟨_, _, h⟩ <;> simp [commandOutcome, h]
  | huffCodes => rcases huffCodesStage_cases s with ⟨_, _, h⟩ | ⟨_, _, h⟩ | ⟨_, h⟩ <;> simp [commandOutcome, h]
  | entEnc => rcases entEncStage_cases s with ⟨_, _, _, h⟩ | ⟨_, h, _⟩ <;> simp [commandOutcome, h]
  | entDec => rcases entDecStage_cases s with ⟨_, _, _, _, h⟩ | ⟨_, h, _⟩ <;> simp [commandOutcome, h]
  | lzwEnc | lzwDec | compress | decompress | clear => exact absurd (by decide) hi

theorem lzwDecStage_code (s : State) : (lzwDecStage s).Leaves (·.code = s.code) := by
  rcases lzwDecStage_cases s with ⟨_, _, _, _, h⟩ | ⟨_, h, _⟩ <;> simp [h]

theorem entDecStage_code (s : State) : (entDecStage s).Leaves (·.code = s.code) := by
  rcases entDecStage_cases s with ⟨_, _, _, _, h⟩ | ⟨_, h, _⟩ <;> simp [h]

theorem commandOutcome_code {i : Instr} (hi : i ∉ codeWriters) (s : State) :
    (commandOutcome i s).Leaves (·.code = s.code) := by
  cases i with
  | lzwEnc => rcases lzwEncStage_cases s with ⟨_, _, _, _, h⟩ | ⟨_, h, _⟩ <;> simp [commandOutcome, h]
  | lzwDec => exact lzwDecStage_code s
  | freqCount => rcases freqCountStage_cases s with ⟨_, _, _, h⟩ | ⟨_, h, _⟩ <;> simp [commandOutcome, h]
  | huffBuild => rcases huffBuildStage_cases s with ⟨_, _, h⟩ | ⟨_, _, h⟩ <;> simp [commandOutcome, h]
  | entEnc => rcases entEncStage_cases s with ⟨_, _, _, h⟩ | ⟨_, h, _⟩ <;> simp [commandOutcome, h]
  | entDec => exact entDecStage_code s
  | decompress =>
    refine decompressStages_leaves (P := (·.code = s.code)) (fun i hi t ht => ?_) (fun _ ht => ht) rfl
    rw [← ht]
    fin_cases hi
    · exact entDecStage_code t
    · exact lzwDecStage_code t
  | huffCodes | compress | clear => exact absurd (by decide) hi

end Sys2Proof.Machine
end

section
/-! PROOFS. 10_state.md R33, R47 to R49: the invariants of the dictionary, kept by every insertion, so by both LZW passes and by
every step. -/

namespace Sys2Proof.Machine

/-! ### Bound tokens after an insertion -/

theorem dictFirst_seed (d : List DictEntry) {k : Nat} (hk : k < 256) : dictFirst d k = BitVec.ofNat 8 k := if_pos hk

theorem dictLength_seed (d : List DictEntry) {k : Nat} (hk : k < 256) : dictLength d k = 1 := if_pos hk

theorem dictFirst_stored {d : List DictEntry} {j : Nat} {e : DictEntry} (h : d[j]? = some e) :
    dictFirst d (256 + j) = e.first := by
  simp [dictFirst, h]

theorem dictLength_stored {d : List DictEntry} {j : Nat} {e : DictEntry} (h : d[j]? = some e) :
    dictLength d (256 + j) = e.length.toNat := by
  simp [dictLength, h]

theorem dictFirst_snoc {d : List DictEntry} (e : DictEntry) {k : Nat} (hk : k < dictNext d) :
    dictFirst (d ++ [e]) k = dictFirst d k := by
  unfold dictFirst
  split
  · rfl
  · rw [List.getElem?_append_left (by unfold dictNext at hk; omega)]

theorem dictLength_snoc {d : List DictEntry} (e : DictEntry) {k : Nat} (hk : k < dictNext d) :
    dictLength (d ++ [e]) k = dictLength d k := by
  unfold dictLength
  split
  · rfl
  · rw [List.getElem?_append_left (by unfold dictNext at hk; omega)]

/-- A bound token is a seed or the token of a stored entry (10_state.md R47). -/
theorem bound_cases {d : List DictEntry} {k : Nat} (hk : k < dictNext d) :
    k < 256 ∨ ∃ j e, k = 256 + j ∧ d[j]? = some e := by
  by_cases h : k < 256
  · exact .inl h
  · have hj : k - 256 < d.length := by unfold dictNext at hk; omega
    exact .inr ⟨k - 256, d[k - 256], by omega, List.getElem?_eq_getElem hj⟩

theorem dictNext_stored_lt {d : List DictEntry} {j : Nat} {e : DictEntry} (h : d[j]? = some e) : 256 + j < dictNext d := by
  have := (List.getElem?_eq_some_iff.1 h).1
  unfold dictNext
  omega

theorem seed_bound (d : List DictEntry) {k : Nat} (hk : k < 256) : k < dictNext d := by
  unfold dictNext
  omega

/-! ### What both passes do to the dictionary -/

/-- The encoding pass changes the dictionary only by inserting a pair `(w, x)` with `w` bound that it has looked up in
vain and found room for (40_lzw.md R133, R137). -/
theorem lzwEncFrom_keeps {c : Config} {P : List DictEntry → Prop}
    (hins : ∀ d w x, P d → w < dictNext d → dictNext d < c.dictCap → dictLookup d w x = none → P (d ++ [newEntry d w x]))
    {xs : List Byte} {w n : Nat} {d d' : List DictEntry} {ts : List Nat} (hw : w < dictNext d) (hd : P d)
    (h : lzwEncFrom c xs w n d = .ok (ts, d')) : P d' := by
  induction xs generalizing w n d ts with
  | nil =>
    simp only [lzwEncFrom] at h
    split at h
    · cases h
    · cases h; exact hd
  | cons x xs ih =>
    simp only [lzwEncFrom] at h
    split at h
    · next k hk =>
      obtain ⟨j, e, rfl, he, -, -⟩ := dictLookup_eq_some hk
      exact ih (dictNext_stored_lt he) hd h
    · next hnone =>
      split at h
      · cases h
      · split at h
        · cases h
        · next d1 hd1 =>
          obtain ⟨hroom, rfl⟩ := dictInsert_eq_ok_iff.1 hd1
          split at h
          · cases h
          · next hr => cases h; exact ih (seed_bound _ x.isLt) (hins d w x hd hw hroom hnone) hr

/-- The decoding pass changes the dictionary only by inserting a pair of a bound token and a symbol for which it has room
(40_lzw.md R137, R141). -/
theorem lzwDecFrom_keeps {c : Config} {P : List DictEntry → Prop}
    (hins : ∀ d p x, P d → p < dictNext d → dictNext d < c.dictCap → P (d ++ [newEntry d p x]))
    {ks : List Nat} {i prev n : Nat} {d d' : List DictEntry} {out : List Byte} (hp : prev < dictNext d) (hd : P d)
    (h : lzwDecFrom c ks i prev n d = .ok (out, d')) : P d' := by
  induction ks generalizing i prev n d out with
  | nil => cases h; exact hd
  | cons k ks ih =>
    simp only [lzwDecFrom] at h
    split at h
    · cases h
    · next entry hentry =>
      have hk : k ≤ dictNext d := by
        by_contra hc
        simp [lzwDecEntry, show ¬ k < dictNext d by omega, show k ≠ dictNext d by omega] at hentry
      split at h
      · cases h
      · split at h
        · cases h
        · next d1 hd1 =>
          obtain ⟨hroom, rfl⟩ := dictInsert_eq_ok_iff.1 hd1
          split at h
          · cases h
          · next hr => cases h; exact ih (by rw [dictNext_snoc]; omega) (hins d prev _ hd hp hroom) hr

theorem lzwEncPass_keeps {c : Config} {P : List DictEntry → Prop} (hnil : P [])
    (hins : ∀ d w x, P d → w < dictNext d → dictNext d < c.dictCap → dictLookup d w x = none → P (d ++ [newEntry d w x]))
    {xs : List Byte} {d : List DictEntry} {ts : List Nat} (h : lzwEncPass c xs = .ok (ts, d)) : P d := by
  cases xs with
  | nil => cases h; exact hnil
  | cons x xs => exact lzwEncFrom_keeps hins (seed_bound [] x.isLt) hnil h

theorem lzwDecPass_keeps {c : Config} {P : List DictEntry → Prop} (hnil : P [])
    (hins : ∀ d p x, P d → p < dictNext d → dictNext d < c.dictCap → P (d ++ [newEntry d p x]))
    {ks : List Nat} {d : List DictEntry} {out : List Byte} (h : lzwDecPass c ks = .ok (out, d)) : P d := by
  cases ks with
  | nil => cases h; exact hnil
  | cons k ks =>
    simp only [lzwDecPass] at h
    split at h
    · cases h
    · split at h
      · cases h
      · split at h
        · cases h
        · next hseed _ _ _ hr => cases h; exact lzwDecFrom_keeps hins (seed_bound [] (by omega)) hnil hr

/-! ### The invariant -/

/-- The dictionary invariants said of every bound token, seeds included, with the bound on the length that keeps LENGTH
within its 32 bits. -/
structure DictionaryOk (cap : Nat) (d : List DictEntry) : Prop where
  next : dictNext d ≤ cap
  pre : PrefixesOk d
  first : ∀ k, k < dictNext d → (dictString d k).head? = some (dictFirst d k)
  length : ∀ k, k < dictNext d → (dictString d k).length = dictLength d k
  short : ∀ k, k < dictNext d → dictLength d k ≤ k + 1

theorem dictionaryOk_nil {cap : Nat} (h : 256 ≤ cap) : DictionaryOk cap [] where
  next := h
  pre := prefixesOk_nil
  first k hk := by rw [dictString_seed [] hk, dictFirst_seed [] hk]; rfl
  length k hk := by rw [dictString_seed [] hk, dictLength_seed [] hk]; rfl
  short k hk := by rw [dictLength_seed [] hk]; omega

/-- An insertion after a bound token keeps the invariants (40_lzw.md R137). -/
theorem DictionaryOk.insert {cap p : Nat} {d : List DictEntry} (h : DictionaryOk cap d) (c : Byte) (hp : p < dictNext d)
    (hroom : dictNext d < cap) (hcap : cap ≤ 2 ^ 16) : DictionaryOk cap (d ++ [newEntry d p c]) := by
  have hstr := dictString_snoc_new h.pre c hp (by omega)
  have hentry : (d ++ [newEntry d p c])[d.length]? = some (newEntry d p c) := List.getElem?_concat_length
  have hfirst : dictFirst (d ++ [newEntry d p c]) (dictNext d) = dictFirst d p := dictFirst_stored hentry
  have hlength : dictLength (d ++ [newEntry d p c]) (dictNext d) = dictLength d p + 1 := by
    have := h.short p hp
    refine (dictLength_stored hentry).trans ?_
    simp only [newEntry, BitVec.toNat_ofNat]
    omega
  have hsplit : ∀ k, k < dictNext (d ++ [newEntry d p c]) → k < dictNext d ∨ k = dictNext d := by
    intro k hk
    rw [dictNext_snoc] at hk
    omega
  constructor
  case next => rw [dictNext_snoc]; omega
  case pre => exact h.pre.snoc (by simp only [newEntry, BitVec.toNat_ofNat]; omega)
  case first =>
    intro k hk
    rcases hsplit k hk with hk | rfl
    · rw [dictString_snoc h.pre _ hk, dictFirst_snoc _ hk, h.first k hk]
    · rw [hstr, hfirst, List.head?_append, h.first p hp]; rfl
  case length =>
    intro k hk
    rcases hsplit k hk with hk | rfl
    · rw [dictString_snoc h.pre _ hk, dictLength_snoc _ hk, h.length k hk]
    · rw [hstr, hlength, List.length_append, h.length p hp]; rfl
  case short =>
    intro k hk
    rcases hsplit k hk with hk | rfl
    · rw [dictLength_snoc _ hk]; exact h.short k hk
    · have := h.short p hp
      omega

theorem Config.dictCap_range {c : Config} (h : c.legal = true) : 256 ≤ c.dictCap ∧ c.dictCap ≤ 2 ^ 16 := by
  simp only [Config.legal, Bool.and_eq_true, decide_eq_true_eq] at h
  omega

theorem lzwEncPass_dictionaryOk {c : Config} (hc : c.legal = true) {xs : List Byte} {d : List DictEntry} {ts : List Nat}
    (h : lzwEncPass c xs = .ok (ts, d)) : DictionaryOk c.dictCap d := by
  obtain ⟨hlow, hhigh⟩ := Config.dictCap_range hc
  exact lzwEncPass_keeps (dictionaryOk_nil hlow) (fun d w x hd hw hroom _ => hd.insert x hw hroom hhigh) h

theorem lzwDecPass_dictionaryOk {c : Config} (hc : c.legal = true) {ks : List Nat} {d : List DictEntry} {out : List Byte}
    (h : lzwDecPass c ks = .ok (out, d)) : DictionaryOk c.dictCap d := by
  obtain ⟨hlow, hhigh⟩ := Config.dictCap_range hc
  exact lzwDecPass_keeps (dictionaryOk_nil hlow) (fun d p x hd hp hroom => hd.insert x hp hroom hhigh) h

/-! ### Every step -/

theorem DictionaryOk.dictOk {s : State} (h : DictionaryOk s.cfg.dictCap s.dict) : s.DictOk where
  next := h.next
  pre := h.pre
  first j e he := by rw [h.first _ (dictNext_stored_lt he), dictFirst_stored he]
  length j e he := by rw [h.length _ (dictNext_stored_lt he), dictLength_stored he]

theorem State.DictOk.congr {s t : State} (h : s.DictOk) (hcfg : t.cfg = s.cfg) (hdict : t.dict = s.dict) : t.DictOk where
  next := by rw [State.dictNext, hcfg, hdict]; exact h.next
  pre := by rw [hdict]; exact h.pre
  first := by rw [hdict]; exact h.first
  length := by rw [hdict]; exact h.length

theorem State.dictOk_of_empty {s : State} (hc : s.cfg.legal = true) (hd : s.dict = []) : s.DictOk :=
  DictionaryOk.dictOk (by rw [hd]; exact dictionaryOk_nil (Config.dictCap_range hc).1)

theorem lzwEncStage_dictOk {s : State} (hc : s.cfg.legal = true) : (lzwEncStage s).Leaves State.DictOk := by
  rcases lzwEncStage_cases s with ⟨ts, d, _, hpass, h⟩ | ⟨e, h, _⟩
  · rw [h]; exact DictionaryOk.dictOk (lzwEncPass_dictionaryOk hc hpass)
  · rw [h]; exact State.dictOk_of_empty hc rfl

theorem lzwDecStage_dictOk {s : State} (hc : s.cfg.legal = true) : (lzwDecStage s).Leaves State.DictOk := by
  rcases lzwDecStage_cases s with ⟨out, d, _, hpass, h⟩ | ⟨e, h, _⟩
  · rw [h]; exact DictionaryOk.dictOk (lzwDecPass_dictionaryOk hc hpass)
  · rw [h]; exact State.dictOk_of_empty hc rfl

/-- A stage keeps the dictionary invariants: the two LZW stages make a new dictionary, the others leave it alone. -/
theorem commandOutcome_dictOk {i : Instr} (hi : i ∈ stageCommands) {s : State} (hc : s.cfg.legal = true) (hd : s.DictOk) :
    (commandOutcome i s).Leaves State.DictOk := by
  have frame : i ∉ dictWriters → (commandOutcome i s).Leaves State.DictOk := fun hn =>
    ((commandOutcome_cfg i s).and (commandOutcome_dict hn s)).imp fun _ ⟨hcfg, hdict⟩ => hd.congr hcfg hdict
  cases i with
  | lzwEnc => exact lzwEncStage_dictOk hc
  | lzwDec => exact lzwDecStage_dictOk hc
  | freqCount | huffBuild | huffCodes | entEnc | entDec => exact frame (by decide)
  | compress | decompress | clear => exact absurd hi (by decide)

/-! ### Different tokens stand for different strings -/

/-- Two bound tokens with the same string are the same token (10_state.md R49 (d)). -/
def StringsDiffer (d : List DictEntry) : Prop :=
  ∀ j k, j < dictNext d → k < dictNext d → dictString d j = dictString d k → j = k

theorem stringsDiffer_nil : StringsDiffer [] := by
  intro j k hj hk h
  simp only [dictNext_nil] at hj hk
  rw [dictString_seed [] hj, dictString_seed [] hk, List.cons.injEq] at h
  have := congrArg BitVec.toNat h.1
  simp only [BitVec.toNat_ofNat] at this
  omega

/-- The string of a pair that is looked up in vain is no bound token's: a seed's string is too short, and a stored
entry's has another PREFIX or another last symbol. -/
theorem dictString_ne_of_dictLookup_eq_none {cap p j : Nat} {d : List DictEntry} {c : Byte} (h : DictionaryOk cap d)
    (hinj : StringsDiffer d) (hp : p < dictNext d) (hnone : dictLookup d p c = none) (hj : j < dictNext d) :
    dictString d j ≠ dictString d p ++ [c] := by
  intro heq
  rcases bound_cases hj with hseed | ⟨i, e, rfl, he⟩
  · have hne : dictString d p ≠ [] := by
      intro hnil
      have := h.first p hp
      rw [hnil] at this
      cases this
    have hlen := congrArg List.length heq
    rw [dictString_seed d hseed, List.length_append, List.length_singleton, List.length_singleton] at hlen
    have := List.length_pos_iff.2 hne
    omega
  · rw [dictString_stored h.pre he] at heq
    obtain ⟨hpre, hsym⟩ := List.append_inj' heq rfl
    have hlt : e.pre.toNat < dictNext d := (h.pre i e he).trans hj
    exact dictLookup_eq_none.1 hnone e (List.mem_of_getElem? he)
      ⟨hinj _ _ hlt hp hpre, List.singleton_inj.1 hsym⟩

theorem StringsDiffer.insert {cap p : Nat} {d : List DictEntry} {c : Byte} (hinj : StringsDiffer d) (h : DictionaryOk cap d)
    (hp : p < dictNext d) (hp32 : p < 2 ^ 32) (hnone : dictLookup d p c = none) :
    StringsDiffer (d ++ [newEntry d p c]) := by
  have hnew := dictString_snoc_new h.pre c hp hp32
  have hold : ∀ {k}, k < dictNext d → dictString (d ++ [newEntry d p c]) k = dictString d k := dictString_snoc h.pre _
  have hne : ∀ {k}, k < dictNext d → dictString d k ≠ dictString d p ++ [c] :=
    dictString_ne_of_dictLookup_eq_none h hinj hp hnone
  intro j k hj hk heq
  rw [dictNext_snoc] at hj hk
  rcases Nat.lt_succ_iff_lt_or_eq.1 hj with hj | rfl <;> rcases Nat.lt_succ_iff_lt_or_eq.1 hk with hk | rfl
  · exact hinj j k hj hk (by rwa [hold hj, hold hk] at heq)
  · exact absurd (by rwa [hold hj, hnew] at heq) (hne hj)
  · exact absurd (by rw [hnew, hold hk] at heq; exact heq.symm) (hne hk)
  · rfl

theorem lzwEncPass_stringsDiffer {c : Config} (hc : c.legal = true) {xs : List Byte} {d : List DictEntry} {ts : List Nat}
    (h : lzwEncPass c xs = .ok (ts, d)) : StringsDiffer d := by
  obtain ⟨hlow, hhigh⟩ := Config.dictCap_range hc
  have hboth : DictionaryOk c.dictCap d ∧ StringsDiffer d :=
    lzwEncPass_keeps (P := fun d => DictionaryOk c.dictCap d ∧ StringsDiffer d) ⟨dictionaryOk_nil hlow, stringsDiffer_nil⟩
      (fun d w x hd hw hroom hnone => ⟨hd.1.insert x hw hroom hhigh, hd.2.insert hd.1 hw (by omega) hnone⟩) h
  exact hboth.2

theorem lzwEncStage_stringsDiffer {s : State} (hc : s.cfg.legal = true) :
    (lzwEncStage s).Leaves fun t => StringsDiffer t.dict := by
  rcases lzwEncStage_cases s with ⟨ts, d, _, hpass, h⟩ | ⟨e, h, _⟩
  · rw [h]; exact lzwEncPass_stringsDiffer hc hpass
  · rw [h]; exact stringsDiffer_nil

end Sys2Proof.Machine

open Sys2Proof.Machine

/-- Settles O57: an insertion keeps the invariants, so both LZW passes do, so every stage and every step does. -/
theorem stepKeepsDictionaryInvariants : Obligations.StepKeepsDictionaryInvariants := by
  intro s t hc hd h
  exact step_keeps_legal (fun _ _ hcfg _ hdict hu => hu.congr hcfg hdict) (fun _ hi _ => commandOutcome_dictOk hi)
    (fun _ hl _ hdict => State.dictOk_of_empty hl hdict) hc hd h

/-- Settles O29: LZW_ENC inserts only strings that it has looked up in vain. -/
theorem lzwEncDictionaryInjective : Obligations.LzwEncDictionaryInjective := by
  intro s t hc h
  have hdiffer : StringsDiffer t.dict := by
    rw [exec_eq] at h
    cases h
    exact (lzwEncStage_stringsDiffer hc).finish (P := fun t => StringsDiffer t.dict) fun _ _ ht => ht
  exact hdiffer
end

section
/-! PROOFS. 10_state.md R33 and 70_reset_and_hazards.md R351: the CODE and DICT tables change only by their commands and by reset. -/

namespace Sys2Proof.Machine

/-- What the tables say and only the commands of a list change, a step changes only by one of those commands or by a reset. -/
theorem step_changes {α : Type} {f : State → α} {writers : List Instr}
    (hf : ∀ s t : State, t.code = s.code → t.dict = s.dict → f t = f s)
    (hcmd : ∀ i, i ∉ writers → ∀ s, (commandOutcome i s).Leaves (f · = f s)) {s t : State} (h : step s = .next t)
    (hne : f t ≠ f s) :
    (∃ i ∈ writers, s.engineNext.isSome = true ∧ decode s.latch = .command i) ∨ s.resetNext := by
  rcases step_tables h with ⟨s0, hn, he⟩ | ⟨hcode, hdict⟩ | ⟨hr, _⟩
  · obtain ⟨_, rest, rfl⟩ := State.engineNext_eq hn
    have hinputs : f { s with inputs := rest } = f s := hf _ _ rfl rfl
    rw [← hinputs] at hne
    rcases engineStep_cases he with ⟨i, hi, rfl⟩ | rfl
    · refine .inl ⟨i, ?_, by rw [hn]; rfl, hi⟩
      by_contra hw
      exact hne ((hcmd i hw _).finish fun u r hu => (hf u (u.complete r) rfl rfl).trans hu)
    · exact (hne (hf _ _ rfl rfl)).elim
  · exact absurd (hf _ _ hcode hdict) hne
  · exact .inr hr

end Sys2Proof.Machine

open Sys2Proof.Machine

/-- Settles O23, by the commands that leave CODE and DICT alone. -/
theorem tablesChangeOnlyByTheirCommands : Obligations.TablesChangeOnlyByTheirCommands := by
  intro s t h
  exact ⟨step_changes (f := State.code) (writers := codeWriters) (fun _ _ hc _ => hc) (fun _ => commandOutcome_code) h,
    step_changes (f := State.dict) (writers := dictWriters) (fun _ _ _ hd => hd) (fun _ => commandOutcome_dict) h⟩
end

section
/-! PROOFS. 10_state.md R46 and 41_huffman.md R195, R199: the invariants of the CODE table, which HUFF_CODES makes from the paths of
a well-formed tree. -/

namespace Sys2Proof.Machine

/-! ### The codes of a tree -/

/-- Every path leads to a leaf of the tree. -/
theorem leaf_mem_of_leafPaths {nds : List Node} {fuel i : Nat} {p : Nat × List Bool} (h : p ∈ leafPaths nds fuel i) :
    Node.leaf p.1 ∈ nds := by
  induction fuel generalizing i p with
  | zero => simp [leafPaths] at h
  | succ fuel ih =>
    simp only [leafPaths] at h
    split at h
    · next t ht =>
      obtain rfl := List.mem_singleton.1 h
      exact List.mem_of_getElem? ht
    · rcases List.mem_append.1 h with h | h
      all_goals
        obtain ⟨q, hq, rfl⟩ := List.mem_map.1 h
        exact ih (p := q) hq
    · cases h

/-- Below an internal node every path has an edge. -/
theorem leafPaths_ne_nil {nds : List Node} {fuel i l r : Nat} (hi : nds[i]? = some (.internal l r)) {p : Nat × List Bool}
    (h : p ∈ leafPaths nds fuel i) : p.2 ≠ [] := by
  cases fuel with
  | zero => simp [leafPaths] at h
  | succ fuel =>
    simp only [leafPaths, hi] at h
    rcases List.mem_append.1 h with h | h
    all_goals
      obtain ⟨q, _, rfl⟩ := List.mem_map.1 h
      exact List.cons_ne_nil _ _

/-- The code of a token is a nonempty path to its leaf (41_huffman.md R195, R198). -/
theorem treeCodes_mem {nds : List Node} {n rt : Nat} {p : Nat × List Bool} (h : p ∈ treeCodes nds n rt) :
    Node.leaf p.1 ∈ nds ∧ p.2 ≠ [] := by
  unfold treeCodes at h
  split at h
  · next t ht =>
    obtain rfl := List.mem_singleton.1 h
    exact ⟨List.mem_of_getElem? ht, List.cons_ne_nil _ _⟩
  · next l r hr => exact ⟨leaf_mem_of_leafPaths h, leafPaths_ne_nil hr h⟩
  · cases h

/-- The leaves of a well-formed tree own tokens below DICT_CAP ((V5) of 41_huffman.md R190). -/
theorem wellFormedTree_leaf_lt {s : State} (h : wellFormedTree s = true) {t : Nat} (ht : Node.leaf t ∈ s.heldNodes) :
    t < s.cfg.dictCap := by
  simp only [wellFormedTree, treeShapeOk, Bool.and_eq_true] at h
  obtain ⟨_, ⟨_, hrange⟩, _⟩ := h
  exact of_decide_eq_true (List.all_eq_true.1 hrange t (List.mem_filterMap.2 ⟨_, ht, rfl⟩))

/-! ### The table that lists them -/

theorem risingKeys_codeTable (cs : List (Nat × List Bool)) : risingKeys (codeTable cs) = true := by
  induction cs with
  | nil => rfl
  | cons p cs ih => exact risingKeys_putKey p.1 (CodeEntry.ofBits p.2) ih

/-- Every entry of the table is made of a listed code of its token. -/
theorem codeEntry?_codeTable {cs : List (Nat × List Bool)} {t : Nat} {e : CodeEntry}
    (h : codeEntry? (codeTable cs) t = some e) : ∃ bs, (t, bs) ∈ cs ∧ e = CodeEntry.ofBits bs := by
  induction cs with
  | nil => cases h
  | cons p cs ih =>
    have hput : codeEntry? (codeTable (p :: cs)) t
        = if t = p.1 then some (CodeEntry.ofBits p.2) else codeEntry? (codeTable cs) t := lookupKey_putKey ..
    rw [hput] at h
    split at h
    · next ht =>
      cases h
      exact ⟨p.2, by simp [ht], rfl⟩
    · obtain ⟨bs, hmem, he⟩ := ih h
      exact ⟨bs, List.mem_cons_of_mem _ hmem, he⟩

theorem CodeEntry.len_ofBits {bs : List Bool} (h : bs.length ≤ 64) : (CodeEntry.ofBits bs).len.toNat = bs.length := by
  simp only [CodeEntry.ofBits, BitVec.toNat_ofNat]
  omega

/-! ### Every step -/

theorem State.CodeOk.congr {s t : State} (h : s.CodeOk) (hcfg : t.cfg = s.cfg) (hcode : t.code = s.code) : t.CodeOk where
  rising := by rw [hcode]; exact h.rising
  token := by rw [hcfg, hcode]; exact h.token
  len := by rw [hcfg, hcode]; exact h.len
  bits := by rw [hcode]; exact h.bits

theorem State.codeOk_of_empty {s : State} (h : s.code = []) : s.CodeOk where
  rising := by rw [h]; rfl
  token := by rw [h]; exact fun _ _ he => nomatch he
  len := by rw [h]; exact fun _ _ he => nomatch he
  bits := by rw [h]; exact fun _ _ _ he => nomatch he

/-- A table of nonempty codes within CODE_MAXLEN, of tokens below DICT_CAP, meets the invariants. -/
theorem State.codeOk_of_codeTable {s : State} {cs : List (Nat × List Bool)} (hc : s.cfg.codeMaxLen ≤ 64)
    (hcode : s.code = codeTable cs) (ht : ∀ p ∈ cs, p.1 < s.cfg.dictCap) (hne : ∀ p ∈ cs, p.2 ≠ [])
    (hmax : ∀ p ∈ cs, p.2.length ≤ s.cfg.codeMaxLen) : s.CodeOk := by
  have entry : ∀ {t e}, codeEntry? s.code t = some e → ∃ bs, (t, bs) ∈ cs ∧ e = CodeEntry.ofBits bs ∧ e.len.toNat = bs.length := by
    intro t e he
    rw [hcode] at he
    obtain ⟨bs, hmem, rfl⟩ := codeEntry?_codeTable he
    exact ⟨bs, hmem, rfl, CodeEntry.len_ofBits ((hmax _ hmem).trans hc)⟩
  constructor
  case rising => rw [hcode]; exact risingKeys_codeTable cs
  case token =>
    intro t e he
    obtain ⟨bs, hmem, -, -⟩ := entry he
    exact ht _ hmem
  case len =>
    intro t e he
    obtain ⟨bs, hmem, -, hlen⟩ := entry he
    rw [hlen]
    exact ⟨List.length_pos_iff.2 (hne _ hmem), hmax _ hmem⟩
  case bits =>
    intro t e j he hj
    obtain ⟨bs, -, rfl, hlen⟩ := entry he
    exact CodeEntry.bits_ofBits_of_le (hlen ▸ hj)

theorem Config.codeMaxLen_le {c : Config} (h : c.legal = true) : c.codeMaxLen ≤ 64 := by
  simp only [Config.legal, Bool.and_eq_true, decide_eq_true_eq] at h
  omega

theorem huffCodesStage_codeOk {s : State} (hc : s.cfg.legal = true) : (huffCodesStage s).Leaves State.CodeOk := by
  rcases huffCodesStage_cases s with ⟨hwf, hmax, h⟩ | ⟨_, _, h⟩ | ⟨_, h⟩
  · rw [h]
    exact State.codeOk_of_codeTable (Config.codeMaxLen_le hc) rfl
      (fun p hp => wellFormedTree_leaf_lt hwf (treeCodes_mem hp).1) (fun p hp => (treeCodes_mem hp).2) hmax
  · rw [h]; exact State.codeOk_of_empty rfl
  · rw [h]; exact State.codeOk_of_empty rfl

/-- A stage keeps the invariants of CODE: HUFF_CODES makes a new table, the others leave it alone. -/
theorem commandOutcome_codeOk {i : Instr} (hi : i ∈ stageCommands) {s : State} (hc : s.cfg.legal = true) (hk : s.CodeOk) :
    (commandOutcome i s).Leaves State.CodeOk := by
  have frame : i ∉ codeWriters → (commandOutcome i s).Leaves State.CodeOk := fun hn =>
    ((commandOutcome_cfg i s).and (commandOutcome_code hn s)).imp fun _ ⟨hcfg, hcode⟩ => hk.congr hcfg hcode
  cases i with
  | huffCodes => exact huffCodesStage_codeOk hc
  | lzwEnc | lzwDec | freqCount | huffBuild | entEnc | entDec => exact frame (by decide)
  | compress | decompress | clear => exact absurd hi (by decide)

end Sys2Proof.Machine

open Sys2Proof.Machine

/-- Settles O58: HUFF_CODES lists nonempty paths to the leaves of a well-formed tree, and no other stage changes CODE. -/
theorem stepKeepsCodeTableInvariants : Obligations.StepKeepsCodeTableInvariants := by
  intro s t hc hk h
  exact step_keeps_legal (fun _ _ hcfg hcode _ hu => hu.congr hcfg hcode) (fun _ hi _ => commandOutcome_codeOk hi)
    (fun _ _ hcode _ => State.codeOk_of_empty hcode) hc hk h
end

section
/-! SUPPORT. The offsets of the registers and of the CODE and DICT windows (10_state.md R35; 20_memory.md R72). -/

namespace Sys2Proof.Machine

/-- The offset of a register in the register page (10_state.md R35). -/
def Reg.offset : Reg → Nat
  | .id => 0x000
  | .cmd => 0x004
  | .status => 0x008
  | .error => 0x00C
  | .errInfo => 0x010
  | .irqEnable => 0x014
  | .symLen => 0x020
  | .tokLen => 0x024
  | .bitLen => 0x028
  | .nodeCount => 0x02C
  | .root => 0x030
  | .dictNext => 0x034
  | .capSym => 0x040
  | .capTok => 0x044
  | .capBit => 0x048
  | .capDict => 0x04C
  | .capCodeLen => 0x050
  | .capNode => 0x054

@[simp] theorem locate_regOffset (c : Config) (r : Reg) : locate c r.offset = .reg r := by cases r <;> rfl

theorem bufferLocation_ne_reg (c : Config) (b : BufId) (i : Nat) (r : Reg) : bufferLocation c b i ≠ .reg r := by
  unfold bufferLocation
  split <;> exact nofun

theorem regAt_eq_some {off : Nat} {r : Reg} (h : regAt off = some r) : off = r.offset := by
  unfold regAt at h
  split at h <;> cases h <;> rfl

/-- A register is located at its own offset only. -/
theorem locate_eq_reg {c : Config} {off : Nat} {r : Reg} (h : locate c off = .reg r) : off = r.offset := by
  by_cases hp : off < 0x100000
  · simp only [locate, if_pos hp] at h
    split at h
    · next hr => cases h; exact regAt_eq_some hr
    · cases h
  · simp only [locate, if_neg hp] at h
    repeat' split at h
    all_goals first | exact absurd h (bufferLocation_ne_reg _ _ _ _) | cases h

theorem locate_code {c : Config} {k f : Nat} (hk : k < c.dictCap) (hc : c.dictCap ≤ 2 ^ 16) (hf : f < 4) :
    locate c (0x500000 + 16 * k + 4 * f) = .code k f := by
  have ht : (0x500000 + 16 * k + 4 * f - 0x500000) / 16 = k := by omega
  have hw : (0x500000 + 16 * k + 4 * f - 0x500000) / 4 % 4 = f := by omega
  unfold locate
  simp only [ht, hw, hk, if_true]
  iterate 5 rw [if_neg (by omega)]
  rw [if_pos (by omega)]

theorem locate_dict {c : Config} {k f : Nat} (hk : k < c.dictCap) (hc : c.dictCap ≤ 2 ^ 16) (hf : f < 4) :
    locate c (0x600000 + 16 * k + 4 * f) = .dict k f := by
  have ht : (0x600000 + 16 * k + 4 * f - 0x600000) / 16 = k := by omega
  have hw : (0x600000 + 16 * k + 4 * f - 0x600000) / 4 % 4 = f := by omega
  unfold locate
  simp only [ht, hw, hk, if_true]
  iterate 6 rw [if_neg (by omega)]
  rw [if_pos (by omega)]

end Sys2Proof.Machine
end

section
/-! PROOFS. 10_state.md R22 to R34: what the register page reads. -/

namespace Sys2Proof.Machine

theorem State.readOffset_reg (s : State) (r : Reg) : s.readOffset r.offset = s.readReg r := by
  rw [State.readOffset, locate_regOffset]; rfl

/-- STATUS is its three flags, packed from bit 0 on (R24). -/
theorem State.statusWord_eq_packBits (s : State) : s.statusWord = BitVec.ofNat 32 (packBits [s.busy, s.done, s.err]) := by
  simp only [State.statusWord, packBits]
  congr 1
  omega

/-- IRQ_ENABLE is its two enables, packed from bit 0 on (R27). -/
theorem State.irqEnableWord_eq_packBits (s : State) : s.irqEnableWord = BitVec.ofNat 32 (packBits [s.doneIe, s.errIe]) := rfl

theorem getLsbD_ofNat_packBits {bs : List Bool} (h : bs.length ≤ 32) (j : Nat) :
    (BitVec.ofNat 32 (packBits bs)).getLsbD j = bs[j]?.getD false := by
  rw [BitVec.getLsbD_ofNat, testBit_packBits]
  by_cases hj : j < 32
  · simp [hj]
  · rw [List.getElem?_eq_none (by omega)]; simp

theorem State.getLsbD_statusWord (s : State) (j : Nat) :
    s.statusWord.getLsbD j
      = ((decide (j = 0) && s.busy) || (decide (j = 1) && s.done) || (decide (j = 2) && s.err)) := by
  rw [State.statusWord_eq_packBits, getLsbD_ofNat_packBits (by simp)]
  match j with
  | 0 | 1 | 2 | j + 3 => simp

theorem State.getLsbD_irqEnableWord (s : State) (j : Nat) :
    s.irqEnableWord.getLsbD j = ((decide (j = 0) && s.doneIe) || (decide (j = 1) && s.errIe)) := by
  rw [State.irqEnableWord_eq_packBits, getLsbD_ofNat_packBits (by simp)]
  match j with
  | 0 | 1 | j + 2 => simp

theorem toNat_append_eq_add {m n : Nat} (x : BitVec m) (y : BitVec n) :
    (x ++ y).toNat = x.toNat * 2 ^ n + y.toNat := by
  rw [BitVec.toNat_append, ← Nat.shiftLeft_add_eq_or_of_lt y.isLt, Nat.shiftLeft_eq]

/-- ERROR reads CODE below STAGE (R25). -/
theorem State.toNat_readReg_error (s : State) : (s.readReg .error).toNat = s.errStage.toNat * 2 ^ 8 + s.errCode.toNat := by
  simp only [State.readReg, toNat_append_eq_add, BitVec.toNat_ofNat, Nat.zero_mod, Nat.zero_mul, Nat.zero_add]

end Sys2Proof.Machine

open Sys2Proof.Machine

/-- Settles O10, register by register. -/
theorem registerPageReads : Obligations.RegisterPageReads := by
  intro s
  have hr := s.readOffset_reg
  exact ⟨hr .id, hr .cmd, fun j => by rw [← s.getLsbD_statusWord]; exact congrArg (·.getLsbD j) (hr .status),
    (congrArg BitVec.toNat (hr .error)).trans s.toNat_readReg_error, hr .errInfo,
    fun j => by rw [← s.getLsbD_irqEnableWord]; exact congrArg (·.getLsbD j) (hr .irqEnable),
    hr .symLen, hr .tokLen, hr .bitLen, hr .nodeCount, hr .root, hr .dictNext, hr .capSym, hr .capTok, hr .capBit,
    hr .capDict, hr .capCodeLen, hr .capNode⟩
end

section
/-! PROOFS. 10_state.md R46, R47: what the CODE and DICT windows read. -/

namespace Sys2Proof.Machine

variable {s : State} {k f : Nat}

theorem State.readOffset_code (hc : s.cfg.legal = true) (hk : k < s.cfg.dictCap) (hf : f < 4) :
    s.readOffset (0x500000 + 16 * k + 4 * f) = s.readCode k f := by
  rw [State.readOffset, locate_code hk (Config.dictCap_range hc).2 hf]; rfl

theorem State.readOffset_dict (hc : s.cfg.legal = true) (hk : k < s.cfg.dictCap) (hf : f < 4) :
    s.readOffset (0x600000 + 16 * k + 4 * f) = s.readDict k f := by
  rw [State.readOffset, locate_dict hk (Config.dictCap_range hc).2 hf]; rfl

/-! ### CODE -/

theorem State.readCode_invalid (h : codeEntry? s.code k = none) (f : Nat) : s.readCode k f = 0#32 := by
  simp [State.readCode, h]

/-- CTRL of a valid entry is VALID in bit 31 above LEN (R46). -/
theorem State.readCode_ctrl {e : CodeEntry} (h : codeEntry? s.code k = some e) :
    s.readCode k 0 = 1#1 ++ 0#24 ++ e.len := by
  simp [State.readCode, h]

theorem ctrl_toNat (len : BitVec 7) : (1#1 ++ 0#24 ++ len : Word).toNat = 2 ^ 31 + len.toNat := by
  simp only [toNat_append_eq_add, BitVec.toNat_ofNat]
  omega

theorem State.readCode_valid_bit (k : Nat) : (s.readCode k 0).getLsbD 31 = (codeEntry? s.code k).isSome := by
  cases h : codeEntry? s.code k with
  | none => rw [State.readCode_invalid h]; rfl
  | some e =>
    have := e.len.isLt
    rw [State.readCode_ctrl h, BitVec.getLsbD, ctrl_toNat, Nat.testBit_two_pow_add_eq, Nat.testBit_lt_two_pow (by omega)]
    rfl

/-- A 64-bit value from its two words (R13). -/
theorem DWord_lo_hi (v : DWord) : v.lo.toNat + 2 ^ 32 * v.hi.toNat = v.toNat := by
  have := v.isLt
  simp only [DWord.lo, DWord.hi, BitVec.extractLsb'_toNat, Nat.shiftRight_eq_div_pow]
  omega

theorem State.readCode_bits {e : CodeEntry} (h : codeEntry? s.code k = some e) :
    (s.readCode k 1).toNat + 2 ^ 32 * (s.readCode k 2).toNat = e.bits.toNat := by
  simp only [State.readCode, h]
  exact DWord_lo_hi e.bits

/-! ### DICT -/

theorem State.readDict_unbound (h : s.dictNext ≤ k) (f : Nat) : s.readDict k f = 0#32 := by
  unfold State.dictNext at h
  have hn : dictEntry? s.dict k = none := by
    rw [dictEntry?, if_neg (by omega), List.getElem?_eq_none (by omega)]
  simp [State.readDict, show ¬ k < 256 by omega, hn]

theorem State.readDict_seed (h : k < 256) :
    s.readDict k 0 = 0xFFFFFFFF#32 ∧ (s.readDict k 1).toNat = k ∧ (s.readDict k 2).toNat = k ∧ s.readDict k 3 = 1#32 := by
  have hk : (BitVec.ofNat 32 k).toNat = k := by rw [BitVec.toNat_ofNat]; omega
  simp only [State.readDict, if_pos h]
  exact ⟨trivial, hk, hk, trivial⟩

theorem State.readDict_stored {e : DictEntry} (hk : 256 ≤ k) (h : s.dict[k - 256]? = some e) :
    s.readDict k 0 = e.pre ∧ (s.readDict k 1).toNat = e.symbol.toNat ∧ (s.readDict k 2).toNat = e.first.toNat
      ∧ s.readDict k 3 = e.length := by
  have he : dictEntry? s.dict k = some e := by rw [dictEntry?, if_neg (by omega), h]
  have hb : ∀ b : Byte, (b.setWidth 32).toNat = b.toNat := fun b => BitVec.toNat_setWidth_of_le (by decide)
  simp only [State.readDict, if_neg (show ¬ k < 256 by omega), he]
  exact ⟨trivial, hb _, hb _, trivial⟩

end Sys2Proof.Machine

open Sys2Proof.Machine

/-- Settles O13: the offsets name the words of the entries, which read by the kind of the entry. -/
theorem tableWindowsRead : Obligations.TableWindowsRead := by
  intro s k hc hk
  have hcode : ∀ f, f < 4 → s.readOffset (0x500000 + 16 * k + 4 * f) = s.readCode k f := fun _ => State.readOffset_code hc hk
  have hdict : ∀ f, f < 4 → s.readOffset (0x600000 + 16 * k + 4 * f) = s.readDict k f := fun _ => State.readOffset_dict hc hk
  have c0 : s.readOffset (0x500000 + 16 * k) = s.readCode k 0 := hcode 0 (by decide)
  have d0 : s.readOffset (0x600000 + 16 * k) = s.readDict k 0 := hdict 0 (by decide)
  have d1 := hdict 1 (by decide)
  have d2 := hdict 2 (by decide)
  have d3 := hdict 3 (by decide)
  refine ⟨?valid, fun e he => ⟨?ctrl, ?bits⟩, fun hn f hf => ?invalid, fun hs => ?seed, fun hu f hf => ?unbound,
    fun e hb he => ?stored⟩
  case valid => rw [c0, State.readCode_valid_bit]
  case ctrl => rw [c0, State.readCode_ctrl he, ctrl_toNat]
  case bits =>
    rw [hcode 1 (by decide), hcode 2 (by decide)]
    exact State.readCode_bits he
  case invalid => rw [hcode f hf, State.readCode_invalid hn]
  case seed => rw [d0, d1, d2, d3]; exact State.readDict_seed hs
  case unbound => rw [hdict f hf, State.readDict_unbound hu]
  case stored => rw [d0, d1, d2, d3]; exact State.readDict_stored hb he
end

section
/-! SUPPORT. What a step can do to the control registers, said once: the engine's completion, the writes to CMD, STATUS and IRQ_ENABLE,
and reset (10_state.md R24 to R27; 43_control.md R260, R263). -/

namespace Sys2Proof.Machine

/-- The control registers and the command latch. -/
structure Control where
  busy : Bool
  done : Bool
  err : Bool
  errCode : Byte
  errStage : Byte
  errInfo : Word
  doneIe : Bool
  errIe : Bool
  latch : Word

/-- The control registers of a state. -/
def State.control (s : State) : Control where
  busy := s.busy
  done := s.done
  err := s.err
  errCode := s.errCode
  errStage := s.errStage
  errInfo := s.errInfo
  doneIe := s.doneIe
  errIe := s.errIe
  latch := s.latch

theorem State.control_eq_iff {s t : State} :
    t.control = s.control ↔ t.busy = s.busy ∧ t.done = s.done ∧ t.err = s.err ∧ t.errCode = s.errCode
      ∧ t.errStage = s.errStage ∧ t.errInfo = s.errInfo ∧ t.doneIe = s.doneIe ∧ t.errIe = s.errIe ∧ t.latch = s.latch := by
  simp [State.control]

/-! ### Completion -/

/-- A stage leaves the control registers alone until completion. -/
theorem stage_control {i : Instr} (hi : i ∈ stageCommands) (s : State) :
    (commandOutcome i s).Leaves (·.control = s.control) := by
  cases i with
  | lzwEnc => rcases lzwEncStage_cases s with ⟨_, _, _, _, h⟩ | ⟨_, h, _⟩ <;> rw [commandOutcome, h] <;> rfl
  | lzwDec => rcases lzwDecStage_cases s with ⟨_, _, _, _, h⟩ | ⟨_, h, _⟩ <;> rw [commandOutcome, h] <;> rfl
  | freqCount => rcases freqCountStage_cases s with ⟨_, _, _, h⟩ | ⟨_, h, _⟩ <;> rw [commandOutcome, h] <;> rfl
  | huffBuild => rcases huffBuildStage_cases s with ⟨_, _, h⟩ | ⟨_, _, h⟩ <;> rw [commandOutcome, h] <;> rfl
  | huffCodes => rcases huffCodesStage_cases s with ⟨_, _, h⟩ | ⟨_, _, h⟩ | ⟨_, h⟩ <;> rw [commandOutcome, h] <;> rfl
  | entEnc => rcases entEncStage_cases s with ⟨_, _, _, h⟩ | ⟨_, h, _⟩ <;> rw [commandOutcome, h] <;> rfl
  | entDec => rcases entDecStage_cases s with ⟨_, _, _, _, h⟩ | ⟨_, h, _⟩ <;> rw [commandOutcome, h] <;> rfl
  | compress | decompress | clear => exact absurd hi (by decide)

theorem commandOutcome_control (i : Instr) (s : State) : (commandOutcome i s).Leaves (·.control = s.control) :=
  commandOutcome_leaves (P := (·.control = s.control))
    (fun _ hi t ht => (stage_control hi t).imp fun _ hu => hu.trans ht) (fun _ ht => ht) (fun _ ht => ht) (fun _ ht => ht) i rfl

/-- A report of a success or of an error (43_control.md R264). -/
def Report.IsOutcome (r : Report) : Prop := r = Report.ok ∨ ∃ stage e, r = Report.failure stage e

/-- `t` is reached by a completion from a state with the control registers of `s`. -/
def State.CompletesAs (s t : State) : Prop :=
  ∃ (u : State) (r : Report), u.control = s.control ∧ r.IsOutcome ∧ t = u.complete r

theorem finish_completes {s : State} {o : StageOutcome} (h : o.Leaves (·.control = s.control)) :
    s.CompletesAs o.finish := by
  cases o with
  | ok t => exact ⟨t, _, h, .inl rfl, finish_ok t⟩
  | failed t i e => exact ⟨t, _, h, .inr ⟨_, _, rfl⟩, finish_failed t i e⟩

theorem engineStep_completes {s t : State} (h : engineStep s = .next t) : s.CompletesAs t := by
  rcases engineStep_cases h with ⟨i, _, rfl⟩ | rfl
  · exact finish_completes (commandOutcome_control i s)
  · exact ⟨s, _, rfl, .inr ⟨_, _, rfl⟩, rfl⟩

/-- What completion writes (43_control.md R263), and the enables it leaves. -/
theorem State.CompletesAs.fields {s t : State} (h : s.CompletesAs t) :
    t.busy = false ∧ t.done = true ∧ t.err = decide (t.errCode ≠ 0#8) ∧ t.doneIe = s.doneIe ∧ t.errIe = s.errIe := by
  obtain ⟨u, r, hu, -, rfl⟩ := h
  obtain ⟨-, -, -, -, -, -, hdie, heie, -⟩ := State.control_eq_iff.1 hu
  exact ⟨rfl, rfl, decide_not.symm, hdie, heie⟩

/-! ### Host accesses -/

/-- The registers whose writes act on the control registers are CMD, STATUS and IRQ_ENABLE. -/
theorem State.writeLocation_control (s : State) (l : Location) (v : Word) :
    (l = .reg .cmd ∧ (s.writeLocation l v).control = (s.accept v).control)
    ∨ (l = .reg .status ∧ (s.writeLocation l v).control = (s.acknowledge v).control)
    ∨ (l = .reg .irqEnable ∧ (s.writeLocation l v).control = (s.setIrqEnable v).control)
    ∨ (s.writeLocation l v).control = s.control := by
  match l with
  | .reg .cmd => exact .inl ⟨rfl, rfl⟩
  | .reg .status => exact .inr (.inl ⟨rfl, rfl⟩)
  | .reg .irqEnable => exact .inr (.inr (.inl ⟨rfl, rfl⟩))
  | .reg .id | .reg .error | .reg .errInfo | .reg .symLen | .reg .tokLen | .reg .bitLen | .reg .nodeCount | .reg .root
  | .reg .dictNext | .reg .capSym | .reg .capTok | .reg .capBit | .reg .capDict | .reg .capCodeLen | .reg .capNode
  | .word _ _ | .code _ _ | .dict _ _ | .reserved => exact .inr (.inr (.inr rfl))

theorem resetOverAccess_control (a : Access) (s : State) : (resetOverAccess a s).control = s.applyReset.control := by
  unfold resetOverAccess
  split <;> rfl

/-! ### The step -/

/-- The ways a step from `s` to `t` can treat the control registers. -/
inductive ControlStep (s t : State) : Prop where
  /-- The engine completes a command. -/
  | completion : s.busy = true → s.engineMoves t → s.CompletesAs t → ControlStep s t
  /-- A write to CMD is performed, which it is only with BUSY = 0. -/
  | accept (v : Word) : s.busy = false → s.writeNext 0x004 v → t.control = (s.accept v).control → ControlStep s t
  /-- A write to STATUS is performed. -/
  | acknowledge (v : Word) : s.writeNext 0x008 v → t.control = (s.acknowledge v).control → ControlStep s t
  /-- A write to IRQ_ENABLE is performed. -/
  | setIrqEnable (v : Word) : s.writeNext 0x014 v → t.control = (s.setIrqEnable v).control → ControlStep s t
  /-- Another access, or the turn of an idle engine. -/
  | unchanged : t.control = s.control → ControlStep s t
  /-- A reset, with or without an access outstanding. -/
  | reset : s.resetNext → t.control = s.applyReset.control → ControlStep s t

/-- A performed access treats the control registers in one of these ways. -/
theorem performed_control {s : State} {a : Access} {rest : List Input} (hi : s.inputs = .access a :: rest)
    (hp : a.proper s.cfg) (hh : s.holds a = false) :
    ControlStep s (State.performAt { s with inputs := rest } (a.addr - s.cfg.base) a.kind) := by
  cases hk : a.kind with
  | read => exact .unchanged rfl
  | write v =>
    have next : ∀ {r : Reg}, locate s.cfg (a.addr - s.cfg.base) = .reg r → s.writeNext r.offset v := fun hr =>
      ⟨rest, a, hi, hp, by have := locate_eq_reg hr; have := hp.1; omega, hk⟩
    rcases State.writeLocation_control { s with inputs := rest } (locate s.cfg (a.addr - s.cfg.base)) v with
      ⟨hl, hw⟩ | ⟨hl, hw⟩ | ⟨hl, hw⟩ | hw
    · refine .accept v ?_ (next hl) hw
      by_contra hb
      have hheld : s.holds a = true := by
        rw [State.holds_iff hp, locate_eq_reg hl]
        exact ⟨by simpa using hb, by simp [unheldOffset, Reg.offset]⟩
      rw [hh] at hheld
      cases hheld
    · exact .acknowledge v (next hl) hw
    · exact .setIrqEnable v (next hl) hw
    · exact .unchanged hw

theorem step_control {s t : State} (h : step s = .next t) : ControlStep s t := by
  rcases step_cases h with hm | ⟨a, rest, hi, hp, hh, rfl⟩ | ⟨_, ⟨_, rfl⟩ | ⟨rest, _, rfl⟩⟩ | ⟨rest, hi, rfl⟩
    | ⟨a, rest, hi, rfl⟩
  · obtain ⟨s0, hn, he⟩ := hm
    obtain ⟨hb, rest, rfl⟩ := State.engineNext_eq hn
    obtain ⟨u, r, hu, hr, ht⟩ := engineStep_completes he
    exact .completion hb ⟨_, hn, he⟩ ⟨u, r, hu, hr, ht⟩
  · exact performed_control hi hp hh
  · exact .unchanged rfl
  · exact .unchanged rfl
  · exact .reset ⟨rest, .inl hi⟩ rfl
  · exact .reset ⟨rest, .inr ⟨a, hi⟩⟩ (resetOverAccess_control a _)

/-- A reset is always performed. -/
theorem step_resetNext {s : State} (h : s.resetNext) : ∃ t, step s = .next t ∧ t.control = s.applyReset.control := by
  obtain ⟨rest, hi | ⟨a, hi⟩⟩ := h
  · exact ⟨State.applyReset { s with inputs := rest }, by simp [step, hi], rfl⟩
  · exact ⟨resetOverAccess a { s with inputs := rest }, by simp [step, hi], resetOverAccess_control a _⟩

/-- A write of a register's offset that is not held is performed on that register. -/
theorem step_writeNext {s : State} {r : Reg} {v : Word} {rest : List Input} (h : s.nextAccess r.offset (.write v) rest)
    (hh : s.busy = false ∨ unheldOffset r.offset) : step s = .next (State.writeReg { s with inputs := rest } r v) := by
  rw [step_nextAccess h hh, State.performAt, State.writeOffset, locate_regOffset]
  rfl

end Sys2Proof.Machine
end

section
/-! PROOFS. 10_state.md R24, R52: a write to STATUS, and the interrupt output after each event of its sources. -/

namespace Sys2Proof.Machine

theorem step_writeStatus {s : State} {v : Word} {rest : List Input} (h : s.nextAccess 0x008 (.write v) rest) :
    step s = .next (State.acknowledge { s with inputs := rest } v) :=
  step_writeNext (r := .status) h (.inr (by simp [unheldOffset, Reg.offset]))

theorem step_writeIrqEnable {s : State} {v : Word} {rest : List Input} (h : s.nextAccess 0x014 (.write v) rest) :
    step s = .next (State.setIrqEnable { s with inputs := rest } v) :=
  step_writeNext (r := .irqEnable) h (.inr (by simp [unheldOffset, Reg.offset]))

theorem step_writeCmd {s : State} {v : Word} {rest : List Input} (hb : s.busy = false)
    (h : s.nextAccess 0x004 (.write v) rest) : step s = .next (State.accept { s with inputs := rest } v) :=
  step_writeNext (r := .cmd) h (.inl hb)

theorem irq_of_not_pending {s : State} (hd : s.done = false) (he : s.err = false) : s.irq = false := by
  simp [State.irq, hd, he]

/-- After a completion DONE is pending, and ERR exactly when the command failed (R263). -/
theorem State.CompletesAs.irq {s t : State} (h : s.CompletesAs t) :
    t.irq = (s.doneIe || (s.errIe && decide (t.errCode ≠ 0#8))) := by
  obtain ⟨-, hdone, herr, hdie, heie⟩ := h.fields
  rw [State.irq, hdone, herr, hdie, heie, Bool.true_and, Bool.and_comm]

end Sys2Proof.Machine

open Sys2Proof.Machine

/-- Settles O14: STATUS is never held, and its write is the acknowledgement. -/
theorem statusWriteOneToClear : Obligations.StatusWriteOneToClear :=
  fun _ _ _ h => step_writeStatus h

/-- Settles O15, event by event. -/
theorem interruptFollowsStatus : Obligations.InterruptFollowsStatus := by
  refine ⟨fun i s => ?completion, fun s v h => ?acknowledgement, fun s v hb h => ?acceptance, fun s v h => ?enable,
    fun s h => ?reset⟩
  case completion => exact ⟨_, exec_eq i s, (finish_completes (commandOutcome_control i s)).irq⟩
  case acknowledgement =>
    obtain ⟨rest, h⟩ := h
    exact ⟨_, step_writeStatus h, by simp [State.irq]⟩
  case acceptance =>
    obtain ⟨rest, h⟩ := h
    exact ⟨_, step_writeCmd hb h, irq_of_not_pending rfl rfl⟩
  case enable =>
    obtain ⟨rest, h⟩ := h
    exact ⟨_, step_writeIrqEnable h, rfl, rfl, rfl⟩
  case reset =>
    obtain ⟨t, ht, hc⟩ := step_resetNext h
    obtain ⟨-, hdone, herr, -⟩ := State.control_eq_iff.1 hc
    exact ⟨t, ht, irq_of_not_pending hdone herr⟩
end

section
/-! PROOFS. 10_state.md R24, R25; 43_control.md R260, R263: STATUS and ERROR stay consistent. -/

namespace Sys2Proof.Machine

theorem State.FlagsOk.congr {s t : State} (h : s.FlagsOk) (hc : t.control = s.control) : t.FlagsOk := by
  obtain ⟨hbusy, hdone, herr, hcode, hstage, hinfo, -, -, -⟩ := State.control_eq_iff.1 hc
  constructor
  case busy => rw [hbusy, hdone, herr]; exact h.busy
  case err => rw [herr, hcode]; exact h.err
  case code => rw [hcode]; exact h.code
  case ok => rw [hcode, hstage, hinfo]; exact h.ok

/-- Every completion with the report of a success or of an error leaves consistent flags, whatever they were. -/
theorem State.flagsOk_complete (u : State) {r : Report} (h : r.IsOutcome) : (u.complete r).FlagsOk where
  busy := nofun
  err := by simp
  code := by
    rcases h with rfl | ⟨stage, e, rfl⟩
    · exact Nat.zero_le _
    · exact e.code_range.2
  ok := by
    rcases h with rfl | ⟨stage, e, rfl⟩
    · exact fun _ => ⟨rfl, rfl⟩
    · exact fun h => absurd h e.code_range.1

theorem State.FlagsOk.accept {s : State} (h : s.FlagsOk) (v : Word) : (s.accept v).FlagsOk where
  busy _ := ⟨rfl, rfl⟩
  err := nofun
  code := h.code
  ok := h.ok

/-- An acknowledgement only clears flags. -/
theorem State.FlagsOk.acknowledge {s : State} (h : s.FlagsOk) (v : Word) : (s.acknowledge v).FlagsOk where
  busy hb := by
    obtain ⟨hdone, herr⟩ := h.busy hb
    simp [hdone, herr]
  err he := h.err (Bool.and_eq_true_iff.1 he).1
  code := h.code
  ok := h.ok

theorem State.FlagsOk.setIrqEnable {s : State} (h : s.FlagsOk) (v : Word) : (s.setIrqEnable v).FlagsOk where
  busy := h.busy
  err := h.err
  code := h.code
  ok := h.ok

theorem State.flagsOk_applyReset (s : State) : s.applyReset.FlagsOk where
  busy := nofun
  err := nofun
  code := Nat.zero_le _
  ok _ := ⟨rfl, rfl⟩

end Sys2Proof.Machine

open Sys2Proof.Machine

/-- Settles O56, by the ways a step can treat the control registers. -/
theorem stepKeepsFlagsConsistent : Obligations.StepKeepsFlagsConsistent := by
  intro s t hs h
  cases step_control h with
  | completion _ _ hc =>
    obtain ⟨u, r, _, hr, rfl⟩ := hc
    exact u.flagsOk_complete hr
  | accept v _ _ hc => exact (hs.accept v).congr hc
  | acknowledge v _ hc => exact (hs.acknowledge v).congr hc
  | setIrqEnable v _ hc => exact (hs.setIrqEnable v).congr hc
  | unchanged hc => exact hs.congr hc
  | reset _ hc => exact s.flagsOk_applyReset.congr hc
end

section
/-! PROOFS. 10_state.md R24 to R27: the control registers change only by their events. -/

namespace Sys2Proof.Machine

variable {s t : State}

theorem ControlStep.busy_set (h : ControlStep s t) (hs : s.busy = false) (ht : t.busy = true) :
    ∃ v, s.writeNext 0x004 v ∧ t.latch = v := by
  cases h with
  | completion hb _ _ => rw [hb] at hs; cases hs
  | accept v _ hw hc => exact ⟨v, hw, congrArg Control.latch hc⟩
  | acknowledge v _ hc | setIrqEnable v _ hc | unchanged hc =>
    have := congrArg Control.busy hc
    simp_all [State.control]
  | reset _ hc => rw [show t.busy = false from congrArg Control.busy hc] at ht; cases ht

theorem ControlStep.busy_cleared (h : ControlStep s t) (hs : s.busy = true) (ht : t.busy = false) :
    s.engineMoves t ∨ s.resetNext := by
  cases h with
  | completion _ hm _ => exact .inl hm
  | reset hr _ => exact .inr hr
  | accept v _ _ hc | acknowledge v _ hc | setIrqEnable v _ hc | unchanged hc =>
    have := congrArg Control.busy hc
    simp_all [State.control]

theorem ControlStep.done_or_err_set (h : ControlStep s t)
    (hs : (s.done = false ∧ t.done = true) ∨ (s.err = false ∧ t.err = true)) : s.engineMoves t := by
  cases h with
  | completion _ hm _ => exact hm
  | accept v _ _ hc | acknowledge v _ hc | setIrqEnable v _ hc | unchanged hc | reset _ hc =>
    obtain ⟨-, hdone, herr, -⟩ := State.control_eq_iff.1 hc
    rcases hs with ⟨hs, ht⟩ | ⟨hs, ht⟩ <;> simp_all [State.applyReset, State.afterReset]

theorem ControlStep.done_cleared (h : ControlStep s t) (hs : s.done = true) (ht : t.done = false) :
    (∃ v, s.writeNext 0x008 v ∧ v.getLsbD 1 = true) ∨ (s.busy = false ∧ ∃ v, s.writeNext 0x004 v) ∨ s.resetNext := by
  cases h with
  | completion _ _ hc => rw [hc.fields.2.1] at ht; cases ht
  | accept v hb hw _ => exact .inr (.inl ⟨hb, v, hw⟩)
  | acknowledge v hw hc =>
    have := congrArg Control.done hc
    exact .inl ⟨v, hw, by simp_all [State.control]⟩
  | setIrqEnable v _ hc | unchanged hc =>
    have := congrArg Control.done hc
    simp_all [State.control]
  | reset hr _ => exact .inr (.inr hr)

/-- With consistent flags no completion clears ERR, which was clear while BUSY = 1. -/
theorem ControlStep.err_cleared (h : ControlStep s t) (hok : s.FlagsOk) (hs : s.err = true) (ht : t.err = false) :
    (∃ v, s.writeNext 0x008 v ∧ v.getLsbD 2 = true) ∨ (s.busy = false ∧ ∃ v, s.writeNext 0x004 v) ∨ s.resetNext := by
  cases h with
  | completion hb _ _ => rw [(hok.busy hb).2] at hs; cases hs
  | accept v hb hw _ => exact .inr (.inl ⟨hb, v, hw⟩)
  | acknowledge v hw hc =>
    have := congrArg Control.err hc
    exact .inl ⟨v, hw, by simp_all [State.control]⟩
  | setIrqEnable v _ hc | unchanged hc =>
    have := congrArg Control.err hc
    simp_all [State.control]
  | reset hr _ => exact .inr (.inr hr)

theorem ControlStep.report_changed (h : ControlStep s t)
    (hne : t.errCode ≠ s.errCode ∨ t.errStage ≠ s.errStage ∨ t.errInfo ≠ s.errInfo) : s.engineMoves t ∨ s.resetNext := by
  cases h with
  | completion _ hm _ => exact .inl hm
  | reset hr _ => exact .inr hr
  | accept v _ _ hc | acknowledge v _ hc | setIrqEnable v _ hc | unchanged hc =>
    obtain ⟨-, -, -, hcode, hstage, hinfo, -⟩ := State.control_eq_iff.1 hc
    simp_all

theorem ControlStep.enables_changed (h : ControlStep s t) (hne : t.doneIe ≠ s.doneIe ∨ t.errIe ≠ s.errIe) :
    (∃ v, s.writeNext 0x014 v) ∨ s.resetNext := by
  cases h with
  | completion _ _ hc =>
    obtain ⟨-, -, -, hdie, heie⟩ := hc.fields
    simp_all
  | setIrqEnable v hw _ => exact .inl ⟨v, hw⟩
  | reset hr _ => exact .inr hr
  | accept v _ _ hc | acknowledge v _ hc | unchanged hc =>
    obtain ⟨-, -, -, -, -, -, hdie, heie, -⟩ := State.control_eq_iff.1 hc
    simp_all

end Sys2Proof.Machine

open Sys2Proof.Machine

/-- Settles O22, register by register over the ways a step can treat them. -/
theorem controlRegistersChangeOnlyByTheirEvents : Obligations.ControlRegistersChangeOnlyByTheirEvents := by
  intro s t h
  have hc := step_control h
  exact ⟨hc.busy_set, hc.busy_cleared, hc.done_or_err_set, hc.done_cleared, hc.err_cleared, hc.report_changed,
    hc.enables_changed⟩
end

section
/-! SUPPORT. The address map of 20_memory.md R72, window by window: what the offsets of each window name, and which offset names a
word of a buffer. -/

namespace Sys2Proof

/-- The offset of a buffer's first word (R72). -/
def BufId.window : BufId → Nat
  | .sym => 0x100000
  | .tok => 0x200000
  | .bits => 0x300000
  | .freq => 0x400000
  | .node => 0x800000

/-- The first offset after a buffer's window (R72). -/
def BufId.windowEnd : BufId → Nat
  | .sym => 0x200000
  | .tok => 0x300000
  | .bits => 0x400000
  | .freq => 0x500000
  | .node => 0xC00000

end Sys2Proof

namespace Sys2Proof.Machine

variable {c : Config} {off i : Nat} {b : BufId}

/-! ### What the offsets of a window name -/

/-- The register page, the five buffer windows, the CODE and DICT windows and the unmapped ranges are all there is (R72, R73). -/
theorem offset_regions (off : Nat) :
    off < 0x100000 ∨ (∃ b : BufId, b.window ≤ off ∧ off < b.windowEnd) ∨ (0x500000 ≤ off ∧ off < 0x600000)
      ∨ (0x600000 ≤ off ∧ off < 0x700000) ∨ (0x700000 ≤ off ∧ off < 0x800000) ∨ 0xC00000 ≤ off := by
  by_cases hsym : 0x100000 ≤ off ∧ off < 0x200000
  · exact .inr (.inl ⟨.sym, hsym⟩)
  by_cases htok : 0x200000 ≤ off ∧ off < 0x300000
  · exact .inr (.inl ⟨.tok, htok⟩)
  by_cases hbits : 0x300000 ≤ off ∧ off < 0x400000
  · exact .inr (.inl ⟨.bits, hbits⟩)
  by_cases hfreq : 0x400000 ≤ off ∧ off < 0x500000
  · exact .inr (.inl ⟨.freq, hfreq⟩)
  by_cases hnode : 0x800000 ≤ off ∧ off < 0xC00000
  · exact .inr (.inl ⟨.node, hnode⟩)
  omega

theorem locate_bufferWindow (hlo : b.window ≤ off) (hhi : off < b.windowEnd) :
    locate c off = bufferLocation c b ((off - b.window) / 4) := by
  cases b <;> simp only [BufId.window, BufId.windowEnd] at hlo hhi ⊢ <;> unfold locate
  case sym => rw [if_neg (by omega), if_pos (by omega)]
  case tok =>
    iterate 2 rw [if_neg (by omega)]
    rw [if_pos (by omega)]
  case bits =>
    iterate 3 rw [if_neg (by omega)]
    rw [if_pos (by omega)]
  case freq =>
    iterate 4 rw [if_neg (by omega)]
    rw [if_pos (by omega)]
  case node =>
    iterate 8 rw [if_neg (by omega)]
    rw [if_pos (by omega)]

theorem locate_codeWindow (hlo : 0x500000 ≤ off) (hhi : off < 0x600000) :
    locate c off = if (off - 0x500000) / 16 < c.dictCap then .code ((off - 0x500000) / 16) ((off - 0x500000) / 4 % 4)
      else .reserved := by
  unfold locate
  iterate 5 rw [if_neg (by omega)]
  rw [if_pos (by omega)]

theorem locate_dictWindow (hlo : 0x600000 ≤ off) (hhi : off < 0x700000) :
    locate c off = if (off - 0x600000) / 16 < c.dictCap then .dict ((off - 0x600000) / 16) ((off - 0x600000) / 4 % 4)
      else .reserved := by
  unfold locate
  iterate 6 rw [if_neg (by omega)]
  rw [if_pos (by omega)]

/-- Two ranges of offsets belong to no window (R73). -/
theorem locate_unmapped (h : (0x700000 ≤ off ∧ off < 0x800000) ∨ 0xC00000 ≤ off) : locate c off = .reserved := by
  unfold locate
  iterate 7 rw [if_neg (by omega)]
  rcases h with h | h
  · rw [if_pos (by omega)]
  · iterate 2 rw [if_neg (by omega)]

/-- An offset of the register page that is no register's is reserved (R73). -/
theorem locate_registerPage (h : off < 0x100000) (hn : ∀ r : Reg, off ≠ r.offset) : locate c off = .reserved := by
  unfold locate
  rw [if_pos h]
  cases hr : regAt off with
  | none => rfl
  | some r => exact absurd (regAt_eq_some hr) (hn r)

/-! ### The words of the buffers -/

/-- The address map names only words inside a buffer's count, and with stored bits (R72, R73). -/
theorem bufferLocation_eq_word {b' : BufId} {j : Nat} (h : bufferLocation c b j = .word b' i) :
    b = b' ∧ j = i ∧ i < wordCount c b' ∧ wordMask b' i ≠ 0#32 := by
  unfold bufferLocation at h
  split at h
  · next hj => cases h; exact ⟨rfl, rfl, hj⟩
  · cases h

/-- A word of a buffer is named by its own offset only. -/
theorem locate_eq_word (h : locate c off = .word b i) :
    i < wordCount c b ∧ wordMask b i ≠ 0#32 ∧ (off % 4 = 0 → off = b.window + 4 * i) := by
  rcases offset_regions off with hr | ⟨b', hlo, hhi⟩ | ⟨hlo, hhi⟩ | ⟨hlo, hhi⟩ | hr
  · simp only [locate, if_pos hr] at h
    split at h <;> cases h
  · rw [locate_bufferWindow hlo hhi] at h
    obtain ⟨rfl, rfl, hlt, hm⟩ := bufferLocation_eq_word h
    have h4 : b'.window % 4 = 0 := by cases b' <;> rfl
    exact ⟨hlt, hm, fun _ => by omega⟩
  · rw [locate_codeWindow hlo hhi] at h
    split at h <;> cases h
  · rw [locate_dictWindow hlo hhi] at h
    split at h <;> cases h
  · rw [locate_unmapped hr] at h
    cases h

theorem window_add_wordCount_le (hc : c.legal = true) (b : BufId) : b.window + 4 * wordCount c b ≤ b.windowEnd := by
  simp only [Config.legal, Bool.and_eq_true, decide_eq_true_eq] at hc
  cases b <;> simp only [BufId.window, BufId.windowEnd, wordCount, Config.nodeCap] <;> omega

/-- Inside a buffer's count an offset names the buffer's word, when that has stored bits. -/
theorem locate_word (hc : c.legal = true) (h4 : off % 4 = 0) (hlo : b.window ≤ off) (hhi : off < b.window + 4 * wordCount c b)
    (hm : wordMask b ((off - b.window) / 4) ≠ 0#32) : locate c off = .word b ((off - b.window) / 4) := by
  have hend := window_add_wordCount_le hc b
  rw [locate_bufferWindow hlo (by omega), bufferLocation, if_pos ⟨by omega, hm⟩]

/-- Beyond a buffer's count, or at a word with no stored bit, an offset of its window is reserved (R73). -/
theorem locate_bufferReserved (hlo : b.window ≤ off) (hhi : off < b.windowEnd)
    (h : b.window + 4 * wordCount c b ≤ off ∨ wordMask b ((off - b.window) / 4) = 0#32) : locate c off = .reserved := by
  rw [locate_bufferWindow hlo hhi, bufferLocation, if_neg]
  rintro ⟨hlt, hm⟩
  rcases h with h | h
  · omega
  · exact hm h

/-- The last two words of a node store nothing (10_state.md R44). -/
theorem wordMask_node_eq_zero {k : Nat} (h : 6 ≤ k % 8) : wordMask .node k = 0#32 := by
  simp only [wordMask, if_neg (show ¬ k % 8 = 0 by omega), if_neg (show ¬ k % 8 < 6 by omega)]

end Sys2Proof.Machine
end

section
/-! PROOFS. 10_state.md R40 to R44; 20_memory.md R72, R76: every step keeps the buffers in canonical form. -/

namespace Sys2Proof.Machine

/-- The buffers are in canonical form for the state's own parameters. -/
def State.Canonical (s : State) : Prop := s.mem.wf s.cfg = true

/-! ### The stages -/

/-- The counting loop writes only FREQ entries below DICT_CAP (41_huffman.md R171, R172). -/
theorem freqCountFrom_wf {c : Config} {ts : List Nat} {m m' : Memory} (hm : m.wf c = true)
    (h : freqCountFrom c ts m = .ok m') : m'.wf c = true := by
  induction ts generalizing m with
  | nil => cases h; exact hm
  | cons t ts ih =>
    simp only [freqCountFrom] at h
    split at h
    · cases h
    · exact ih (Memory.wf_putFreq _ hm (by omega)) h

/-- One leaf at most per token (41_huffman.md R180). -/
theorem huffLeaves_length (c : Config) (m : Memory) : (huffLeaves c m).length ≤ c.dictCap :=
  (List.length_filterMap_le _ _).trans_eq List.length_range

theorem huffMerges_length {merges next : Nat} {q : List MergeItem} {nds : List (Node × Nat)}
    (h : huffMerges merges next q = .ok nds) : nds.length ≤ merges := by
  induction merges generalizing next q nds with
  | zero => cases h; exact Nat.le_refl 0
  | succ merges ih =>
    simp only [huffMerges] at h
    split at h
    · cases h; exact Nat.zero_le _
    · split at h
      · cases h; exact Nat.zero_le _
      · split at h
        · cases h
        · split at h
          · cases h
          · next hr => cases h; exact Nat.succ_le_succ (ih hr)

/-- A tree of `L` leaves has at most `2*L - 1` nodes (41_huffman.md R180). -/
theorem huffTree_length {leaves nds : List (Node × Nat)} (h : huffTree leaves = .ok nds) :
    nds.length ≤ 2 * leaves.length - 1 := by
  cases leaves with
  | nil => cases h
  | cons p ps =>
    simp only [huffTree] at h
    split at h
    · cases h
    · next hr =>
      cases h
      have := huffMerges_length hr
      simp only [List.length_append, List.length_cons]
      omega

theorem lzwEncPass_length {c : Config} {xs : List Byte} {ts : List Nat} {d : List DictEntry}
    (h : lzwEncPass c xs = .ok (ts, d)) : ts.length ≤ c.tokCap := by
  cases xs with
  | nil => cases h; exact Nat.zero_le _
  | cons x xs => simpa using lzwEncFrom_length h

theorem lzwDecPass_length {c : Config} {ks : List Nat} {out : List Byte} {d : List DictEntry}
    (h : lzwDecPass c ks = .ok (out, d)) : out.length ≤ c.symCap := by
  cases ks with
  | nil => cases h; exact Nat.zero_le _
  | cons k ks =>
    simp only [lzwDecPass] at h
    split at h
    · cases h
    · split at h
      · cases h
      · split at h
        · cases h
        · next hroom _ _ _ hr =>
          cases h
          have := lzwDecFrom_length (by omega) hr
          simp only [List.length_cons]
          omega

theorem entDecPass_length {c : Config} {nds : List Node} {rt : Nat} {bs : List Bool} {ts : List Nat}
    (h : entDecPass c nds rt bs = .ok ts) : ts.length ≤ c.tokCap := by
  unfold entDecPass at h
  split at h
  · simpa using entDecSingle_length (Nat.zero_le _) h
  · simpa using entDecWalk_length (Nat.zero_le _) h
  · simpa using entDecWalk_length (Nat.zero_le _) h

theorem Config.bitCap_words {c : Config} (h : c.legal = true) : c.bitCap % 32 = 0 := by
  simp only [Config.legal, Bool.and_eq_true, decide_eq_true_eq] at h
  omega

/-- A stage writes its output within the capacity it has checked, or leaves a buffer cleared or redrawn. -/
theorem stage_canonical {i : Instr} (hi : i ∈ stageCommands) {s : State} (hc : s.cfg.legal = true) (hs : s.Canonical) :
    (commandOutcome i s).Leaves State.Canonical := by
  cases i with
  | lzwEnc =>
    rcases lzwEncStage_cases s with ⟨ts, d, _, hpass, h⟩ | ⟨_, h, _⟩ <;> rw [commandOutcome, h]
    · exact Memory.wf_putTokens hs (lzwEncPass_length hpass)
    · exact Memory.wf_redraw .tok s.draws hs
  | lzwDec =>
    rcases lzwDecStage_cases s with ⟨out, d, _, hpass, h⟩ | ⟨_, h, _⟩ <;> rw [commandOutcome, h]
    · exact Memory.wf_putSymbols hs (lzwDecPass_length hpass)
    · exact Memory.wf_redraw .sym s.draws hs
  | freqCount =>
    rcases freqCountStage_cases s with ⟨m, _, hpass, h⟩ | ⟨_, h, _⟩ <;> rw [commandOutcome, h]
    · exact freqCountFrom_wf (Memory.wf_clear .freq hs) hpass
    · exact Memory.wf_clear .freq hs
  | huffBuild =>
    rcases huffBuildStage_cases s with ⟨nds, htree, h⟩ | ⟨_, _, h⟩ <;> rw [commandOutcome, h]
    · refine Memory.wf_putNodes hs ?_
      have hnodes := huffTree_length htree
      have hleaves := huffLeaves_length s.cfg s.mem
      simp only [Config.nodeCap]
      omega
    · exact Memory.wf_redraw .node s.draws hs
  | huffCodes =>
    rcases huffCodesStage_cases s with ⟨_, _, h⟩ | ⟨_, _, h⟩ | ⟨_, h⟩ <;> rw [commandOutcome, h] <;> exact hs
  | entEnc =>
    rcases entEncStage_cases s with ⟨bs, _, hpass, h⟩ | ⟨_, h, _⟩ <;> rw [commandOutcome, h]
    · exact Memory.wf_putStream hs (Config.bitCap_words hc) (by simpa using entEncFrom_length (Nat.zero_le _) hpass)
    · exact Memory.wf_redraw .bits s.draws hs
  | entDec =>
    rcases entDecStage_cases s with ⟨ts, _, _, hpass, h⟩ | ⟨_, h, _⟩ <;> rw [commandOutcome, h]
    · exact Memory.wf_putTokens hs (entDecPass_length hpass)
    · exact Memory.wf_redraw .tok s.draws hs
  | compress | decompress | clear => exact absurd hi (by decide)

theorem commandOutcome_canonical (i : Instr) {s : State} (hc : s.cfg.legal = true) (hs : s.Canonical) :
    (commandOutcome i s).Leaves State.Canonical :=
  (commandOutcome_leaves (P := fun u => u.cfg.legal = true ∧ u.Canonical)
    (fun j hj u hu => ((commandOutcome_cfg j u).imp fun _ hv => hv ▸ hu.1).and (stage_canonical hj hu.1 hu.2))
    (fun _ hu => hu) (fun _ hu => hu) (fun _ hu => ⟨hu.1, rfl⟩) i ⟨hc, hs⟩).imp fun _ hu => hu.2

theorem engineStep_canonical {s t : State} (hc : s.cfg.legal = true) (hs : s.Canonical) (h : engineStep s = .next t) :
    t.Canonical := by
  rcases engineStep_cases h with ⟨i, _, rfl⟩ | rfl
  · exact (commandOutcome_canonical i hc hs).finish fun _ _ hu => hu
  · exact hs

/-! ### The host and the platform -/

/-- A write is stored only inside the buffer's count (20_memory.md R73). -/
theorem State.Canonical.writeOffset {s : State} (hs : s.Canonical) (off : Nat) (v : Word) :
    (s.writeOffset off v).Canonical := by
  unfold State.writeOffset
  cases hl : locate s.cfg off with
  | reg r => cases r <;> exact hs
  | word b i => exact Memory.wf_write v hs ((locate_eq_word hl).1)
  | code t field => exact hs
  | dict k field => exact hs
  | reserved => exact hs

theorem State.Canonical.performAt {s : State} (hs : s.Canonical) (off : Nat) (k : AccessKind) :
    (s.performAt off k).Canonical := by
  cases k with
  | read => exact hs
  | write v => exact hs.writeOffset off v

theorem State.canonical_resetOver (a : Access) (s : State) : (resetOverAccess a s).Canonical := by
  unfold resetOverAccess
  split <;> rfl

end Sys2Proof.Machine

open Sys2Proof.Machine

/-- Settles O55: every stage writes within the capacities it checks, and the address map names only words inside a buffer's count. -/
theorem stepKeepsMemoryCanonical : Obligations.StepKeepsMemoryCanonical := by
  intro s t hc hs h
  rcases step_cases h with ⟨s0, hn, he⟩ | ⟨a, rest, _, _, _, rfl⟩ | ⟨_, ⟨_, rfl⟩ | ⟨rest, _, rfl⟩⟩ | ⟨rest, _, rfl⟩
    | ⟨a, rest, _, rfl⟩
  · obtain ⟨_, rest, rfl⟩ := State.engineNext_eq hn
    exact engineStep_canonical (s := { s with inputs := rest }) hc hs he
  · exact State.Canonical.performAt (s := { s with inputs := rest }) hs _ _
  · exact hs
  · exact hs
  · exact Memory.wf_drawn _ _
  · exact State.canonical_resetOver a _
end

section
/-! SUPPORT. What a step can do to the host's side of a run, and which steps stop (20_memory.md R70, R71; 43_control.md R262). -/

namespace Sys2Proof.Machine

/-! ### The engine -/

/-- The engine's step never stops (43_control.md R262). -/
theorem engineStep_total (s : State) : ∃ t, engineStep s = .next t := by
  unfold engineStep
  split
  · exact ⟨_, exec_eq ..⟩
  · exact ⟨_, rfl⟩
  · exact ⟨_, rfl⟩

theorem engineTurn_total (s : State) : ∃ t, engineTurn s = .next t := by
  unfold engineTurn
  split
  · exact engineStep_total s
  · exact ⟨s, rfl⟩

/-- A stage neither takes a pending input nor hands the host a value. -/
theorem stage_host {i : Instr} (hi : i ∈ stageCommands) (s : State) :
    (commandOutcome i s).Leaves fun t => t.inputs = s.inputs ∧ t.reads = s.reads := by
  cases i with
  | lzwEnc => rcases lzwEncStage_cases s with ⟨_, _, _, _, h⟩ | ⟨_, h, _⟩ <;> simp [commandOutcome, h]
  | lzwDec => rcases lzwDecStage_cases s with ⟨_, _, _, _, h⟩ | ⟨_, h, _⟩ <;> simp [commandOutcome, h]
  | freqCount => rcases freqCountStage_cases s with ⟨_, _, _, h⟩ | ⟨_, h, _⟩ <;> simp [commandOutcome, h]
  | huffBuild => rcases huffBuildStage_cases s with ⟨_, _, h⟩ | ⟨_, _, h⟩ <;> simp [commandOutcome, h]
  | huffCodes => rcases huffCodesStage_cases s with ⟨_, _, h⟩ | ⟨_, _, h⟩ | ⟨_, h⟩ <;> simp [commandOutcome, h]
  | entEnc => rcases entEncStage_cases s with ⟨_, _, _, h⟩ | ⟨_, h, _⟩ <;> simp [commandOutcome, h]
  | entDec => rcases entDecStage_cases s with ⟨_, _, _, _, h⟩ | ⟨_, h, _⟩ <;> simp [commandOutcome, h]
  | compress | decompress | clear => exact absurd hi (by decide)

theorem commandOutcome_host (i : Instr) (s : State) :
    (commandOutcome i s).Leaves fun t => t.inputs = s.inputs ∧ t.reads = s.reads :=
  commandOutcome_leaves (P := fun t => t.inputs = s.inputs ∧ t.reads = s.reads)
    (fun _ hi t ht => (stage_host hi t).imp fun _ hu => ⟨hu.1.trans ht.1, hu.2.trans ht.2⟩)
    (fun _ ht => ht) (fun _ ht => ht) (fun _ ht => ht) i ⟨rfl, rfl⟩

theorem engineStep_host {s t : State} (h : engineStep s = .next t) : t.inputs = s.inputs ∧ t.reads = s.reads := by
  rcases engineStep_cases h with ⟨i, _, rfl⟩ | rfl
  · exact (commandOutcome_host i s).finish fun _ _ ht => ht
  · exact ⟨rfl, rfl⟩

/-! ### The pending inputs -/

theorem State.engineNext_inputs {s s0 : State} (h : s.engineNext = some s0) : s0.inputs <:+ s.inputs := by
  unfold State.engineNext at h
  split at h
  · split at h
    · cases h; exact List.suffix_refl _
    · split at h <;> cases h; exact List.suffix_refl _
    · next hi => cases h; rw [hi]; exact List.suffix_cons ..
    · cases h
    · cases h
  · cases h

@[simp] theorem State.writeReg_inputs (s : State) (r : Reg) (v : Word) : (s.writeReg r v).inputs = s.inputs := by
  cases r <;> rfl

@[simp] theorem State.performAt_inputs (s : State) (off : Nat) (k : AccessKind) : (s.performAt off k).inputs = s.inputs := by
  cases k with
  | read => rfl
  | write v =>
    show (s.writeLocation (locate s.cfg off) v).inputs = s.inputs
    cases locate s.cfg off with
    | reg r => exact s.writeReg_inputs r v
    | word b i => rfl
    | code t field => rfl
    | dict k field => rfl
    | reserved => rfl

@[simp] theorem resetOverAccess_inputs (a : Access) (s : State) : (resetOverAccess a s).inputs = s.inputs := by
  unfold resetOverAccess
  split <;> rfl

/-- A step takes at most the first pending input. -/
theorem step_inputs {s t : State} (h : step s = .next t) : t.inputs <:+ s.inputs := by
  rcases step_cases h with ⟨s0, hn, he⟩ | ⟨a, rest, hi, _, _, rfl⟩ | ⟨_, ⟨_, rfl⟩ | ⟨rest, hi, rfl⟩⟩ | ⟨rest, hi, rfl⟩
    | ⟨a, rest, hi, rfl⟩
  · rw [(engineStep_host he).1]; exact State.engineNext_inputs hn
  · rw [hi, State.performAt_inputs]; exact List.suffix_cons ..
  · exact List.suffix_refl _
  · rw [hi]; exact List.suffix_cons ..
  · rw [hi]; exact List.suffix_cons ..
  · rw [hi, resetOverAccess_inputs]; exact List.suffix_cons ..

/-! ### The stops -/

/-- The next input is an access at an address that is no offset of the block (R70). -/
def State.nextOutside (s : State) : Prop :=
  ∃ a rest, s.inputs = .access a :: rest ∧ ¬ (s.cfg.base ≤ a.addr ∧ a.addr < s.cfg.base + 2 ^ 24)

/-- The next input is a sub-word or misaligned access inside the block (R71). -/
def State.nextBusError (s : State) : Prop :=
  ∃ a rest, s.inputs = .access a :: rest ∧ s.cfg.base ≤ a.addr ∧ a.addr < s.cfg.base + 2 ^ 24
    ∧ ¬ (a.width = 4 ∧ (a.addr - s.cfg.base) % 4 = 0)

theorem State.not_nextBusError_of_nextOutside {s : State} (h : s.nextOutside) : ¬ s.nextBusError := by
  rintro ⟨a, rest, hi, hlo, hhi, -⟩
  obtain ⟨a', rest', hi', hout⟩ := h
  cases hi.symm.trans hi'
  exact hout ⟨hlo, hhi⟩

/-- Only a proper access is held; the others stop the step at once (log 11). -/
theorem State.proper_of_holds {s : State} {a : Access} (h : s.holds a = true) : a.proper s.cfg := by
  simp only [State.holds, Access.offset?, Bool.and_eq_true] at h
  obtain ⟨-, h⟩ := h
  by_cases hr : s.cfg.base ≤ a.addr ∧ a.addr < s.cfg.base + 2 ^ 24
  · simp only [if_pos hr, wellFormedAccess, Bool.and_eq_true, decide_eq_true_eq] at h
    obtain ⟨⟨⟨hw, -⟩, h4⟩, -⟩ := h
    exact ⟨hr.1, hr.2, hw, h4⟩
  · rw [if_neg hr] at h
    cases h

theorem step_access_not_proper {s : State} {a : Access} {rest : List Input} (hi : s.inputs = .access a :: rest)
    (hp : ¬ a.proper s.cfg) : step s = hostAccess a { s with inputs := rest } := by
  have hn : ¬ s.holds a = true := fun hh => hp (State.proper_of_holds hh)
  simp only [step, hi, if_neg hn]

theorem step_nextOutside {s : State} (h : s.nextOutside) : step s = .fault .outsideBlock := by
  obtain ⟨a, rest, hi, hout⟩ := h
  rw [step_access_not_proper hi fun hp => hout ⟨hp.1, hp.2.1⟩]
  simp only [hostAccess, Access.offset?, if_neg hout]

theorem step_nextBusError {s : State} (h : s.nextBusError) : step s = .refused .busError := by
  obtain ⟨a, rest, hi, hlo, hhi, hbad⟩ := h
  have hw : ¬ wellFormedAccess (a.addr - s.cfg.base) a.width = true := by
    simp only [wellFormedAccess, Bool.and_eq_true, decide_eq_true_eq]
    exact fun hw => hbad ⟨hw.1.1, hw.2⟩
  rw [step_access_not_proper hi fun hp => hbad hp.2.2]
  simp only [hostAccess, Access.offset?, if_pos (And.intro hlo hhi), if_neg hw]

/-- A step goes on unless its next input is an access that is not proper. -/
theorem step_continues {s : State} (h : ∀ a rest, s.inputs = .access a :: rest → a.proper s.cfg) : ∃ t, step s = .next t := by
  match hi : s.inputs with
  | [] => simpa only [step, hi] using engineTurn_total s
  | .access a :: rest =>
    cases hh : s.holds a with
    | true => simpa only [step, hi, if_pos hh] using engineStep_total s
    | false =>
      have hp := h a rest hi
      simp [step, hi, hh, hostAccess, hp.offset, hp.wellFormed]
  | .engineTurn :: rest => simpa only [step, hi] using engineTurn_total { s with inputs := rest }
  | .reset :: rest => simp [step, hi]
  | .resetOver a :: rest => simp [step, hi]

theorem step_continues_of_no_stop {s : State} (ho : ¬ s.nextOutside) (hb : ¬ s.nextBusError) : ∃ t, step s = .next t := by
  refine step_continues fun a rest hi => ?_
  have hin : s.cfg.base ≤ a.addr ∧ a.addr < s.cfg.base + 2 ^ 24 := by
    by_contra hout
    exact ho ⟨a, rest, hi, hout⟩
  have hw : a.width = 4 ∧ (a.addr - s.cfg.base) % 4 = 0 := by
    by_contra hbad
    exact hb ⟨a, rest, hi, hin.1, hin.2, hbad⟩
  exact ⟨hin.1, hin.2, hw⟩

theorem State.properInputs.step {s t : State} (h : s.properInputs) (hs : step s = .next t) : t.properInputs := by
  intro a ha
  rw [stepKeepsConfiguration s t hs]
  exact h a ((step_inputs hs).subset ha)

end Sys2Proof.Machine
end

section
/-! PROOFS. 20_memory.md R70, R71, R78, R80: which steps stop, held accesses, and reads. -/

open Sys2Proof.Machine

/-- Settles O7, by the three kinds of next input: an access outside the block, a bus error, and all others. -/
theorem stepStopsOnlyOnBadAccess : Obligations.StepStopsOnlyOnBadAccess := by
  intro s
  suffices (∀ f, step s = .fault f ↔ f = .outsideBlock ∧ s.nextOutside)
      ∧ ∀ r, step s = .refused r ↔ r = .busError ∧ s.nextBusError from this
  by_cases ho : s.nextOutside
  · simp [step_nextOutside ho, ho, State.not_nextBusError_of_nextOutside ho]
  · by_cases hb : s.nextBusError
    · simp [step_nextBusError hb, ho, hb, eq_comm]
    · obtain ⟨t, ht⟩ := step_continues_of_no_stop ho hb
      simp [ht, ho, hb]

/-- Settles O8: a step over proper inputs goes on, and leaves proper inputs. -/
theorem properInputsAreSafe : Obligations.ProperInputsAreSafe := by
  intro k
  induction k with
  | zero => exact fun _ _ => trivial
  | succ k ih =>
    intro s hs
    obtain ⟨t, ht⟩ := step_continues fun a rest hi => hs a (by simp [hi])
    exact ⟨t, ht, ih t (hs.step ht)⟩

/-- Settles O6: the engine has the turn while an access is held, and its completion ends the holding. -/
theorem heldAccessWaitsForCompletion : Obligations.HeldAccessWaitsForCompletion := by
  intro s a rest hb hi hp
  refine ⟨fun hu => ?held, fun hu => step_performed hi hp (.inr hu)⟩
  case held =>
    have hh : s.holds a = true := (State.holds_iff hp).2 ⟨hb, hu⟩
    obtain ⟨t, ht⟩ := engineStep_total s
    have hcfg := engineStep_cfg ht
    obtain ⟨hin, hreads⟩ := engineStep_host ht
    have hidle : t.busy = false := (engineStep_completes ht).fields.1
    refine ⟨t, ?_, ht, hidle, hin, hreads, ?_⟩
    · rw [← ht]; exact step_engineNext (by simp [State.engineNext, hb, hi, hh])
    · rw [← hcfg] at hp ⊢
      exact step_performed (hin.trans hi) hp (.inl hidle)

/-- Settles O9: a read is performed by adding the value of its offset to the values read. -/
theorem readsLeaveBlockUnchanged : Obligations.ReadsLeaveBlockUnchanged := by
  intro s a rest hi hp hk hh
  rw [step_performed hi hp hh, hk]
  rfl
end

section
/-! SUPPORT. What a write to each location does to what the locations read (20_memory.md R72, R73; 43_control.md R261). -/

namespace Sys2Proof.Machine

/-- What a location stores of a written word: the word's kept bits (10_state.md R27, R40, R44), or nothing where a write is
ignored or does something else (20_memory.md R73). -/
def Location.kept? (v : Word) : Location → Option Word
  | .reg .irqEnable => some (v &&& 3#32)
  | .reg .symLen | .reg .tokLen | .reg .bitLen | .reg .nodeCount | .reg .root => some v
  | .reg .id | .reg .cmd | .reg .status | .reg .error | .reg .errInfo | .reg .dictNext => none
  | .reg .capSym | .reg .capTok | .reg .capBit | .reg .capDict | .reg .capCodeLen | .reg .capNode => none
  | .word b i => if wordMask b i = 0#32 then none else some (v &&& wordMask b i)
  | .code _ _ | .dict _ _ | .reserved => none

/-- The locations whose writes are ignored: the RO registers and windows, and the reserved locations (20_memory.md R73). -/
def Location.ignoresWrites : Location → Bool
  | .reg .id | .reg .error | .reg .errInfo | .reg .dictNext => true
  | .reg .capSym | .reg .capTok | .reg .capBit | .reg .capDict | .reg .capCodeLen | .reg .capNode => true
  | .code _ _ | .dict _ _ | .reserved => true
  | .reg .cmd | .reg .status | .reg .irqEnable => false
  | .reg .symLen | .reg .tokLen | .reg .bitLen | .reg .nodeCount | .reg .root | .word _ _ => false

variable {s : State} {l l' : Location} {v w : Word}

theorem State.writeLocation_of_ignoresWrites (h : l.ignoresWrites = true) : s.writeLocation l v = s := by
  cases l with
  | reg r =>
    cases r with
    | id | error | errInfo | dictNext | capSym | capTok | capBit | capDict | capCodeLen | capNode => rfl
    | cmd | status | irqEnable | symLen | tokLen | bitLen | nodeCount | root => cases h
  | word b i => cases h
  | code t field => rfl
  | dict k field => rfl
  | reserved => rfl

/-- IRQ_ENABLE stores bits 1:0 (10_state.md R27). -/
theorem State.irqEnableWord_setIrqEnable (s : State) (v : Word) : (s.setIrqEnable v).irqEnableWord = v &&& 3#32 := by
  refine BitVec.eq_of_getLsbD_eq fun j _ => ?_
  have hthree : (3#32).getLsbD j = [true, true][j]?.getD false := getLsbD_ofNat_packBits (bs := [true, true]) (by decide) j
  rw [State.getLsbD_irqEnableWord, BitVec.getLsbD_and, hthree]
  match j with
  | 0 | 1 | j + 2 => simp [State.setIrqEnable]

theorem State.writeReg_mem (s : State) (r : Reg) (v : Word) : (s.writeReg r v).mem = s.mem := by
  cases r <;> rfl

theorem State.readReg_writeReg {r : Reg} (h : (Location.reg r).kept? v = some w) (r' : Reg) :
    (s.writeReg r v).readReg r' = if r' = r then w else s.readReg r' := by
  cases r with
  | irqEnable =>
    cases h
    cases r' with
    | irqEnable => exact s.irqEnableWord_setIrqEnable v
    | _ => rfl
  | symLen | tokLen | bitLen | nodeCount | root => cases h; cases r' <;> rfl
  | id | cmd | status | error | errInfo | dictNext | capSym | capTok | capBit | capDict | capCodeLen | capNode => cases h

/-- A stored word is read back, and every other location reads as before. -/
theorem State.readLocation_writeLocation (h : l.kept? v = some w) (l' : Location) :
    (s.writeLocation l v).readLocation l' = if l' = l then w else s.readLocation l' := by
  cases l with
  | reg r =>
    cases l' with
    | reg r' => simp only [Location.reg.injEq]; exact State.readReg_writeReg h r'
    | word b i => exact congrArg (·.read b i) (s.writeReg_mem r v)
    | code t field => exact congrArg (fun code => State.readCode { s with code := code } t field) (s.writeReg_code r v)
    | dict k field => exact congrArg (fun dict => State.readDict { s with dict := dict } k field) (s.writeReg_dict r v)
    | reserved => rfl
  | word b i =>
    cases l' with
    | word b' i' =>
      simp only [Location.kept?] at h
      split at h
      · cases h
      · next hm =>
        cases h
        by_cases he : b' = b ∧ i' = i
        · obtain ⟨rfl, rfl⟩ := he
          rw [if_pos rfl]
          exact Memory.read_write_self s.mem b' i' v hm
        · rw [if_neg fun hl => he (Location.word.inj hl)]
          exact Memory.read_write_ne s.mem v (not_and_or.1 he)
    | reg r | code t field | dict k field | reserved => rfl
  | code t field => cases h
  | dict k field => cases h
  | reserved => cases h

/-- A stored write leaves the latch, the draw counter and the host's lists alone. -/
theorem State.writeLocation_frame (h : l.kept? v = some w) :
    (s.writeLocation l v).latch = s.latch ∧ (s.writeLocation l v).draws = s.draws
      ∧ (s.writeLocation l v).inputs = s.inputs ∧ (s.writeLocation l v).reads = s.reads := by
  cases l with
  | reg r =>
    cases r with
    | irqEnable | symLen | tokLen | bitLen | nodeCount | root => exact ⟨rfl, rfl, rfl, rfl⟩
    | id | cmd | status | error | errInfo | dictNext | capSym | capTok | capBit | capDict | capCodeLen | capNode => cases h
  | word b i => exact ⟨rfl, rfl, rfl, rfl⟩
  | code t field => cases h
  | dict k field => cases h
  | reserved => cases h

theorem State.nextAccess.aligned {off : Nat} {k : AccessKind} {rest : List Input} (h : s.nextAccess off k rest) :
    off % 4 = 0 := by
  obtain ⟨a, -, ⟨-, -, -, h4⟩, ha, -⟩ := h
  rwa [ha, Nat.add_sub_cancel_left] at h4

/-- A location that stores words is named by one offset only. -/
theorem offset_eq_of_locate_eq {c : Config} {off off' : Nat} (h : (locate c off).kept? v = some w) (h4 : off % 4 = 0)
    (h4' : off' % 4 = 0) (he : locate c off' = locate c off) : off' = off := by
  cases hl : locate c off with
  | reg r => rw [locate_eq_reg hl, locate_eq_reg (he.trans hl)]
  | word b i =>
    obtain ⟨-, -, hoff⟩ := locate_eq_word hl
    obtain ⟨-, -, hoff'⟩ := locate_eq_word (he.trans hl)
    rw [hoff h4, hoff' h4']
  | code t field => rw [hl] at h; cases h
  | dict k field => rw [hl] at h; cases h
  | reserved => rw [hl] at h; cases h

theorem keptBits_bufferWindow {off : Nat} {b : BufId} (h4 : off % 4 = 0) (hlo : b.window ≤ off) (hhi : off < b.windowEnd)
    (hm : wordMask b ((off - b.window) / 4) ≠ 0#32) (v : Word) :
    keptBits off v = v &&& wordMask b ((off - b.window) / 4) := by
  unfold keptBits
  cases b <;> simp only [BufId.window, BufId.windowEnd] at hlo hhi hm ⊢
  case sym => rw [if_neg (by omega), if_pos (by omega)]; rfl
  case tok | bits | freq =>
    iterate 3 rw [if_neg (by omega)]
    exact BitVec.and_allOnes.symm
  case node =>
    iterate 2 rw [if_neg (by omega)]
    by_cases h0 : off % 32 = 0
    · rw [if_pos (by omega), wordMask, if_pos (by omega)]
    · have hlt : (off - 0x800000) / 4 % 8 < 6 := by
        by_contra hge
        exact hm (wordMask_node_eq_zero (by omega))
      rw [if_neg (by omega), wordMask, if_neg (by omega), if_pos hlt, BitVec.and_allOnes]

/-- The host-writable offsets name locations that store the kept bits. -/
theorem locate_kept {c : Config} {off : Nat} (hc : c.legal = true) (h4 : off % 4 = 0) (hw : hostWritable c off) (v : Word) :
    (locate c off).kept? v = some (keptBits off v) := by
  have word : ∀ b : BufId, b.window ≤ off → off < b.window + 4 * wordCount c b →
      wordMask b ((off - b.window) / 4) ≠ 0#32 → (locate c off).kept? v = some (keptBits off v) := by
    intro b hlo hhi hm
    have hend := window_add_wordCount_le hc b
    rw [locate_word hc h4 hlo hhi hm, keptBits_bufferWindow h4 hlo (by omega) hm]
    exact if_neg hm
  rcases hw with rfl | rfl | rfl | rfl | rfl | rfl | ⟨hlo, hhi⟩ | ⟨hlo, hhi⟩ | ⟨hlo, hhi⟩ | ⟨hlo, hhi⟩ | ⟨hlo, hhi, hm⟩
  iterate 6 · rfl
  · exact word .sym hlo hhi (by simp [wordMask])
  · exact word .tok hlo hhi (by simp [wordMask])
  · exact word .bits hlo hhi (by simp [wordMask])
  · exact word .freq hlo (by simp only [BufId.window, wordCount]; omega) (by simp [wordMask])
  · exact word .node hlo (by simp only [BufId.window, wordCount]; omega)
      (wordMask_node_ne_zero (by simp only [BufId.window]; omega))

/-- A reserved offset names no location, or the reserved word of a CODE entry (10_state.md R46). -/
theorem locate_of_reservedOffset {c : Config} {off : Nat} (h : reservedOffset c off) :
    locate c off = .reserved ∨ ∃ t, locate c off = .code t 3 := by
  unfold reservedOffset at h
  rcases offset_regions off with hr | ⟨b, hlo, hhi⟩ | ⟨hlo, hhi⟩ | ⟨hlo, hhi⟩ | hr
  · exact .inl (locate_registerPage hr fun r hoff => by cases r <;> simp only [Reg.offset] at hoff <;> omega)
  · refine .inl (locate_bufferReserved hlo hhi ?_)
    cases b <;> simp only [BufId.window, BufId.windowEnd, wordCount] at hlo hhi ⊢
    case sym | tok | bits | freq => exact .inl (by omega)
    case node =>
      by_cases hm : 0x18 ≤ off % 32
      · exact .inr (wordMask_node_eq_zero (by omega))
      · exact .inl (by omega)
  · rw [locate_codeWindow hlo hhi]
    split
    · have hf : (off - 0x500000) / 4 % 4 = 3 := by omega
      exact .inr ⟨_, by rw [hf]⟩
    · exact .inl rfl
  · rw [locate_dictWindow hlo hhi, if_neg (by omega)]
    exact .inl rfl
  · exact .inl (locate_unmapped hr)

theorem locate_of_readOnlyOffset {c : Config} {off : Nat} (h4 : off % 4 = 0) (h : readOnlyOffset off) :
    (locate c off).ignoresWrites = true := by
  unfold readOnlyOffset at h
  by_cases hcode : 0x500000 ≤ off ∧ off < 0x600000
  · rw [locate_codeWindow hcode.1 hcode.2]
    split <;> rfl
  by_cases hdict : 0x600000 ≤ off ∧ off < 0x700000
  · rw [locate_dictWindow hdict.1 hdict.2]
    split <;> rfl
  have hreg : off = 0x000 ∨ off = 0x00C ∨ off = 0x010 ∨ off = 0x034 ∨ off = 0x040 ∨ off = 0x044 ∨ off = 0x048
      ∨ off = 0x04C ∨ off = 0x050 ∨ off = 0x054 := by omega
  rcases hreg with rfl | rfl | rfl | rfl | rfl | rfl | rfl | rfl | rfl | rfl <;> rfl

/-- The fourth word of a CODE entry reads 0, valid or not (10_state.md R46). -/
theorem State.readCode_reserved (s : State) (t : Nat) : s.readCode t 3 = 0#32 := by
  unfold State.readCode
  split <;> rfl

theorem State.readOffset_of_reservedOffset {off : Nat} (h : reservedOffset s.cfg off) : s.readOffset off = 0#32 := by
  rw [State.readOffset]
  rcases locate_of_reservedOffset h with hl | ⟨t, hl⟩ <;> rw [hl]
  · rfl
  · exact s.readCode_reserved t

end Sys2Proof.Machine
end

section
/-! PROOFS. 20_memory.md R72, R73, R75: host writes to RW, RO and reserved offsets. -/

open Sys2Proof.Machine

/-- Settles O11: the offset names the one location that the write stores into. -/
theorem storedWordReadsBack : Obligations.StoredWordReadsBack := by
  intro s off v rest hc hnext hw hh
  have h4 := hnext.aligned
  have hk := locate_kept hc h4 hw v
  obtain ⟨hlatch, hdraws, hinputs, hreads⟩ := State.writeLocation_frame (s := { s with inputs := rest }) hk
  refine ⟨_, step_nextAccess hnext hh, fun off' h4' => ?_, State.performAt_cfg .., hlatch, hdraws, hinputs, hreads⟩
  have hone : locate s.cfg off' = locate s.cfg off ↔ off' = off :=
    ⟨offset_eq_of_locate_eq hk h4 h4', fun he => congrArg _ he⟩
  have hread := State.readLocation_writeLocation (s := { s with inputs := rest }) hk (locate s.cfg off')
  simp only [hone] at hread
  rw [State.readOffset, State.performAt_cfg]
  exact hread

/-- Settles O12, by the locations that the offsets name. -/
theorem reservedAndReadOnlyOffsets : Obligations.ReservedAndReadOnlyOffsets := by
  intro s a rest hc hi hp hh
  have hread : a.kind = .read →
      step s = .next { s with inputs := rest, reads := s.reads ++ [s.readOffset (a.addr - s.cfg.base)] } :=
    fun hk => readsLeaveBlockUnchanged s a rest hi hp hk hh
  have hwrite : ∀ v, (locate s.cfg (a.addr - s.cfg.base)).ignoresWrites = true → a.kind = .write v →
      step s = .next { s with inputs := rest } := by
    intro v hl hk
    rw [step_performed hi hp hh, hk]
    exact congrArg _ (State.writeLocation_of_ignoresWrites (s := { s with inputs := rest }) hl)
  refine ⟨fun hres => ⟨fun hk => ?reservedRead, fun v => hwrite v ?reservedWrite⟩, fun hro v => hwrite v ?readOnlyWrite,
    fun hcmd hk => ?cmdRead⟩
  case reservedRead => rw [hread hk, State.readOffset_of_reservedOffset hres]
  case reservedWrite => rcases locate_of_reservedOffset hres with hl | ⟨t, hl⟩ <;> rw [hl] <;> rfl
  case readOnlyWrite =>
    obtain ⟨-, -, -, h4⟩ := hp
    exact locate_of_readOnlyOffset h4 hro
  case cmdRead => rw [hread hk, hcmd, show s.readOffset 0x004 = 0#32 from s.readOffset_reg .cmd]
end

section
/-! PROOFS. 30_encoding.md R100 to R103: the decoder and the encoder are inverse to each other. -/

namespace Sys2Proof

theorem encoding_statement (i : Instr) : Laws.Encoding.Statement i := by
  cases i with
  | lzwEnc => exact Laws.Encoding.lzwEnc
  | lzwDec => exact Laws.Encoding.lzwDec
  | freqCount => exact Laws.Encoding.freqCount
  | huffBuild => exact Laws.Encoding.huffBuild
  | huffCodes => exact Laws.Encoding.huffCodes
  | entEnc => exact Laws.Encoding.entEnc
  | entDec => exact Laws.Encoding.entDec
  | compress => exact Laws.Encoding.compress
  | decompress => exact Laws.Encoding.decompress
  | clear => exact Laws.Encoding.clear

/-! ### The opcode map -/

@[simp] theorem commandOfOpcode_opcode (i : Instr) : commandOfOpcode i.opcode = some i := by cases i <;> rfl

theorem commandOfOpcode_eq_some_iff {op : Byte} {i : Instr} : commandOfOpcode op = some i ↔ op = i.opcode := by
  have inverse : ∀ op : Byte, ∀ i ∈ commandOfOpcode op, op = i.opcode := by decide
  exact ⟨inverse op i, fun h => h ▸ commandOfOpcode_opcode i⟩

theorem exists_opcode_of_range {op : Byte} (h : 1 ≤ op.toNat ∧ op.toNat ≤ 0x0A) : ∃ i : Instr, op = i.opcode := by
  have assigned : ∀ op : Byte, 1 ≤ op.toNat ∧ op.toNat ≤ 0x0A → (commandOfOpcode op).isSome = true := by decide
  obtain ⟨i, hi⟩ := Option.isSome_iff_exists.1 (assigned op h)
  exact ⟨i, commandOfOpcode_eq_some_iff.1 hi⟩

/-! ### The fields of a word -/

theorem toNat_opcodeField (w : Word) : (opcodeField w).toNat = w.toNat % 2 ^ 8 := by
  simp [opcodeField]

theorem reservedField_eq_zero_iff (w : Word) : reservedField w = 0#24 ↔ w.toNat / 2 ^ 8 = 0 := by
  rw [reservedField, ← BitVec.toNat_inj, BitVec.extractLsb'_toNat, BitVec.toNat_ofNat, Nat.shiftRight_eq_div_pow]
  omega

theorem append_fields (w : Word) : reservedField w ++ opcodeField w = w :=
  (BitVec.extractLsb'_append_extractLsb'_eq_extractLsb' (start₁ := 0) (len₁ := 8) (Nat.zero_add 8).symm).trans
    BitVec.extractLsb'_eq_self

theorem eq_encode_iff {w : Word} {i : Instr} : w = encode i ↔ reservedField w = 0#24 ∧ opcodeField w = i.opcode := by
  constructor
  · rintro rfl
    obtain ⟨-, hop, hres, -⟩ := encoding_statement i
    exact ⟨hres, hop⟩
  · rintro ⟨hres, hop⟩
    rw [encode, ← hop, ← hres]
    exact (append_fields w).symm

/-! ### Decoding -/

theorem decode_eq_command_iff {w : Word} {i : Instr} : decode w = .command i ↔ w = encode i := by
  rw [eq_encode_iff, ← commandOfOpcode_eq_some_iff, decode]
  split
  · cases h : commandOfOpcode (opcodeField w) <;> simp [*]
  · simp [*]

theorem decode_encode (i : Instr) : decode (encode i) = .command i := decode_eq_command_iff.2 rfl

end Sys2Proof

open Sys2Proof

/-- Settles O2: a word is its two fields, and the opcode map assigns exactly the opcodes 1 to 10. -/
theorem decodeExactOnAllWords : Obligations.DecodeExactOnAllWords := by
  intro w
  refine ⟨⟨?legal, ?assigned⟩, fun i => decode_eq_command_iff⟩
  case legal =>
    rintro ⟨i, hi⟩
    obtain ⟨-, -, -, hlegal⟩ := encoding_statement i
    rw [decode_eq_command_iff.1 hi]
    simpa [legalCommandWord, and_assoc] using hlegal
  case assigned =>
    rintro ⟨hres, hop⟩
    rw [← toNat_opcodeField] at hop
    obtain ⟨i, hi⟩ := exists_opcode_of_range hop
    exact ⟨i, decode_eq_command_iff.2 (eq_encode_iff.2 ⟨(reservedField_eq_zero_iff w).2 hres, hi⟩)⟩

/-- Settles O1: each word is the encoding of its command. -/
theorem opcodeMapDecodes : Obligations.OpcodeMapDecodes :=
  ⟨decode_encode .lzwEnc, decode_encode .lzwDec, decode_encode .freqCount, decode_encode .huffBuild, decode_encode .huffCodes,
    decode_encode .entEnc, decode_encode .entDec, decode_encode .compress, decode_encode .decompress, decode_encode .clear⟩
end

section
/-! SUPPORT. Agreement of states on the components of 30_encoding.md R105, and each one-stage command as a result computed from
what it reads and then stored in what it writes. -/

namespace Sys2Proof.Machine

variable {s s' t t' u : State} {c : Component} {W : List Component}

/-! ### Agreement -/

/-- The component that a data buffer is. -/
def Component.ofBuffer : BufId → Component
  | .sym => .sym
  | .tok => .tok
  | .bits => .bits
  | .freq => .freq
  | .node => .node

theorem Component.agree_ofBuffer {b : BufId} : (Component.ofBuffer b).agree s t ↔ t.mem.get b = s.mem.get b := by
  cases b <;> rfl

theorem Component.agree_refl (c : Component) (s : State) : c.agree s s := by cases c <;> rfl

theorem Component.agree.symm (h : c.agree s t) : c.agree t s := by cases c <;> exact Eq.symm h

theorem Component.agree.trans (h : c.agree s t) (h' : c.agree t u) : c.agree s u := by cases c <;> exact Eq.trans h' h

/-- Completion writes no component. -/
theorem Component.agree_complete (c : Component) (s : State) (r : Report) : c.agree s (s.complete r) := by cases c <;> rfl

/-- The states agree on every component but those of `W`. -/
def AgreeOutside (W : List Component) (s t : State) : Prop := ∀ c, c ∉ W → c.agree s t

theorem AgreeOutside.trans (h : AgreeOutside W s t) (h' : AgreeOutside W t u) : AgreeOutside W s u :=
  fun c hc => (h c hc).trans (h' c hc)

theorem AgreeOutside.mono {V : List Component} (h : AgreeOutside V s t) (hVW : V ⊆ W) : AgreeOutside W s t :=
  fun c hc => h c fun hV => hc (hVW hV)

theorem agreeOutside_iff : AgreeOutside W s t ↔
    (∀ b, Component.ofBuffer b ∉ W → t.mem.get b = s.mem.get b)
      ∧ (.symLen ∉ W → t.symLen = s.symLen) ∧ (.tokLen ∉ W → t.tokLen = s.tokLen) ∧ (.bitLen ∉ W → t.bitLen = s.bitLen)
      ∧ (.nodeCount ∉ W → t.nodeCount = s.nodeCount) ∧ (.root ∉ W → t.root = s.root)
      ∧ (.code ∉ W → t.code = s.code) ∧ (.dict ∉ W → t.dict = s.dict) := by
  constructor
  · exact fun h => ⟨fun b hb => Component.agree_ofBuffer.1 (h _ hb), h .symLen, h .tokLen, h .bitLen, h .nodeCount, h .root,
      h .code, h .dict⟩
  · rintro ⟨hbuf, hsymLen, htokLen, hbitLen, hnodeCount, hroot, hcode, hdict⟩ c hc
    cases c with
    | sym => exact hbuf .sym hc
    | tok => exact hbuf .tok hc
    | bits => exact hbuf .bits hc
    | freq => exact hbuf .freq hc
    | node => exact hbuf .node hc
    | symLen => exact hsymLen hc
    | tokLen => exact htokLen hc
    | bitLen => exact hbitLen hc
    | nodeCount => exact hnodeCount hc
    | root => exact hroot hc
    | code => exact hcode hc
    | dict => exact hdict hc

/-- An update of one buffer `w` and of registers and tables, all of `W`, changes nothing outside `W`. -/
theorem agreeOutside_of_buffer {w : BufId} (hmem : ∀ b, b ≠ w → t.mem.get b = s.mem.get b)
    (hw : Component.ofBuffer w ∈ W := by decide)
    (hrest : AgreeOutside W { s with mem := t.mem } t := by simp [agreeOutside_iff, commandWrites]) : AgreeOutside W s t :=
  have hbuf : AgreeOutside W s { s with mem := t.mem } :=
    agreeOutside_iff.2 ⟨fun b hb => hmem b fun e => hb (e ▸ hw), by simp⟩
  hbuf.trans hrest

/-- The states have the same parameters and agree on the components of `R`. -/
structure AgreeOn (R : List Component) (s s' : State) : Prop where
  cfg : s'.cfg = s.cfg
  agree : ∀ c ∈ R, c.agree s s'

theorem AgreeOn.mono {Q R : List Component} (h : AgreeOn R s s') (hQR : Q ⊆ R) : AgreeOn Q s s' :=
  ⟨h.cfg, fun c hc => h.agree c (hQR hc)⟩

/-! ### What the engine reads and writes depends on the one buffer -/

variable {m m' : Memory} {b : BufId}

theorem Memory.read_congr (h : m'.get b = m.get b) : m'.read b = m.read b := by
  funext i; rw [Memory.read, Memory.read, h]

theorem Memory.symbols_congr (h : m'.sym = m.sym) : m'.symbols = m.symbols := by
  have hsymbol : m'.symbol = m.symbol := by funext i; rw [Memory.symbol, Memory.symbol, Memory.read_congr (b := .sym) h]
  funext n; rw [Memory.symbols, Memory.symbols, hsymbol]

theorem Memory.tokens_congr (h : m'.tok = m.tok) : m'.tokens = m.tokens := by
  funext n; simp only [Memory.tokens, Memory.read_congr (b := .tok) h]

theorem Memory.stream_congr (h : m'.bits = m.bits) : m'.stream = m.stream := by
  have hbit : m'.streamBit = m.streamBit := by
    funext p; rw [Memory.streamBit, Memory.streamBit, Memory.read_congr (b := .bits) h]
  funext n; rw [Memory.stream, Memory.stream, hbit]

theorem Memory.freqOf_congr (h : m'.freq = m.freq) : m'.freqOf = m.freqOf := by
  funext t; simp only [Memory.freqOf, Memory.read_congr (b := .freq) h]

theorem Memory.nodes_congr (h : m'.node = m.node) : m'.nodes = m.nodes := by
  have hnode : m'.nodeAt = m.nodeAt := by
    funext i; simp only [Memory.nodeAt, Memory.read_congr (b := .node) h]
  funext n; rw [Memory.nodes, Memory.nodes, hnode]

theorem huffLeaves_congr (c : Config) (h : m'.freq = m.freq) : huffLeaves c m' = huffLeaves c m := by
  simp only [huffLeaves, Memory.freqOf_congr h]

theorem State.heldNodes_congr (hnode : s'.mem.node = s.mem.node) (hcount : s'.nodeCount = s.nodeCount) :
    s'.heldNodes = s.heldNodes := by
  rw [State.heldNodes, State.heldNodes, Memory.nodes_congr hnode, hcount]

theorem wellFormedTree_congr (hcfg : s'.cfg = s.cfg) (hcount : s'.nodeCount = s.nodeCount) (hroot : s'.root = s.root)
    (hnode : s'.mem.node = s.mem.node) : wellFormedTree s' = wellFormedTree s := by
  simp only [wellFormedTree, State.heldNodes_congr hnode hcount, hcfg, hcount, hroot]

theorem Memory.get_write_congr (h : m'.get b = m.get b) (i : Nat) (v : Word) :
    (m'.write b i v).get b = (m.write b i v).get b := by
  simp only [Memory.write, Memory.get_put_self, h]

theorem Memory.get_writeFrom_congr (h : m'.get b = m.get b) (i : Nat) (vs : List Word) :
    (m'.writeFrom b i vs).get b = (m.writeFrom b i vs).get b := by
  induction vs generalizing m m' i with
  | nil => exact h
  | cons v vs ih => exact ih (Memory.get_write_congr h i v) (i + 1)

theorem Memory.get_putNodes_congr (h : m'.node = m.node) (i : Nat) (nds : List (Node × Nat)) :
    (m'.putNodes i nds).node = (m.putNodes i nds).node := by
  induction nds generalizing m m' i with
  | nil => exact h
  | cons p nds ih => exact ih (Memory.get_writeFrom_congr (b := .node) h (8 * i) (p.1.words p.2)) (i + 1)

theorem Memory.putFreq_congr (h : m'.freq = m.freq) (t v : Nat) : (m'.putFreq t v).freq = (m.putFreq t v).freq :=
  Memory.get_writeFrom_congr (b := .freq) h _ _

/-- A buffer drawn afresh depends on the number of the draw alone (60_exceptions.md R306). -/
theorem redraw_congr (h : s'.draws = s.draws) (b : BufId) :
    (s'.mem.redraw b s'.draws).get b = (s.mem.redraw b s.draws).get b := by
  simp only [Memory.redraw, Memory.get_put_self, h]

/-- The memory after FREQ_COUNT has counted tokens that all have a FREQ entry (41_huffman.md R171). -/
def countTokens (ts : List Nat) (m : Memory) : Memory := ts.foldl (fun m t => m.putFreq t (m.freqOf t + 1)) m

theorem get_countTokens_ne (ts : List Nat) (m : Memory) (h : b ≠ .freq) : (countTokens ts m).get b = m.get b := by
  induction ts generalizing m with
  | nil => rfl
  | cons t ts ih => exact (ih _).trans (Memory.get_putFreq_ne m t _ h)

theorem countTokens_congr (h : m'.freq = m.freq) (ts : List Nat) : (countTokens ts m').freq = (countTokens ts m).freq := by
  induction ts generalizing m m' with
  | nil => exact h
  | cons t ts ih => 
    refine ih ?_
    simp only [Memory.freqOf_congr h]
    exact Memory.putFreq_congr h t _

/-- FREQ_COUNT counts all tokens or finds one without a FREQ entry (41_huffman.md R171, R172). -/
theorem freqCountFrom_eq (c : Config) (ts : List Nat) (m : Memory) :
    freqCountFrom c ts m = if ∀ t ∈ ts, t < c.dictCap then .ok (countTokens ts m) else .error (.capacity .freq) := by
  induction ts generalizing m with
  | nil => simp [freqCountFrom, countTokens]
  | cons t ts ih =>
    rw [freqCountFrom]
    split
    · next h => rw [if_neg fun hall => absurd (hall t List.mem_cons_self) (Nat.not_lt.2 h)]
    · next h => simp [ih, Nat.not_le.1 h, countTokens]

/-! ### A stage as a result computed and stored -/

/-- The outcome of a stage that stores the result of a computation, or fails with its error. -/
def StageOutcome.ofResult {α : Type} (i : Instr) (store : α → State → State) (fail : State → State) (r : Except ErrorKind α)
    (s : State) : StageOutcome :=
  match r with
  | .ok a => .ok (store a s)
  | .error e => .failed (fail s) i e

/-- A one-stage command read by the columns of R105: a result is computed from what the command reads, and stored in what it
writes; on an error the failure rule is applied there (60_exceptions.md R306). -/
structure StageForm (i : Instr) where
  Result : Type
  compute : State → Except ErrorKind Result
  store : Result → State → State
  fail : State → State
  outcome : ∀ s, commandOutcome i s = .ofResult i store fail (compute s) s
  compute_reads : ∀ {s s'}, AgreeOn (commandReads i) s s' → compute s' = compute s
  store_frame : ∀ a s, AgreeOutside (commandWrites i) s (store a s)
  store_writes : ∀ a {s s'}, ∀ c ∈ commandWrites i, c.agree s s' → c.agree (store a s) (store a s')
  store_cfg : ∀ a s, (store a s).cfg = s.cfg := by intros; rfl
  store_draws : ∀ a s, (store a s).draws = s.draws := by intros; rfl
  fail_frame : ∀ s, AgreeOutside (commandWrites i) s (fail s)
  fail_writes : ∀ {s s'}, s'.draws = s.draws → ∀ c ∈ commandWrites i, c.agree s s' → c.agree (fail s) (fail s')

/-- LZW_ENC (40_lzw.md R133, R135, R136). -/
def lzwEncForm : StageForm .lzwEnc where
  Result := List Nat × List DictEntry
  compute s := if s.cfg.symCap < s.symLen.toNat then .error (.capacity .sym)
    else lzwEncPass s.cfg (s.mem.symbols s.symLen.toNat)
  store r s := { s with mem := s.mem.putTokens r.1, tokLen := BitVec.ofNat 32 r.1.length, dict := r.2 }
  fail := lzwEncFail
  outcome s := by
    simp only [commandOutcome, lzwEncStage]
    split
    · rfl
    · cases lzwEncPass s.cfg (s.mem.symbols s.symLen.toNat) <;> rfl
  compute_reads := by
    rintro s s' ⟨hcfg, hreads⟩
    have hlen : s'.symLen = s.symLen := hreads .symLen (by decide)
    have hsym : s'.mem.sym = s.mem.sym := hreads .sym (by decide)
    simp only [hcfg, hlen, Memory.symbols_congr hsym]
  store_frame _ s := agreeOutside_of_buffer fun _ hb => Memory.get_putTokens_ne _ _ hb
  store_writes r s s' c hc h := by
    fin_cases hc
    · exact Memory.get_writeFrom_congr (b := .tok) h _ _
    · rfl
    · rfl
  fail_frame s := agreeOutside_of_buffer fun _ hb => Memory.get_redraw_ne _ _ hb
  fail_writes hd c hc _ := by
    fin_cases hc
    · exact redraw_congr hd .tok
    · rfl
    · rfl

/-- LZW_DEC (40_lzw.md R141, R143, R144). -/
def lzwDecForm : StageForm .lzwDec where
  Result := List Byte × List DictEntry
  compute s := if s.cfg.tokCap < s.tokLen.toNat then .error (.capacity .tok)
    else lzwDecPass s.cfg (s.mem.tokens s.tokLen.toNat)
  store r s := { s with mem := s.mem.putSymbols r.1, symLen := BitVec.ofNat 32 r.1.length, dict := r.2 }
  fail := lzwDecFail
  outcome s := by
    simp only [commandOutcome, lzwDecStage]
    split
    · rfl
    · cases lzwDecPass s.cfg (s.mem.tokens s.tokLen.toNat) <;> rfl
  compute_reads := by
    rintro s s' ⟨hcfg, hreads⟩
    have hlen : s'.tokLen = s.tokLen := hreads .tokLen (by decide)
    have htok : s'.mem.tok = s.mem.tok := hreads .tok (by decide)
    simp only [hcfg, hlen, Memory.tokens_congr htok]
  store_frame _ s := agreeOutside_of_buffer fun _ hb => Memory.get_putSymbols_ne _ _ hb
  store_writes r s s' c hc h := by
    fin_cases hc
    · exact Memory.get_writeFrom_congr (b := .sym) h _ _
    · rfl
    · rfl
  fail_frame s := agreeOutside_of_buffer fun _ hb => Memory.get_redraw_ne _ _ hb
  fail_writes hd c hc _ := by
    fin_cases hc
    · exact redraw_congr hd .sym
    · rfl
    · rfl

/-- FREQ_COUNT (41_huffman.md R171 to R173). -/
def freqCountForm : StageForm .freqCount where
  Result := List Nat
  compute s := if s.cfg.tokCap < s.tokLen.toNat then .error (.capacity .tok)
    else if ∀ t ∈ s.mem.tokens s.tokLen.toNat, t < s.cfg.dictCap then .ok (s.mem.tokens s.tokLen.toNat)
    else .error (.capacity .freq)
  store ts s := { s with mem := countTokens ts (s.mem.clear .freq) }
  fail := freqCountFail
  outcome s := by
    simp only [commandOutcome, freqCountStage, freqCountFrom_eq]
    split_ifs <;> rfl
  compute_reads := by
    rintro s s' ⟨hcfg, hreads⟩
    have hlen : s'.tokLen = s.tokLen := hreads .tokLen (by decide)
    have htok : s'.mem.tok = s.mem.tok := hreads .tok (by decide)
    simp only [hcfg, hlen, Memory.tokens_congr htok]
  store_frame ts s := agreeOutside_of_buffer fun _ hb => (get_countTokens_ne ts _ hb).trans (Memory.get_clear_ne _ hb)
  store_writes ts s s' c hc _ := by
    fin_cases hc
    exact countTokens_congr (m := s.mem.clear .freq) (m' := s'.mem.clear .freq) rfl ts
  fail_frame s := agreeOutside_of_buffer fun _ hb => Memory.get_clear_ne _ hb
  fail_writes _ c hc _ := by
    fin_cases hc
    rfl

/-- HUFF_BUILD (41_huffman.md R180, R182, R183). -/
def huffBuildForm : StageForm .huffBuild where
  Result := List (Node × Nat)
  compute s := huffTree (huffLeaves s.cfg s.mem)
  store nds s := { s with mem := s.mem.putNodes 0 nds, nodeCount := BitVec.ofNat 32 nds.length,
                          root := BitVec.ofNat 32 (nds.length - 1) }
  fail := huffBuildFail
  outcome s := by
    simp only [commandOutcome, huffBuildStage]
    cases huffTree (huffLeaves s.cfg s.mem) <;> rfl
  compute_reads := by
    rintro s s' ⟨hcfg, hreads⟩
    have hfreq : s'.mem.freq = s.mem.freq := hreads .freq (by decide)
    simp only [hcfg, huffLeaves_congr _ hfreq]
  store_frame _ s := agreeOutside_of_buffer fun _ hb => Memory.get_putNodes_ne _ _ _ hb
  store_writes nds s s' c hc h := by
    fin_cases hc
    · exact Memory.get_putNodes_congr h 0 nds
    · rfl
    · rfl
  fail_frame s := agreeOutside_of_buffer fun _ hb => Memory.get_redraw_ne _ _ hb
  fail_writes hd c hc _ := by
    fin_cases hc
    · exact redraw_congr hd .node
    · rfl
    · rfl

/-- HUFF_CODES (41_huffman.md R195 to R197). -/
def huffCodesForm : StageForm .huffCodes where
  Result := List (Nat × List Bool)
  compute s := if wellFormedTree s then
      if (treeCodes s.heldNodes s.nodeCount.toNat s.root.toNat).all fun p => decide (p.2.length ≤ s.cfg.codeMaxLen) then
        .ok (treeCodes s.heldNodes s.nodeCount.toNat s.root.toNat)
      else .error (.capacity .codeLen)
    else .error .badTree
  store cs s := { s with code := codeTable cs }
  fail := huffCodesFail
  outcome s := by
    simp only [commandOutcome, huffCodesStage]
    split_ifs <;> rfl
  compute_reads := by
    rintro s s' ⟨hcfg, hreads⟩
    have hcount : s'.nodeCount = s.nodeCount := hreads .nodeCount (by decide)
    have hroot : s'.root = s.root := hreads .root (by decide)
    have hnode : s'.mem.node = s.mem.node := hreads .node (by decide)
    simp only [wellFormedTree_congr hcfg hcount hroot hnode, State.heldNodes_congr hnode hcount, hcfg, hcount, hroot]
  store_frame _ s := by simp [agreeOutside_iff, commandWrites]
  store_writes _ s s' c hc _ := by
    fin_cases hc
    rfl
  fail_frame s := by simp [agreeOutside_iff, commandWrites]
  fail_writes _ c hc _ := by
    fin_cases hc
    rfl

/-- ENT_ENC (42_entropy.md R221 to R224). -/
def entEncForm : StageForm .entEnc where
  Result := List Bool
  compute s := if s.cfg.tokCap < s.tokLen.toNat then .error (.capacity .tok)
    else entEncFrom s.cfg s.code (s.mem.tokens s.tokLen.toNat) 0 0
  store bs s := { s with mem := s.mem.putStream bs, bitLen := BitVec.ofNat 32 bs.length }
  fail := entEncFail
  outcome s := by
    simp only [commandOutcome, entEncStage]
    split
    · rfl
    · cases entEncFrom s.cfg s.code (s.mem.tokens s.tokLen.toNat) 0 0 <;> rfl
  compute_reads := by
    rintro s s' ⟨hcfg, hreads⟩
    have hlen : s'.tokLen = s.tokLen := hreads .tokLen (by decide)
    have htok : s'.mem.tok = s.mem.tok := hreads .tok (by decide)
    have hcode : s'.code = s.code := hreads .code (by decide)
    simp only [hcfg, hlen, hcode, Memory.tokens_congr htok]
  store_frame _ s := agreeOutside_of_buffer fun _ hb => Memory.get_putStream_ne _ _ hb
  store_writes bs s s' c hc h := by
    fin_cases hc
    · exact Memory.get_writeFrom_congr (b := .bits) h _ _
    · rfl
  fail_frame s := agreeOutside_of_buffer fun _ hb => Memory.get_redraw_ne _ _ hb
  fail_writes hd c hc _ := by
    fin_cases hc
    · exact redraw_congr hd .bits
    · rfl

/-- ENT_DEC (42_entropy.md R230 to R233). -/
def entDecForm : StageForm .entDec where
  Result := List Nat
  compute s := if s.cfg.bitCap < s.bitLen.toNat then .error (.capacity .bits)
    else if wellFormedTree s then entDecPass s.cfg s.heldNodes s.root.toNat (s.mem.stream s.bitLen.toNat)
    else .error .badTree
  store ts s := { s with mem := s.mem.putTokens ts, tokLen := BitVec.ofNat 32 ts.length }
  fail := entDecFail
  outcome s := by
    simp only [commandOutcome, entDecStage]
    split
    · rfl
    · split
      · cases entDecPass s.cfg s.heldNodes s.root.toNat (s.mem.stream s.bitLen.toNat) <;> rfl
      · rfl
  compute_reads := by
    rintro s s' ⟨hcfg, hreads⟩
    have hlen : s'.bitLen = s.bitLen := hreads .bitLen (by decide)
    have hbits : s'.mem.bits = s.mem.bits := hreads .bits (by decide)
    have hcount : s'.nodeCount = s.nodeCount := hreads .nodeCount (by decide)
    have hroot : s'.root = s.root := hreads .root (by decide)
    have hnode : s'.mem.node = s.mem.node := hreads .node (by decide)
    simp only [wellFormedTree_congr hcfg hcount hroot hnode, State.heldNodes_congr hnode hcount, hcfg, hlen, hroot,
      Memory.stream_congr hbits]
  store_frame _ s := agreeOutside_of_buffer fun _ hb => Memory.get_putTokens_ne _ _ hb
  store_writes ts s s' c hc h := by
    fin_cases hc
    · exact Memory.get_writeFrom_congr (b := .tok) h _ _
    · rfl
  fail_frame s := agreeOutside_of_buffer fun _ hb => Memory.get_redraw_ne _ _ hb
  fail_writes hd c hc _ := by
    fin_cases hc
    · exact redraw_congr hd .tok
    · rfl

theorem stage_form {i : Instr} (hi : i ∈ stageCommands) : Nonempty (StageForm i) := by
  cases i with
  | lzwEnc => exact ⟨lzwEncForm⟩
  | lzwDec => exact ⟨lzwDecForm⟩
  | freqCount => exact ⟨freqCountForm⟩
  | huffBuild => exact ⟨huffBuildForm⟩
  | huffCodes => exact ⟨huffCodesForm⟩
  | entEnc => exact ⟨entEncForm⟩
  | entDec => exact ⟨entDecForm⟩
  | compress | decompress | clear => exact absurd hi (by decide)

/-! ### Runs of a command from two states -/

/-- What holds of `s` and `s'` alike still holds of `t` and `t'`, reached from them: equal parameters, the same next draw, and
agreement on a component. -/
structure KeepsAgreement (s s' t t' : State) : Prop where
  cfg : s'.cfg = s.cfg → t'.cfg = t.cfg
  draws : s'.draws = s.draws → t'.draws = t.draws
  agree : ∀ c : Component, c.agree s s' → c.agree t t'

theorem KeepsAgreement.trans {u' : State} (h : KeepsAgreement s s' t t') (h' : KeepsAgreement t t' u u') :
    KeepsAgreement s s' u u' where
  cfg e := h'.cfg (h.cfg e)
  draws e := h'.draws (h.draws e)
  agree c e := h'.agree c (h.agree c e)

/-- Two states that agree on a component, each changed only inside `W` and there alike, agree on it afterwards. -/
theorem agree_of_frames (hs : AgreeOutside W s t) (hs' : AgreeOutside W s' t')
    (hw : ∀ c ∈ W, c.agree s s' → c.agree t t') (c : Component) (h : c.agree s s') : c.agree t t' := by
  by_cases hc : c ∈ W
  · exact hw c hc h
  · exact ((hs c hc).symm.trans h).trans (hs' c hc)

/-- Outcomes reached from `s` and `s'` that end in the same way, with the same error if they fail; every agreement of `s` and
`s'` is kept, after a failure if the redrawn buffers take the same draw. -/
def StageOutcome.Alike (s s' : State) : StageOutcome → StageOutcome → Prop
  | .ok t, .ok t' => KeepsAgreement s s' t t'
  | .failed t i e, .failed t' i' e' =>
    i' = i ∧ e' = e ∧ (s'.draws = s.draws → ∀ c : Component, c.agree s s' → c.agree t t')
  | .ok _, .failed _ _ _ => False
  | .failed _ _ _, .ok _ => False

variable {o o' : StageOutcome} {i : Instr} {R : List Component}

theorem StageOutcome.Alike.of_keepsAgreement (hk : KeepsAgreement s s' t t') (h : o.Alike t t' o') : o.Alike s s' o' := by
  cases o <;> cases o'
  case ok.ok => exact hk.trans h
  case failed.failed =>
    obtain ⟨hi, he, hfail⟩ := h
    exact ⟨hi, he, fun hd c hc => hfail (hk.draws hd) c (hk.agree c hc)⟩
  case ok.failed => exact h
  case failed.ok => exact h

theorem StageOutcome.Alike.andThen {f : State → StageOutcome} (h : o.Alike s s' o')
    (hf : ∀ t t', KeepsAgreement s s' t t' → (f t).Alike t t' (f t')) : (o.andThen f).Alike s s' (o'.andThen f) := by
  cases o <;> cases o'
  case ok.ok t t' => exact (hf t t' h).of_keepsAgreement h
  case failed.failed => exact h
  case ok.failed => exact h.elim
  case failed.ok => exact h.elim

theorem StageOutcome.Alike.onFailure {f : State → State} (h : o.Alike s s' o')
    (hf : ∀ (t t' : State) (c : Component), c.agree t t' → c.agree (f t) (f t')) :
    (o.onFailure f).Alike s s' (o'.onFailure f) := by
  cases o <;> cases o'
  case ok.ok => exact h
  case failed.failed =>
    obtain ⟨hi, he, hfail⟩ := h
    exact ⟨hi, he, fun hd c hc => hf _ _ c (hfail hd c hc)⟩
  case ok.failed => exact h
  case failed.ok => exact h

/-- Alike outcomes give the same report, and agreement after completion (43_control.md R263). -/
theorem StageOutcome.Alike.finish (h : o.Alike s s' o') :
    o'.finish.errCode = o.finish.errCode ∧ o'.finish.errStage = o.finish.errStage ∧ o'.finish.errInfo = o.finish.errInfo
      ∧ (s'.draws = s.draws → ∀ c : Component, c.agree s s' → c.agree o.finish o'.finish) := by
  have complete : ∀ {t t' : State} (r : Report) (c : Component), c.agree t t' → c.agree (t.complete r) (t'.complete r) :=
    fun r c hc => ((c.agree_complete _ r).symm.trans hc).trans (c.agree_complete _ r)
  cases o <;> cases o'
  case ok.ok => exact ⟨rfl, rfl, rfl, fun _ c hc => complete _ c (h.agree c hc)⟩
  case failed.failed =>
    obtain ⟨rfl, rfl, hfail⟩ := h
    exact ⟨rfl, rfl, rfl, fun hd c hc => complete _ c (hfail hd c hc)⟩
  case ok.failed => exact h.elim
  case failed.ok => exact h.elim

/-! ### The columns of R105 -/

/-- A stage writes only its column of R105. -/
theorem stage_frame (hi : i ∈ stageCommands) (s : State) : (commandOutcome i s).Leaves (AgreeOutside (commandWrites i) s) := by
  obtain ⟨form⟩ := stage_form hi
  rw [form.outcome]
  cases form.compute s with
  | ok a => exact form.store_frame a s
  | error e => exact form.fail_frame s

/-- A stage depends only on its column of R105. -/
theorem stage_alike (hi : i ∈ stageCommands) (h : AgreeOn (commandReads i) s s') :
    (commandOutcome i s).Alike s s' (commandOutcome i s') := by
  obtain ⟨form⟩ := stage_form hi
  rw [form.outcome, form.outcome, form.compute_reads h]
  cases form.compute s with
  | ok a =>
    exact ⟨fun hc => by rwa [form.store_cfg, form.store_cfg], fun hd => by rwa [form.store_draws, form.store_draws],
      agree_of_frames (form.store_frame a s) (form.store_frame a s') (form.store_writes a)⟩
  | error e =>
    exact ⟨rfl, rfl, fun hd => agree_of_frames (form.fail_frame s) (form.fail_frame s') (form.fail_writes hd)⟩

/-- A stage of a composite command, when what it reads is among what the composite reads (43_control.md R265). -/
theorem StageOutcome.Alike.andThen_stage {f : State → StageOutcome} (h : o.Alike s s' o') (hR : AgreeOn R s s') (i : Instr)
    (hf : ∀ t, commandOutcome i t = f t := by exact fun _ => rfl) (hi : i ∈ stageCommands := by decide)
    (hsub : commandReads i ⊆ R := by decide) : (o.andThen f).Alike s s' (o'.andThen f) :=
  h.andThen fun t t' hk => by
    have hreads := hR.mono hsub
    rw [← hf, ← hf]
    exact stage_alike hi ⟨hk.cfg hreads.cfg, fun c hc => hk.agree c (hreads.agree c hc)⟩

/-- A command writes only its column of R105; a composite command writes no more than its stages do (43_control.md R266, R267). -/
theorem commandOutcome_frame (i : Instr) (s : State) : (commandOutcome i s).Leaves (AgreeOutside (commandWrites i) s) := by
  have stageOf : ∀ {i j : Instr}, i ∈ stageCommands → commandWrites i ⊆ commandWrites j → ∀ t,
      AgreeOutside (commandWrites j) s t → (commandOutcome i t).Leaves (AgreeOutside (commandWrites j) s) :=
    fun hi hsub t ht => (stage_frame hi t).imp fun u hu => ht.trans (hu.mono hsub)
  cases i with
  | compress =>
    refine compressStages_leaves (fun i hi => stageOf ?_ ?_) (fun t ht => ht.trans ?_) fun c _ => c.agree_refl s
    · fin_cases hi <;> decide
    · fin_cases hi <;> decide
    · simp [agreeOutside_iff, commandWrites]
  | decompress =>
    refine decompressStages_leaves (fun i hi => stageOf ?_ ?_) (fun t ht => ht.trans ?_) fun c _ => c.agree_refl s
    · fin_cases hi <;> decide
    · fin_cases hi <;> decide
    · simp [agreeOutside_iff, commandWrites]
  | clear => exact fun c hc => absurd (by cases c <;> decide) hc
  | lzwEnc | lzwDec | freqCount | huffBuild | huffCodes | entEnc | entDec => exact stage_frame (by decide) s

/-- A command depends only on its column of R105, which for a composite command holds the columns of its stages. -/
theorem commandOutcome_alike (i : Instr) (h : AgreeOn (commandReads i) s s') :
    (commandOutcome i s).Alike s s' (commandOutcome i s') := by
  cases i with
  | compress =>
    have first := stage_alike (i := .lzwEnc) (by decide) (h.mono (by decide))
    refine ((((first.andThen_stage h .freqCount).andThen_stage h .huffBuild).andThen_stage h .huffCodes).andThen_stage
      h .entEnc).onFailure fun t t' c hc => ?_
    cases c with
    | bitLen => rfl
    | _ => exact hc
  | decompress =>
    have first := stage_alike (i := .entDec) (by decide) (h.mono (by decide))
    refine (first.andThen_stage h .lzwDec).onFailure fun t t' c hc => ?_
    cases c with
    | symLen => rfl
    | _ => exact hc
  | clear => exact ⟨id, id, fun c _ => by cases c <;> rfl⟩
  | lzwEnc | lzwDec | freqCount | huffBuild | huffCodes | entEnc | entDec => exact stage_alike (by decide) h

end Sys2Proof.Machine
end

section
/-! PROOFS. 30_encoding.md R105, R106: what a command writes and reads. -/

open Sys2Proof.Machine

/-- Settles O20: a command keeps what lies outside its column, and what completion keeps of the rest. -/
theorem commandsWriteOnlyListedState : Obligations.CommandsWriteOnlyListedState := by
  intro i s
  have hframe : AgreeOutside (commandWrites i) s (commandOutcome i s).finish :=
    (commandOutcome_frame i s).finish fun t r ht c hc => (ht c hc).trans (c.agree_complete t r)
  obtain ⟨u, r, hcontrol, -, hfinish⟩ := finish_completes (commandOutcome_control i s)
  obtain ⟨-, -, -, -, -, -, hdoneIe, herrIe, hlatch⟩ := State.control_eq_iff.1 hcontrol
  obtain ⟨hinputs, hreads⟩ := (commandOutcome_host i s).finish fun _ _ ht => ht
  exact ⟨_, exec_eq i s, hframe, commandOutcome_finish_cfg i s, hfinish ▸ hdoneIe, hfinish ▸ herrIe, hfinish ▸ hlatch,
    hinputs, hreads⟩

/-- Settles O21: the outcomes from the two states are alike. -/
theorem commandsReadOnlyListedState : Obligations.CommandsReadOnlyListedState := by
  intro i s s' hcfg hreads
  obtain ⟨hcode, hstage, hinfo, hagree⟩ := (commandOutcome_alike i ⟨hcfg, hreads⟩).finish
  exact ⟨_, _, exec_eq i s, exec_eq i s', hcode, hstage, hinfo, fun hd hw c hc => hagree hd c (hw c hc)⟩
end

section
/-! SUPPORT. The report that the end of a command leaves (43_control.md R263, R264), and the ranges of the parameters. -/

namespace Sys2Proof.Machine

variable {i st : Instr} {s t : State} {e : ErrorKind}

theorem State.reports_complete (t : State) (r : Report) :
    (t.complete r).Reports r.code.toNat r.stage.toNat r.info.toNat where
  busy := rfl
  done := rfl
  err := by
    have hzero : r.code.toNat = 0 ↔ r.code = 0#8 := by rw [← BitVec.toNat_inj]; rfl
    simp [hzero]
  code := rfl
  stage := rfl
  info := rfl

theorem State.succeeded_complete (t : State) : (t.complete Report.ok).Succeeded := t.reports_complete Report.ok

theorem exec_of_ok (h : commandOutcome i s = .ok t) : exec i s = .next (t.complete Report.ok) := by
  rw [exec_eq, h, finish_ok]

theorem exec_of_failed (h : commandOutcome i s = .failed t st e) :
    exec i s = .next (t.complete (Report.failure st.opcode e)) := by
  rw [exec_eq, h, finish_failed]

theorem State.reports_failure (t : State) (st : Instr) (e : ErrorKind) :
    (t.complete (Report.failure st.opcode e)).Reports e.code.toNat st.opcode.toNat e.info.toNat :=
  t.reports_complete _

/-- A command that reports success has not failed in any stage (60_exceptions.md R300). -/
theorem commandOutcome_of_succeeded (h : exec i s = .next t) (ht : t.Succeeded) :
    ∃ u, commandOutcome i s = .ok u ∧ t = u.complete Report.ok := by
  rw [exec_eq] at h
  cases h
  cases ho : commandOutcome i s with
  | ok u => exact ⟨u, rfl, rfl⟩
  | failed u st e =>
    rw [ho] at ht
    exact absurd (BitVec.eq_of_toNat_eq ht.code) e.code_range.1

/-! ### The ranges of a legal configuration (00_scope.md R10) -/

theorem Config.symCap_range {c : Config} (h : c.legal = true) : 1 ≤ c.symCap ∧ c.symCap ≤ 2 ^ 18 := by
  simp only [Config.legal, Bool.and_eq_true, decide_eq_true_eq] at h
  omega

theorem Config.tokCap_range {c : Config} (h : c.legal = true) : 1 ≤ c.tokCap ∧ c.tokCap ≤ 2 ^ 18 := by
  simp only [Config.legal, Bool.and_eq_true, decide_eq_true_eq] at h
  omega

theorem Config.bitCap_le {c : Config} (h : c.legal = true) : c.bitCap ≤ 2 ^ 23 := by
  simp only [Config.legal, Bool.and_eq_true, decide_eq_true_eq] at h
  omega

end Sys2Proof.Machine
end

section
/-! PROOFS. 40_lzw.md R131: the input length is checked before any other work. -/

open Sys2Proof.Machine

/-- Settles O26: both stages look at the length first. -/
theorem lzwInputLengthChecks : Obligations.LzwInputLengthChecks := by
  intro s
  constructor
  · intro hlen
    have hstage : commandOutcome .lzwEnc s = .failed (lzwEncFail s) .lzwEnc (.capacity .sym) := if_pos hlen
    exact ⟨_, exec_of_failed hstage, State.reports_failure ..⟩
  · intro hlen
    have hstage : commandOutcome .lzwDec s = .failed (lzwDecFail s) .lzwDec (.capacity .tok) := if_pos hlen
    exact ⟨_, exec_of_failed hstage, State.reports_failure ..⟩
end

section
/-! SUPPORT. The strings of a DICT table, seen as the strings of the source's encoder and decoder (10_state.md R48; 40_lzw.md R133,
R141). -/

namespace Sys2Proof.Machine

open Sys2Proof.Reference

variable {cap : Nat} {d : List DictEntry}

@[simp] theorem length_dictStrings (d : List DictEntry) : (dictStrings d).length = d.length := by simp [dictStrings]

theorem getElem?_dictStrings {j : Nat} (hj : j < d.length) : (dictStrings d)[j]? = some (dictString d (256 + j)) := by
  simp [dictStrings, hj]

/-- An insertion after a bound token adds one string (40_lzw.md R137). -/
theorem dictStrings_snoc (h : PrefixesOk d) {p : Nat} (c : Byte) (hp : p < dictNext d) (hp' : p < 2 ^ 32) :
    dictStrings (d ++ [newEntry d p c]) = dictStrings d ++ [dictString d p ++ [c]] := by
  simp only [dictStrings, List.length_append, List.length_singleton, List.range_succ, List.map_append, List.map_singleton]
  congr 1
  · refine List.map_congr_left fun j hj => dictString_snoc h _ ?_
    have := List.mem_range.1 hj
    unfold dictNext
    omega
  · rw [← dictString_snoc_new h c hp hp']
    rfl

/-- The strings of a table give the string of every bound token. -/
theorem stringOf_dictStrings {k : Nat} (hk : k < dictNext d) : stringOf (dictStrings d) k = some (dictString d k) := by
  unfold stringOf
  split
  · next hseed => rw [dictString_seed d hseed]
  · unfold dictNext at hk
    rw [getElem?_dictStrings (by omega), Nat.add_sub_cancel' (by omega)]

theorem stringOf_eq_none {D : Strings} {k : Nat} (hk : 256 + D.length ≤ k) : stringOf D k = none := by
  rw [stringOf, if_neg (by omega), List.getElem?_eq_none (by omega)]

theorem DictEntry.eq_of_fields {e e' : DictEntry} (hpre : e'.pre = e.pre) (hsymbol : e'.symbol = e.symbol)
    (hfirst : e'.first = e.first) (hlength : e'.length = e.length) : e' = e := by
  cases e
  cases e'
  simp_all

theorem DictionaryOk.string_ne_nil (h : DictionaryOk cap d) {k : Nat} (hk : k < dictNext d) : dictString d k ≠ [] := by
  intro hnil
  have := h.first k hk
  rw [hnil] at this
  cases this

/-- A string of one symbol is a seed's. -/
theorem DictionaryOk.seed_of_string_singleton (h : DictionaryOk cap d) {k : Nat} {c : Byte} (hk : k < dictNext d)
    (hs : dictString d k = [c]) : k = c.toNat := by
  rcases bound_cases hk with hseed | ⟨j, e, rfl, he⟩
  · rw [dictString_seed d hseed, List.cons.injEq] at hs
    rw [← hs.1, BitVec.toNat_ofNat]
    omega
  · rw [dictString_stored h.pre he] at hs
    exact absurd (List.append_inj_left' (s₁ := _) (s₂ := []) hs rfl)
      (h.string_ne_nil ((h.pre j e he).trans (dictNext_stored_lt he)))

/-- In a table without equal strings the source's token of a string is the bound token that stands for it. -/
theorem tokenOf_dictStrings (h : DictionaryOk cap d) (hdiff : StringsDiffer d) {w : List Byte} {k : Nat} :
    tokenOf (dictStrings d) w = some k ↔ k < dictNext d ∧ dictString d k = w := by
  match w with
  | [] => simpa [tokenOf] using fun hk => h.string_ne_nil hk
  | [c] =>
    have hseed : c.toNat < 256 := c.isLt
    simp only [tokenOf, Option.some.injEq]
    constructor
    · rintro rfl
      exact ⟨seed_bound d hseed, by rw [dictString_seed d hseed]; simp⟩
    · rintro ⟨hk, hs⟩
      exact (h.seed_of_string_singleton hk hs).symm
  | c :: c' :: w =>
    simp only [tokenOf, Option.map_eq_some_iff, List.idxOf?, List.findIdx?_eq_some_iff_getElem, length_dictStrings, beq_iff_eq]
    constructor
    · rintro ⟨j, ⟨hj, hs, -⟩, rfl⟩
      exact ⟨by unfold dictNext; omega, by simpa [dictStrings] using hs⟩
    · rintro ⟨hk, hs⟩
      have hstored : ¬ k < 256 := fun hseed => by simp [dictString_seed d hseed] at hs
      unfold dictNext at hk
      refine ⟨k - 256, ⟨by omega, ?_, fun i hi heq => ?_⟩, by omega⟩
      · simpa [dictStrings, Nat.add_sub_cancel' (Nat.not_lt.1 hstored)] using hs
      · have := hdiff (256 + i) k (by unfold dictNext; omega) hk (by rw [hs]; simpa [dictStrings] using heq)
        omega

/-- The dictionary's lookup finds the source's token of the working string with the next symbol (40_lzw.md R132, R133). -/
theorem dictLookup_eq_tokenOf (h : DictionaryOk cap d) (hdiff : StringsDiffer d) {w : Nat} (hw : w < dictNext d) (x : Byte) :
    dictLookup d w x = tokenOf (dictStrings d) (dictString d w ++ [x]) := by
  have hiff := fun k => tokenOf_dictStrings h hdiff (w := dictString d w ++ [x]) (k := k)
  cases hl : dictLookup d w x with
  | some k =>
    obtain ⟨j, e, rfl, he, rfl, rfl⟩ := dictLookup_eq_some hl
    exact ((hiff _).2 ⟨dictNext_stored_lt he, dictString_stored h.pre he⟩).symm
  | none =>
    refine (Option.eq_none_iff_forall_ne_some.2 fun k hk => ?_).symm
    obtain ⟨hbound, hs⟩ := (hiff k).1 hk
    exact dictString_ne_of_dictLookup_eq_none h hdiff hw hl hbound hs

/-- The string of a stored entry gives its last three fields, and the string of its PREFIX (10_state.md R48). -/
theorem DictionaryOk.fields_of_string {d' : List DictEntry} {j : Nat} {e e' : DictEntry} (h : DictionaryOk cap d)
    (h' : DictionaryOk cap d') (he : d[j]? = some e) (he' : d'[j]? = some e')
    (hs : dictString d' (256 + j) = dictString d (256 + j)) :
    dictString d' e'.pre.toNat = dictString d e.pre.toNat ∧ e'.symbol = e.symbol ∧ e'.first = e.first
      ∧ e'.length = e.length := by
  have hfirst : some e'.first = some e.first := by
    rw [← dictFirst_stored he, ← dictFirst_stored he', ← h.first _ (dictNext_stored_lt he),
      ← h'.first _ (dictNext_stored_lt he'), hs]
  have hlength : e'.length.toNat = e.length.toNat := by
    rw [← dictLength_stored he, ← dictLength_stored he', ← h.length _ (dictNext_stored_lt he),
      ← h'.length _ (dictNext_stored_lt he'), hs]
  rw [dictString_stored h.pre he, dictString_stored h'.pre he'] at hs
  obtain ⟨hpre, hsymbol⟩ := List.append_inj' hs rfl
  exact ⟨hpre, List.singleton_inj.1 hsymbol, Option.some.inj hfirst, BitVec.eq_of_toNat_eq hlength⟩

/-- Two tables for the same strings, all different, are the same table: PREFIX is the one token of its string. -/
theorem dict_eq_of_dictStrings_eq {d' : List DictEntry} (h : DictionaryOk cap d) (h' : DictionaryOk cap d')
    (hdiff : StringsDiffer d) (hs : dictStrings d' = dictStrings d) : d' = d := by
  have hlen : d'.length = d.length := by simpa using congrArg List.length hs
  have hnext : dictNext d' = dictNext d := by rw [dictNext, hlen, dictNext]
  have hstring : ∀ k, k < dictNext d → dictString d' k = dictString d k := fun k hk =>
    Option.some.inj (by rw [← stringOf_dictStrings hk, ← stringOf_dictStrings (hnext ▸ hk), hs])
  refine List.ext_getElem hlen fun j hj' hj => ?_
  have he : d[j]? = some d[j] := List.getElem?_eq_getElem hj
  have he' : d'[j]? = some d'[j] := List.getElem?_eq_getElem hj'
  have hbound : 256 + j < dictNext d := dictNext_stored_lt he
  have hprefix : d[j].pre.toNat < dictNext d := (h.pre j _ he).trans hbound
  have hprefix' : d'[j].pre.toNat < dictNext d := (h'.pre j _ he').trans hbound
  obtain ⟨hpre, hsymbol, hfirst, hlength⟩ := h.fields_of_string h' he he' (hstring _ hbound)
  rw [hstring _ hprefix'] at hpre
  exact DictEntry.eq_of_fields (BitVec.eq_of_toNat_eq (hdiff _ _ hprefix' hprefix hpre)) hsymbol hfirst hlength

end Sys2Proof.Machine
end

section
/-! PROOFS. 40_lzw.md R133 to R136: LZW_ENC against the source's encoder over strings. -/

namespace Sys2Proof.Machine

open Sys2Proof.Reference

variable {c : Config}

/-! ### The source's encoder -/

/-- While the working string has a token, a pass emits at least one. -/
theorem encodeFrom_emits {D : Strings} {w : List Byte} {k : Nat} (h : tokenOf D w = some k) (xs : List Byte) :
    1 ≤ (encodeFrom D w xs).1.length := by
  induction xs generalizing w k with
  | nil => simp [encodeFrom, h]
  | cons x xs ih =>
    rw [encodeFrom]
    split
    · next k' hk' => exact ih hk'
    · simp [h]

/-! ### The pass -/

/-- The limit that a pass meets first: as many insertions as emissions are made before it, and an emission comes before its
insertion (40_lzw.md R134). -/
def firstLimit (c : Config) : Resource := if c.tokCap + 256 ≤ c.dictCap then .tok else .dict

/-- What a pass of LZW_ENC computes after `n` tokens, when the source's encoder gives the tokens and strings `r`: just these when
they fit, and otherwise the error of the limit met first (40_lzw.md R133, R134). -/
def EncodesAs (c : Config) (n : Nat) (r : List Nat × Strings) : Except ErrorKind (List Nat × List DictEntry) → Prop
  | .ok (ts, d) => ts = r.1 ∧ dictStrings d = r.2 ∧ d.length + 1 = n + r.1.length
  | .error e => e = .capacity (firstLimit c) ∧ (c.tokCap < n + r.1.length ∨ c.dictCap < 255 + (n + r.1.length))

variable {w : Nat} {d : List DictEntry}

/-- An emission, with its insertion, of both encoders (40_lzw.md R133, R134, R137). -/
theorem encodesAs_emission {x : Byte} {xs : List Byte} (h : DictionaryOk c.dictCap d) (hdiff : StringsDiffer d)
    (hw : w < dictNext d) (hnone : dictLookup d w x = none)
    (hrest : dictNext d < c.dictCap → EncodesAs c (d.length + 1)
      (encodeFrom (dictStrings d ++ [dictString d w ++ [x]]) [x] xs)
      (lzwEncFrom c xs x.toNat (d.length + 1) (d ++ [newEntry d w x]))) :
    EncodesAs c d.length (encodeFrom (dictStrings d) (dictString d w) (x :: xs)) (lzwEncFrom c (x :: xs) w d.length d) := by
  have hcap : 256 + d.length ≤ c.dictCap := h.next
  have htoken : tokenOf (dictStrings d) (dictString d w) = some w := (tokenOf_dictStrings h hdiff).2 ⟨hw, rfl⟩
  have hemits : 1 ≤ (encodeFrom (dictStrings d ++ [dictString d w ++ [x]]) [x] xs).1.length := encodeFrom_emits rfl xs
  rw [lzwEncFrom, encodeFrom, ← dictLookup_eq_tokenOf h hdiff hw, hnone, htoken]
  simp only [Option.toList_some, List.singleton_append]
  split
  · exact ⟨by rw [firstLimit, if_pos (by omega)], .inl (by simp only [List.length_cons]; omega)⟩
  · split
    · next e hinsert =>
      obtain ⟨hfull, rfl⟩ := dictInsert_eq_error_iff.1 hinsert
      unfold dictNext at hfull
      exact ⟨by rw [firstLimit, if_neg (by omega)], .inr (by simp only [List.length_cons]; omega)⟩
    · next d' hinsert =>
      obtain ⟨hfree, rfl⟩ := dictInsert_eq_ok_iff.1 hinsert
      specialize hrest hfree
      cases hpass : lzwEncFrom c xs x.toNat (d.length + 1) (d ++ [newEntry d w x]) with
      | ok r =>
        rw [hpass] at hrest
        obtain ⟨htokens, hstrings, hcount⟩ := hrest
        exact ⟨by rw [htokens], hstrings, by simp only [List.length_cons]; omega⟩
      | error e =>
        rw [hpass] at hrest
        obtain ⟨hlimit, hover⟩ := hrest
        exact ⟨hlimit, by simp only [List.length_cons]; omega⟩

/-- The pass does what the source's encoder does, as long as it has room: the working string is the string of the token `w`, and
as many tokens have been emitted as strings inserted. -/
theorem lzwEncFrom_encodesAs (hcap : c.dictCap ≤ 2 ^ 16) {xs : List Byte} (h : DictionaryOk c.dictCap d)
    (hdiff : StringsDiffer d) (hw : w < dictNext d) :
    EncodesAs c d.length (encodeFrom (dictStrings d) (dictString d w) xs) (lzwEncFrom c xs w d.length d) := by
  induction xs generalizing w d with
  | nil =>
    have hroom : 256 + d.length ≤ c.dictCap := h.next
    rw [lzwEncFrom, encodeFrom, (tokenOf_dictStrings h hdiff).2 ⟨hw, rfl⟩]
    split
    · exact ⟨by rw [firstLimit, if_pos (by omega)], .inl (by simp; omega)⟩
    · exact ⟨rfl, rfl, rfl⟩
  | cons x xs ih =>
    cases hlookup : dictLookup d w x with
    | some k =>
      have hk := hlookup
      rw [dictLookup_eq_tokenOf h hdiff hw] at hk
      obtain ⟨hbound, hstring⟩ := (tokenOf_dictStrings h hdiff).1 hk
      rw [lzwEncFrom, encodeFrom, hlookup, hk, ← hstring]
      exact ih h hdiff hbound
    | none =>
      refine encodesAs_emission h hdiff hw hlookup fun hfree => ?_
      have hnext := h.next
      have hseed : x.toNat < 256 := x.isLt
      have hrest := ih (h.insert x hw hfree hcap) (hdiff.insert h hw (by omega) hlookup) (seed_bound _ hseed)
      rwa [dictStrings_snoc h.pre x hw (by omega), dictString_seed _ hseed, BitVec.ofNat_toNat, BitVec.setWidth_eq,
        List.length_append, List.length_singleton] at hrest

theorem lzwEncPass_encodesAs (hc : c.legal = true) (x : Byte) (xs : List Byte) :
    EncodesAs c 0 (lzwEncode (x :: xs)) (lzwEncPass c (x :: xs)) := by
  obtain ⟨hlow, hhigh⟩ := Config.dictCap_range hc
  have hseed : x.toNat < 256 := x.isLt
  have h := lzwEncFrom_encodesAs (c := c) hhigh (xs := xs) (dictionaryOk_nil hlow) stringsDiffer_nil (seed_bound _ hseed)
  rwa [dictString_seed _ hseed, BitVec.ofNat_toNat, BitVec.setWidth_eq] at h

/-- A pass that succeeds has computed the tokens and the strings of the source's encoder (40_lzw.md R135). -/
theorem lzwEncPass_ok (hc : c.legal = true) {xs : List Byte} {ts : List Nat} {d : List DictEntry}
    (h : lzwEncPass c xs = .ok (ts, d)) : lzwEncode xs = (ts, dictStrings d) ∧ d.length = ts.length - 1 := by
  cases xs with
  | nil => cases h; exact ⟨rfl, rfl⟩
  | cons x xs =>
    have hpass := lzwEncPass_encodesAs hc x xs
    rw [h] at hpass
    obtain ⟨htokens, hstrings, hcount⟩ := hpass
    exact ⟨Prod.ext htokens.symm hstrings.symm, by rw [htokens]; omega⟩

/-- A pass that fails has met its first limit, because the source's encoder needs more (40_lzw.md R134). -/
theorem lzwEncPass_error (hc : c.legal = true) {xs : List Byte} {e : ErrorKind} (h : lzwEncPass c xs = .error e) :
    e = .capacity (firstLimit c)
      ∧ (c.tokCap < (lzwEncode xs).1.length ∨ c.dictCap < 255 + (lzwEncode xs).1.length) := by
  cases xs with
  | nil => cases h
  | cons x xs =>
    have hpass := lzwEncPass_encodesAs hc x xs
    rw [h] at hpass
    simpa [EncodesAs] using hpass

/-! ### The tokens -/

theorem tokenOf_lt {D : Strings} {w : List Byte} {k : Nat} (h : tokenOf D w = some k) : k < 256 + D.length := by
  match w with
  | [] => cases h
  | [x] =>
    obtain rfl : x.toNat = k := Option.some.inj h
    have hseed : x.toNat < 256 := x.isLt
    omega
  | x :: x' :: w =>
    obtain ⟨j, hj, rfl⟩ := Option.map_eq_some_iff.1 h
    obtain ⟨hlt, -⟩ := List.findIdx?_eq_some_iff_getElem.1 hj
    omega

theorem encodeFrom_length_strings (D : Strings) (w xs : List Byte) : D.length ≤ (encodeFrom D w xs).2.length := by
  induction xs generalizing D w with
  | nil => exact Nat.le_refl _
  | cons x xs ih =>
    rw [encodeFrom]
    split
    · exact ih D _
    · have := ih (D ++ [w ++ [x]]) [x]
      simp only [List.length_append, List.length_singleton] at this
      exact Nat.le_of_succ_le this

/-- Every token emitted is bound in the end. -/
theorem encodeFrom_lt (D : Strings) (w xs : List Byte) :
    ∀ k ∈ (encodeFrom D w xs).1, k < 256 + (encodeFrom D w xs).2.length := by
  induction xs generalizing D w with
  | nil => exact fun k hk => tokenOf_lt (Option.mem_toList.1 hk)
  | cons x xs ih =>
    rw [encodeFrom]
    split
    · exact ih D _
    · intro k hk
      rcases List.mem_append.1 hk with hk | hk
      · have hlt := tokenOf_lt (Option.mem_toList.1 hk)
        have hlen := encodeFrom_length_strings (D ++ [w ++ [x]]) [x] xs
        simp only [List.length_append, List.length_singleton] at hlen
        show k < 256 + (encodeFrom (D ++ [w ++ [x]]) [x] xs).2.length
        omega
      · exact ih _ _ k hk

theorem lzwEncode_lt (xs : List Byte) : ∀ k ∈ (lzwEncode xs).1, k < 256 + (lzwEncode xs).2.length := by
  cases xs with
  | nil => simp [lzwEncode]
  | cons x xs => exact encodeFrom_lt [] [x] xs

/-- An encoder emits at most one token per symbol. -/
theorem encodeFrom_length_tokens (D : Strings) (w xs : List Byte) : (encodeFrom D w xs).1.length ≤ xs.length + 1 := by
  have hone : ∀ D w, (tokenOf D w).toList.length ≤ 1 := fun D w => by cases tokenOf D w <;> simp
  induction xs generalizing D w with
  | nil => exact hone D w
  | cons x xs ih =>
    rw [encodeFrom]
    split
    · exact (ih D _).trans (by simp)
    · have := ih (D ++ [w ++ [x]]) [x]
      have := hone D w
      simp only [List.length_append, List.length_cons]
      omega

theorem lzwEncode_length_le (xs : List Byte) : (lzwEncode xs).1.length ≤ xs.length := by
  cases xs with
  | nil => exact Nat.le_refl _
  | cons x xs => exact encodeFrom_length_tokens [] [x] xs

/-! ### The stage -/

/-- The tokens and entries that LZW_ENC would need for the symbols held fit. -/
structure LzwFits (s : State) : Prop where
  symbols : s.symLen.toNat ≤ s.cfg.symCap
  tokens : (lzwEncode (s.mem.symbols s.symLen.toNat)).1.length ≤ s.cfg.tokCap
  entries : 255 + (lzwEncode (s.mem.symbols s.symLen.toNat)).1.length ≤ s.cfg.dictCap

/-- What a successful LZW_ENC leaves, said of the source's encoder: its tokens in TOK, and a dictionary without equal strings that
stands for its strings (R135; 10_state.md R49). -/
structure LzwEncoded (s t : State) (ts : List Nat) : Prop where
  cfg : t.cfg = s.cfg
  source : lzwEncode (s.mem.symbols s.symLen.toNat) = (ts, dictStrings t.dict)
  tokLen : t.tokLen.toNat = ts.length
  tokens : t.mem.tokens ts.length = ts
  tokCap : ts.length ≤ s.cfg.tokCap
  symCap : s.symLen.toNat ≤ s.cfg.symCap
  bound : ∀ k ∈ ts, k < dictNext t.dict
  count : t.dict.length = ts.length - 1
  ok : DictionaryOk s.cfg.dictCap t.dict
  differ : StringsDiffer t.dict
  tail : ∀ i, ts.length ≤ i → t.mem.read .tok i = s.mem.read .tok i
  sym : t.mem.sym = s.mem.sym
  symLen : t.symLen = s.symLen

theorem LzwEncoded.complete {s t : State} {ts : List Nat} (h : LzwEncoded s t ts) (r : Report) :
    LzwEncoded s (t.complete r) ts :=
  ⟨h.cfg, h.source, h.tokLen, h.tokens, h.tokCap, h.symCap, h.bound, h.count, h.ok, h.differ, h.tail, h.sym, h.symLen⟩

theorem lzwEncoded_of_stage {s t : State} (hc : s.cfg.legal = true) (h : lzwEncStage s = .ok t) : ∃ ts, LzwEncoded s t ts := by
  rcases lzwEncStage_cases s with ⟨ts, d, hsymbols, hpass, hok⟩ | ⟨e, hfailed, -⟩
  · cases h.symm.trans hok
    obtain ⟨hencode, hcount⟩ := lzwEncPass_ok hc hpass
    have hd := lzwEncPass_dictionaryOk hc hpass
    have hnext := hd.next
    have htokCap := lzwEncPass_length hpass
    have htokRange := (Config.tokCap_range hc).2
    have hrange := (Config.dictCap_range hc).2
    have hbound : ∀ k ∈ ts, k < dictNext d := by
      simpa [hencode, dictNext] using lzwEncode_lt (s.mem.symbols s.symLen.toNat)
    exact ⟨ts, rfl, hencode, Nat.mod_eq_of_lt (by omega),
      Memory.tokens_putTokens _ _ fun k hk => (hbound k hk).trans (by omega), htokCap, hsymbols, hbound, hcount, hd,
      lzwEncPass_stringsDiffer hc hpass, fun i hi => Memory.read_putTokens_of_le _ _ hi,
      Memory.get_putTokens_ne _ _ (b := .sym) (by decide), rfl⟩
  · cases h.symm.trans hfailed

/-- LZW_ENC succeeds when its tokens and entries fit (40_lzw.md R133, R135). -/
theorem lzwEncStage_of_fits {s : State} (hc : s.cfg.legal = true) (hfit : LzwFits s) : ∃ t, lzwEncStage s = .ok t := by
  obtain ⟨hsymbols, htokens, hentries⟩ := hfit
  rcases lzwEncStage_cases s with ⟨ts, d, -, hpass, hstage⟩ | ⟨e, -, ⟨hlong, -⟩ | ⟨-, hpass⟩⟩
  · exact ⟨_, hstage⟩
  · omega
  · have := (lzwEncPass_error hc hpass).2
    omega

/-- LZW_ENC fails with the limit it meets first when its tokens or entries do not fit (40_lzw.md R134). -/
theorem lzwEncStage_of_not_fits {s : State} (hc : s.cfg.legal = true) (hsymbols : s.symLen.toNat ≤ s.cfg.symCap)
    (hfit : ¬ LzwFits s) : lzwEncStage s = .failed (lzwEncFail s) .lzwEnc (.capacity (firstLimit s.cfg)) := by
  rcases lzwEncStage_cases s with ⟨ts, d, -, -, hstage⟩ | ⟨e, hstage, ⟨hlong, -⟩ | ⟨-, hpass⟩⟩
  · obtain ⟨ts, henc⟩ := lzwEncoded_of_stage hc hstage
    have hnext := henc.ok.next
    have hcount := henc.count
    unfold dictNext at hnext
    refine absurd ⟨hsymbols, ?_, ?_⟩ hfit
    · rw [henc.source]; exact henc.tokCap
    · rw [henc.source]; show 255 + ts.length ≤ s.cfg.dictCap; omega
  · omega
  · rw [hstage, (lzwEncPass_error hc hpass).1]

end Sys2Proof.Machine

open Sys2Proof.Machine Sys2Proof.Reference

/-- Settles O27: with room the pass computes what the source's encoder does, and its tokens are stored. -/
theorem lzwEncRefinesSource : Obligations.LzwEncRefinesSource := by
  intro s ts D hc hsymbols hencode htok hdict
  obtain ⟨t, hstage⟩ := lzwEncStage_of_fits hc ⟨hsymbols, by rw [hencode]; exact htok, by rw [hencode]; exact hdict⟩
  obtain ⟨ts', henc⟩ := lzwEncoded_of_stage hc hstage
  obtain ⟨rfl, hd⟩ := Prod.mk.inj (henc.source.symm.trans hencode)
  exact ⟨_, exec_of_ok hstage, t.succeeded_complete, henc.tokLen, henc.tokens, henc.tail, hd,
    congrArg (256 + ·) henc.count, henc.sym, henc.symLen⟩

/-- Settles O28: without room the pass fails with the limit it meets first. -/
theorem lzwEncCapacityFailure : Obligations.LzwEncCapacityFailure := by
  intro s ts D hc hsymbols hencode hover
  have hfit : ¬ LzwFits s := by
    rintro ⟨-, htokens, hentries⟩
    rw [hencode] at htokens hentries
    simp only at htokens hentries
    omega
  refine ⟨_, exec_of_failed (lzwEncStage_of_not_fits hc hsymbols hfit), ?_, rfl, rfl, rfl, ?_, ?_, rfl⟩
  · have hinfo : (ErrorKind.capacity (firstLimit s.cfg)).info.toNat = if s.cfg.tokCap + 256 ≤ s.cfg.dictCap then 2 else 4 := by
      unfold firstLimit
      split <;> rfl
    exact hinfo ▸ State.reports_failure ..
  · intro i
    exact (Memory.read_redraw_self ..).trans BitVec.and_allOnes
  · exact Memory.get_redraw_ne s.mem s.draws (b := .tok) (b' := .sym) (by decide)
end

section
/-! PROOFS. 40_lzw.md R141 to R145: LZW_DEC against the source's decoder over strings. -/

namespace Sys2Proof.Machine

open Sys2Proof.Reference

variable {c : Config}

/-! ### The source's decoder -/

theorem decodeFrom_cons (D : Strings) (w : List Byte) (k : Nat) (ks : List Nat) :
    decodeFrom D w (k :: ks) = (entryFor D w k).bind fun e =>
      (decodeFrom (D ++ [w ++ e.take 1]) e ks).map fun r => (e ++ r.1, r.2) := by
  rw [decodeFrom]
  cases entryFor D w k with
  | none => rfl
  | some e => cases h : decodeFrom (D ++ [w ++ e.take 1]) e ks <;> simp [h]

theorem lzwDecode_cons (k : Nat) (ks : List Nat) :
    lzwDecode (k :: ks) = (stringOf [] k).bind fun e => (decodeFrom [] e ks).map fun r => (e ++ r.1, r.2) := by
  rw [lzwDecode]
  cases stringOf [] k with
  | none => rfl
  | some e => cases h : decodeFrom [] e ks <;> simp [h]

/-- The first token is a symbol (R141). -/
theorem lzwDecode_seed {k : Nat} (hk : k < 256) (ks : List Nat) :
    lzwDecode (k :: ks) = (decodeFrom [] [BitVec.ofNat 8 k] ks).map fun r => ([BitVec.ofNat 8 k] ++ r.1, r.2) := by
  rw [lzwDecode_cons, stringOf, if_pos hk, Option.bind_some]

/-- Every token after the first adds one string. -/
theorem decodeFrom_length_strings {D D' : Strings} {w out : List Byte} {ks : List Nat}
    (h : decodeFrom D w ks = some (out, D')) : D'.length = D.length + ks.length := by
  induction ks generalizing D w out with
  | nil => cases h; rfl
  | cons k ks ih =>
    rw [decodeFrom_cons] at h
    obtain ⟨e, -, h⟩ := Option.bind_eq_some_iff.1 h
    obtain ⟨r, hr, heq⟩ := Option.map_eq_some_iff.1 h
    cases heq
    have := ih hr
    simp only [List.length_append, List.length_cons, List.length_nil] at this ⊢
    omega

/-! ### One token -/

/-- What the entry of a token can be: the string of a bound token, or the KwKwK string (R141, R145). -/
theorem lzwDecEntry_eq_some {d : List DictEntry} {prev k : Nat} {e : List Byte} (h : lzwDecEntry d prev k = some e) :
    (k < dictNext d ∧ dictString d k = e) ∨ (k = dictNext d ∧ dictString d prev ++ [dictFirst d prev] = e) := by
  unfold lzwDecEntry at h
  split at h
  · next hk => exact .inl ⟨hk, Option.some.inj h⟩
  · split at h
    · next hk => exact .inr ⟨hk, Option.some.inj h⟩
    · cases h

/-- The pass of LZW_DEC stands where the source's decoder does: with the same strings, and the string of the token before. -/
structure DecodesAlike (c : Config) (d : List DictEntry) (prev : Nat) (D : Strings) (w : List Byte) : Prop where
  ok : DictionaryOk c.dictCap d
  bound : prev < dictNext d
  strings : dictStrings d = D
  word : dictString d prev = w

variable {d : List DictEntry} {prev : Nat} {D : Strings} {w : List Byte}

theorem DecodesAlike.length (h : DecodesAlike c d prev D w) : D.length = d.length := by
  rw [← h.strings, length_dictStrings]

theorem DecodesAlike.take_word (h : DecodesAlike c d prev D w) : w.take 1 = [dictFirst d prev] := by
  have hfirst := h.ok.first prev h.bound
  rw [h.word] at hfirst
  rw [List.take_one, hfirst]
  rfl

/-- The entry of a token is the source's (R141, R145). -/
theorem DecodesAlike.entry (h : DecodesAlike c d prev D w) (k : Nat) : lzwDecEntry d prev k = entryFor D w k := by
  have hlen : dictNext d = 256 + D.length := by rw [h.length, dictNext]
  unfold lzwDecEntry entryFor
  split
  · next hk => rw [← h.strings, stringOf_dictStrings hk]
  · next hk => rw [stringOf_eq_none (by omega), h.word, ← h.take_word, hlen]

/-- After an entry and its insertion the two stand alike again, the KwKwK entry being the string just inserted (R141, R145). -/
theorem DecodesAlike.step (hcap : c.dictCap ≤ 2 ^ 16) (h : DecodesAlike c d prev D w) {k : Nat} {e : List Byte}
    (he : entryFor D w k = some e) (hroom : dictNext d < c.dictCap) :
    DecodesAlike c (d ++ [newEntry d prev (e.headD 0#8)]) k (D ++ [w ++ e.take 1]) e := by
  have hbound := h.bound
  have hnew := dictString_snoc_new h.ok.pre (e.headD 0#8) hbound (by omega)
  rw [h.word] at hnew
  have hcases := lzwDecEntry_eq_some ((h.entry k).trans he)
  rw [h.word, ← h.take_word] at hcases
  have hne : w ≠ [] := h.word ▸ h.ok.string_ne_nil hbound
  have hhead : e.take 1 = [e.headD 0#8] := by
    have : e ≠ [] := by
      rcases hcases with ⟨hk, rfl⟩ | ⟨-, rfl⟩
      · exact h.ok.string_ne_nil hk
      · simp [hne]
    obtain ⟨x, xs, rfl⟩ := List.exists_cons_of_ne_nil this
    rfl
  refine ⟨h.ok.insert _ hbound hroom hcap, ?_, ?_, ?_⟩
  · rw [dictNext_snoc]; omega
  · rw [dictStrings_snoc h.ok.pre _ hbound (by omega), h.strings, h.word, hhead]
  · rcases hcases with ⟨hk, rfl⟩ | ⟨rfl, rfl⟩
    · exact dictString_snoc h.ok.pre _ hk
    · rw [hnew]
      obtain ⟨x, xs, rfl⟩ := List.exists_cons_of_ne_nil hne
      rfl

/-! ### The pass -/

/-- The error at token `i`, when `n` symbols were written before the pass, if what the source's decoder gives up to and with that
token does not go on or does not fit (R142). -/
def decodeError (c : Config) (i n : Nat) : Option (List Byte × Strings) → Option ErrorKind
  | none => some (.invalidToken i)
  | some (out, d) =>
    if c.symCap < n + out.length then some (.capacity .sym)
    else if c.dictCap < 256 + d.length then some (.capacity .dict)
    else none

theorem decodeError_eq_none {i n : Nat} {r : Option (List Byte × Strings)} :
    decodeError c i n r = none ↔ ∃ out d, r = some (out, d) ∧ n + out.length ≤ c.symCap ∧ 256 + d.length ≤ c.dictCap := by
  match r with
  | none => simp [decodeError]
  | some (out, d) => simp [decodeError, ite_eq_iff]

/-- Whether there is an error does not depend on the token's index. -/
theorem decodeError_none_of_none {i j n : Nat} {r : Option (List Byte × Strings)} (h : decodeError c i n r = none) :
    decodeError c j n r = none :=
  decodeError_eq_none.2 (decodeError_eq_none.1 h)

/-- Symbols in front of the output count as symbols written before. -/
theorem decodeError_append (i n : Nat) (e : List Byte) (r : Option (List Byte × Strings)) :
    decodeError c i n (r.map fun r => (e ++ r.1, r.2)) = decodeError c i (n + e.length) r := by
  cases r with
  | none => rfl
  | some r => simp [decodeError, Nat.add_assoc]

theorem decodeError_seed {k : Nat} (hk : k < 256) (ks : List Nat) (i : Nat) :
    decodeError c i 0 (lzwDecode (k :: ks)) = decodeError c i 1 (decodeFrom [] [BitVec.ofNat 8 k] ks) := by
  rw [lzwDecode_seed hk, decodeError_append, List.length_singleton]

/-- Where the source's decoder goes on after a token within the capacities, so does the rest of it. -/
theorem decodeFrom_cons_fits {k : Nat} {ks : List Nat} {i n : Nat}
    (h : decodeError c i n (decodeFrom D w (k :: ks)) = none) :
    ∃ e, entryFor D w k = some e ∧ n + e.length ≤ c.symCap ∧ 256 + D.length < c.dictCap
      ∧ decodeFrom D w (k :: ks) = (decodeFrom (D ++ [w ++ e.take 1]) e ks).map (fun r => (e ++ r.1, r.2))
      ∧ decodeError c i (n + e.length) (decodeFrom (D ++ [w ++ e.take 1]) e ks) = none := by
  have hcons := decodeFrom_cons D w k ks
  cases he : entryFor D w k with
  | none => rw [hcons, he] at h; cases h
  | some e =>
    rw [he, Option.bind_some] at hcons
    rw [hcons, decodeError_append] at h
    obtain ⟨out, D', hr, hsym, hdict⟩ := decodeError_eq_none.1 h
    have hlen := decodeFrom_length_strings hr
    simp only [List.length_append, List.length_singleton] at hlen
    exact ⟨e, rfl, by omega, by omega, hcons, h⟩

/-- A token of the pass that goes on (R141). -/
theorem lzwDecFrom_cons_ok (h : DecodesAlike c d prev D w) {k i n : Nat} {e : List Byte} (he : entryFor D w k = some e)
    (hsym : n + e.length ≤ c.symCap) (hdict : 256 + D.length < c.dictCap) (ks : List Nat) :
    lzwDecFrom c (k :: ks) i prev n d =
      (lzwDecFrom c ks (i + 1) k (n + e.length) (d ++ [newEntry d prev (e.headD 0#8)])).map fun r => (e ++ r.1, r.2) := by
  have hinsert : dictInsert c.dictCap d prev (e.headD 0#8) = .ok (d ++ [newEntry d prev (e.headD 0#8)]) :=
    dictInsert_eq_ok_iff.2 ⟨by rw [dictNext, ← h.length]; exact hdict, rfl⟩
  rw [lzwDecFrom, h.entry, he]
  simp only [if_neg (Nat.not_lt.2 hsym), hinsert]
  cases lzwDecFrom c ks (i + 1) k (n + e.length) (d ++ [newEntry d prev (e.headD 0#8)]) <;> rfl

/-- A token at which the pass ends: its entry is looked at first, then the room for its symbols, then the room for its
insertion (R142). -/
theorem lzwDecFrom_cons_error (h : DecodesAlike c d prev D w) {k i n : Nat} {x : ErrorKind}
    (hx : decodeError c i n (decodeFrom D w [k]) = some x) (ks : List Nat) :
    lzwDecFrom c (k :: ks) i prev n d = .error x := by
  rw [decodeFrom_cons] at hx
  rw [lzwDecFrom, h.entry]
  cases he : entryFor D w k with
  | none =>
    rw [he] at hx
    exact congrArg Except.error (Option.some.inj hx)
  | some e =>
    simp only [he, Option.bind_some, decodeFrom, Option.map_some, List.append_nil, decodeError, List.length_append,
      List.length_singleton] at hx
    simp only
    split at hx
    · next hsym => rw [if_pos hsym]; exact congrArg Except.error (Option.some.inj hx)
    · next hsym =>
      split at hx
      · next hdict =>
        have hinsert : dictInsert c.dictCap d prev (e.headD 0#8) = .error (.capacity .dict) :=
          dictInsert_eq_error_iff.2 ⟨by rw [dictNext, ← h.length]; omega, rfl⟩
        simp only [if_neg hsym, hinsert]
        exact congrArg Except.error (Option.some.inj hx)
      · cases hx

/-- The pass decodes what the source's decoder does, within the capacities (R141, R143). -/
theorem lzwDecFrom_ok (hcap : c.dictCap ≤ 2 ^ 16) {ks : List Nat} {i n : Nat} (h : DecodesAlike c d prev D w)
    (hfit : decodeError c i n (decodeFrom D w ks) = none) :
    ∃ out d', decodeFrom D w ks = some (out, dictStrings d') ∧ lzwDecFrom c ks i prev n d = .ok (out, d') := by
  induction ks generalizing i n d prev D w with
  | nil => exact ⟨[], d, by rw [decodeFrom, h.strings], rfl⟩
  | cons k ks ih =>
    obtain ⟨e, he, hsym, hdict, hcons, hrest⟩ := decodeFrom_cons_fits hfit
    have hstep := h.step hcap he (by rw [dictNext, ← h.length]; exact hdict)
    obtain ⟨out, d', hsource, hpass⟩ := ih (i := i + 1) hstep (decodeError_none_of_none hrest)
    refine ⟨e ++ out, d', ?_, ?_⟩
    · rw [hcons, hsource]; rfl
    · rw [lzwDecFrom_cons_ok h he hsym hdict, hpass]; rfl

/-- The first token `j` of the pass that does not go on or does not fit decides the error (R142). -/
theorem lzwDecFrom_error (hcap : c.dictCap ≤ 2 ^ 16) {ks : List Nat} {i n j : Nat} {x : ErrorKind}
    (h : DecodesAlike c d prev D w) (hj : j < ks.length) (hfit : decodeError c (i + j) n (decodeFrom D w (ks.take j)) = none)
    (hx : decodeError c (i + j) n (decodeFrom D w (ks.take (j + 1))) = some x) :
    lzwDecFrom c ks i prev n d = .error x := by
  induction ks generalizing i n j d prev D w with
  | nil => cases hj
  | cons k ks ih =>
    cases j with
    | zero => exact lzwDecFrom_cons_error h hx ks
    | succ j =>
      rw [List.take_succ_cons] at hfit hx
      obtain ⟨e, he, hsym, hdict, -, hrest⟩ := decodeFrom_cons_fits hfit
      have hstep := h.step hcap he (by rw [dictNext, ← h.length]; exact hdict)
      rw [decodeFrom_cons, he, Option.bind_some, decodeError_append] at hx
      rw [show i + (j + 1) = i + 1 + j by omega] at hx hrest
      rw [lzwDecFrom_cons_ok h he hsym hdict, ih hstep (Nat.lt_of_succ_lt_succ hj) hrest hx]
      rfl

theorem decodesAlike_first (hc : c.legal = true) {k : Nat} (hk : k < 256) : DecodesAlike c [] k [] [BitVec.ofNat 8 k] where
  ok := dictionaryOk_nil (Config.dictCap_range hc).1
  bound := seed_bound [] hk
  strings := rfl
  word := dictString_seed [] hk

theorem lzwDecPass_seed (hc : c.legal = true) {k : Nat} (hk : k < 256) (ks : List Nat) :
    lzwDecPass c (k :: ks) = (lzwDecFrom c ks 1 k 1 []).map fun r => (BitVec.ofNat 8 k :: r.1, r.2) := by
  have hsym := (Config.symCap_range hc).1
  rw [lzwDecPass, if_neg (Nat.not_le.2 hk), if_neg (Nat.not_lt.2 hsym)]
  cases lzwDecFrom c ks 1 k 1 [] <;> rfl

/-- The pass of LZW_DEC decodes what the source's decoder does, within the capacities (R143). -/
theorem lzwDecPass_ok (hc : c.legal = true) {ks : List Nat} (hfit : decodeError c 0 0 (lzwDecode ks) = none) :
    ∃ out d, lzwDecode ks = some (out, dictStrings d) ∧ lzwDecPass c ks = .ok (out, d) := by
  cases ks with
  | nil => exact ⟨[], [], rfl, rfl⟩
  | cons k ks =>
    by_cases hk : k < 256
    · rw [decodeError_seed hk] at hfit
      obtain ⟨out, d, hsource, hpass⟩ := lzwDecFrom_ok (i := 1) (Config.dictCap_range hc).2 (decodesAlike_first hc hk)
        (decodeError_none_of_none hfit)
      refine ⟨BitVec.ofNat 8 k :: out, d, ?_, ?_⟩
      · rw [lzwDecode_seed hk, hsource]; rfl
      · rw [lzwDecPass_seed hc hk, hpass]; rfl
    · rw [lzwDecode_cons, stringOf_eq_none (by simpa using hk)] at hfit
      cases hfit

/-- The first token at which the source's decoder does not go on or does not fit decides the error of LZW_DEC (R142). -/
theorem lzwDecPass_error (hc : c.legal = true) {ks : List Nat} {i : Nat} {x : ErrorKind} (hi : i < ks.length)
    (hfit : decodeError c i 0 (lzwDecode (ks.take i)) = none)
    (hx : decodeError c i 0 (lzwDecode (ks.take (i + 1))) = some x) : lzwDecPass c ks = .error x := by
  cases ks with
  | nil => cases hi
  | cons k ks =>
    rw [List.take_succ_cons] at hx
    by_cases hk : k < 256
    · rw [decodeError_seed hk] at hx
      cases i with
      | zero =>
        have hsym := (Config.symCap_range hc).1
        have hdict := (Config.dictCap_range hc).1
        rw [List.take_zero, decodeFrom, decodeError_eq_none.2 ⟨[], [], rfl, by simpa using hsym, by simpa using hdict⟩] at hx
        cases hx
      | succ i =>
        rw [List.take_succ_cons, decodeError_seed hk] at hfit
        rw [Nat.add_comm i 1] at hfit hx
        rw [lzwDecPass_seed hc hk, lzwDecFrom_error (Config.dictCap_range hc).2 (decodesAlike_first hc hk)
          (Nat.lt_of_succ_lt_succ hi) hfit (by rwa [Nat.add_comm 1 i] at hx ⊢)]
        rfl
    · cases i with
      | zero =>
        rw [lzwDecode_cons, stringOf_eq_none (by simpa using hk)] at hx
        rw [lzwDecPass, if_pos (Nat.not_lt.1 hk)]
        exact congrArg Except.error (Option.some.inj hx)
      | succ i =>
        rw [List.take_succ_cons, lzwDecode_cons, stringOf_eq_none (by simpa using hk)] at hfit
        cases hfit

/-! ### The stage -/

/-- LZW_DEC succeeds where the source's decoder does within the capacities (R143). -/
theorem lzwDecStage_of_fits {s : State} {out : List Byte} {D : Strings} (hc : s.cfg.legal = true)
    (htokens : s.tokLen.toNat ≤ s.cfg.tokCap) (hdecode : lzwDecode (s.mem.tokens s.tokLen.toNat) = some (out, D))
    (hsym : out.length ≤ s.cfg.symCap) (hdict : 256 + D.length ≤ s.cfg.dictCap) :
    ∃ d, dictStrings d = D ∧ DictionaryOk s.cfg.dictCap d
      ∧ lzwDecStage s = .ok { s with mem := s.mem.putSymbols out, symLen := BitVec.ofNat 32 out.length, dict := d } := by
  obtain ⟨out', d, hsource, hpass⟩ :=
    lzwDecPass_ok hc (decodeError_eq_none.2 ⟨out, D, hdecode, by simpa using hsym, hdict⟩)
  rw [hdecode, Option.some.injEq, Prod.mk.injEq] at hsource
  obtain ⟨rfl, rfl⟩ := hsource
  exact ⟨d, rfl, lzwDecPass_dictionaryOk hc hpass, by simp only [lzwDecStage, if_neg (Nat.not_lt.2 htokens), hpass]⟩

/-- LZW_DEC fails at the first token at which the source's decoder does not go on within the capacities (R142, R144). -/
theorem lzwDecStage_of_error {s : State} {i : Nat} {x : ErrorKind} (hc : s.cfg.legal = true)
    (htokens : s.tokLen.toNat ≤ s.cfg.tokCap) (hi : i < s.tokLen.toNat)
    (hfit : decodeError s.cfg i 0 (lzwDecode ((s.mem.tokens s.tokLen.toNat).take i)) = none)
    (hx : decodeError s.cfg i 0 (lzwDecode ((s.mem.tokens s.tokLen.toNat).take (i + 1))) = some x) :
    lzwDecStage s = .failed (lzwDecFail s) .lzwDec x := by
  have hpass := lzwDecPass_error hc (by rwa [Memory.length_tokens]) hfit hx
  simp only [lzwDecStage, if_neg (Nat.not_lt.2 htokens), hpass]

/-- The source's decoder learns a string per token after the first. -/
theorem lzwDecode_length_strings {ks : List Nat} {out : List Byte} {D : Strings} (h : lzwDecode ks = some (out, D)) :
    D.length = ks.length - 1 := by
  cases ks with
  | nil => cases h; rfl
  | cons k ks =>
    rw [lzwDecode_cons] at h
    obtain ⟨e, -, h⟩ := Option.bind_eq_some_iff.1 h
    obtain ⟨r, hr, heq⟩ := Option.map_eq_some_iff.1 h
    cases heq
    simpa using decodeFrom_length_strings hr

end Sys2Proof.Machine

open Sys2Proof.Machine Sys2Proof.Reference

/-- Settles O30: the pass decodes alike with the source's decoder, and its symbols are stored. -/
theorem lzwDecRefinesSource : Obligations.LzwDecRefinesSource := by
  intro s out D hc htokens hdecode hsym hdict
  have hlen := lzwDecode_length_strings hdecode
  have hrange := (Config.symCap_range hc).2
  have hlow := (Config.dictCap_range hc).1
  rw [Memory.length_tokens] at hlen
  obtain ⟨d, hd, -, hstage⟩ := lzwDecStage_of_fits hc htokens hdecode hsym (by omega)
  have hcount : d.length = s.tokLen.toNat - 1 := by rw [← hlen, ← hd, length_dictStrings]
  refine ⟨_, exec_of_ok hstage, State.succeeded_complete _, ?_, ?_, ?_, hd, ?_, ?_, rfl⟩
  · exact Nat.mod_eq_of_lt (by omega)
  · exact Memory.symbols_putSymbols _ _
  · exact fun i hi => Memory.read_putSymbols_of_le _ _ hi
  · show 256 + d.length = _; rw [hcount]
  · exact Memory.get_putSymbols_ne _ _ (b := .tok) (by decide)

/-- Settles O31: at token `i` the source's decoder does not go on, or has no room for its symbols or for its string. -/
theorem lzwDecFirstErrorReported : Obligations.LzwDecFirstErrorReported := by
  intro s i out D hc htokens hi hdecode hsym hdict
  have hlow := (Config.dictCap_range hc).1
  have hlen := lzwDecode_length_strings hdecode
  rw [List.length_take, Memory.length_tokens] at hlen
  have hfit : decodeError s.cfg i 0 (lzwDecode ((s.mem.tokens s.tokLen.toNat).take i)) = none :=
    decodeError_eq_none.2 ⟨out, D, hdecode, by simpa using hsym, by omega⟩
  have htok : (lzwDecFail s).mem.tok = s.mem.tok :=
    Memory.get_redraw_ne s.mem s.draws (b := .sym) (b' := .tok) (by decide)
  refine ⟨fun hnone => ?_, fun out' D' hsome hover => ?_, fun out' D' hsome hfits hpos hfull => ?_⟩
  · have hstage := lzwDecStage_of_error hc htokens hi hfit (by rw [hnone]; rfl)
    have hinfo : (ErrorKind.invalidToken i).info.toNat = i := Nat.mod_eq_of_lt (hi.trans s.tokLen.isLt)
    refine ⟨_, exec_of_failed hstage, ?_, rfl, rfl, fun j => Memory.read_redraw_self .., htok⟩
    have hreport := State.reports_failure (lzwDecFail s) .lzwDec (.invalidToken i)
    rwa [hinfo] at hreport
  · have hstage := lzwDecStage_of_error hc htokens hi hfit
      (x := .capacity .sym) (by rw [hsome, decodeError, if_pos (by omega)])
    exact ⟨_, exec_of_failed hstage, State.reports_failure .., rfl, rfl, htok⟩
  · have hlen' := lzwDecode_length_strings hsome
    rw [List.length_take, Memory.length_tokens] at hlen'
    have hstage := lzwDecStage_of_error hc htokens hi hfit
      (x := .capacity .dict) (by rw [hsome, decodeError, if_neg (by omega), if_pos (by omega)])
    exact ⟨_, exec_of_failed hstage, State.reports_failure .., rfl, rfl, htok⟩
end

section
/-! PROOFS. 40_lzw.md R146, R149: LZW_DEC after LZW_ENC. -/

namespace Sys2Proof.Machine

open Sys2Proof.Reference

/-- The entry of the token of `w`, when the decoder lags one string behind the encoder: the string it has yet to learn is the one
before, `v`, with the first symbol of `w` (40_lzw.md R145, R146). -/
theorem entryFor_of_tokenOf {D : Strings} {v w : List Byte} {k : Nat} (hv : v ≠ [])
    (h : tokenOf (D ++ [v ++ w.take 1]) w = some k) : entryFor D v k = some w := by
  match w with
  | [] => cases h
  | [x] =>
    obtain rfl : x.toNat = k := Option.some.inj h
    simp [entryFor, stringOf, show x.toNat < 256 from x.isLt]
  | x :: x' :: w =>
    obtain ⟨j, hj, rfl⟩ := Option.map_eq_some_iff.1 h
    obtain ⟨hlt, hentry, -⟩ := List.findIdx?_eq_some_iff_getElem.1 hj
    rw [List.length_append, List.length_singleton] at hlt
    have hstring : stringOf D (256 + j) = D[j]? := by simp [stringOf]
    rw [beq_iff_eq] at hentry
    rw [entryFor, hstring]
    rcases Nat.lt_succ_iff_lt_or_eq.1 hlt with hold | rfl
    · rw [List.getElem_append_left hold] at hentry
      rw [List.getElem?_eq_getElem hold, hentry]
    · obtain ⟨y, ys, rfl⟩ := List.exists_cons_of_ne_nil hv
      simp at hentry
      simp [hentry]

/-- The source's decoder restores what the encoder has still to emit. -/
theorem decodeFrom_encodeFrom {D : Strings} {v w : List Byte} {k : Nat} (xs : List Byte) (hv : v ≠ []) (hw : w ≠ [])
    (hk : tokenOf (D ++ [v ++ w.take 1]) w = some k) :
    decodeFrom D v (encodeFrom (D ++ [v ++ w.take 1]) w xs).1
      = some (w ++ xs, (encodeFrom (D ++ [v ++ w.take 1]) w xs).2) := by
  have hentry := entryFor_of_tokenOf hv hk
  induction xs generalizing D v w k with
  | nil => simp [encodeFrom, hk, decodeFrom_cons, hentry, decodeFrom]
  | cons x xs ih =>
    rw [encodeFrom]
    split
    · next k' hk' =>
      have htake : w.take 1 = (w ++ [x]).take 1 := by
        obtain ⟨y, ys, rfl⟩ := List.exists_cons_of_ne_nil hw
        rfl
      rw [htake] at hk' ⊢
      rw [ih hv (by simp) hk' (entryFor_of_tokenOf hv hk'), List.append_assoc, List.singleton_append]
    · have hx : tokenOf (D ++ [v ++ w.take 1] ++ [w ++ [x].take 1]) [x] = some x.toNat := rfl
      have hrest := ih (D := D ++ [v ++ w.take 1]) (v := w) (w := [x]) hw (by simp) hx (entryFor_of_tokenOf hw hx)
      simp only [List.take_succ_cons, List.take_zero] at hrest
      simp only [hk, Option.toList_some, List.singleton_append, decodeFrom_cons, hentry, Option.bind_some, hrest,
        Option.map_some]

/-- The source's round trip: the decoder restores the symbols and learns the strings of the encoder. -/
theorem lzwDecode_lzwEncode (xs : List Byte) : lzwDecode (lzwEncode xs).1 = some (xs, (lzwEncode xs).2) := by
  match xs with
  | [] => rfl
  | [x] =>
    have hx : x.toNat < 256 := x.isLt
    have : (lzwEncode [x]) = ([x.toNat], []) := rfl
    rw [this, lzwDecode_seed hx]
    simp [decodeFrom]
  | x :: y :: xs =>
    have hx : x.toNat < 256 := x.isLt
    have hfirst : lzwEncode (x :: y :: xs)
        = (x.toNat :: (encodeFrom [[x, y]] [y] xs).1, (encodeFrom [[x, y]] [y] xs).2) := rfl
    have hrest := decodeFrom_encodeFrom (D := []) (v := [x]) (w := [y]) xs (by simp) (by simp) rfl
    simp only [List.take_succ_cons, List.take_zero, List.nil_append, List.singleton_append] at hrest
    rw [hfirst, lzwDecode_seed hx, BitVec.ofNat_toNat, BitVec.setWidth_eq, hrest]
    rfl

end Sys2Proof.Machine

open Sys2Proof.Machine Sys2Proof.Reference

/-- Settles O32: the source's decoder restores the symbols and strings of the source's encoder, and the strings determine DICT. -/
theorem lzwRoundTrip : Obligations.LzwRoundTrip := by
  intro s t hc h ht
  obtain ⟨t, hencStage, rfl⟩ := commandOutcome_of_succeeded h ht
  obtain ⟨ts, henc⟩ := lzwEncoded_of_stage hc hencStage
  have hdecode := lzwDecode_lzwEncode (s.mem.symbols s.symLen.toNat)
  rw [henc.source, ← henc.tokens, ← henc.tokLen] at hdecode
  have hsym : (s.mem.symbols s.symLen.toNat).length = s.symLen.toNat := Memory.length_symbols ..
  obtain ⟨d, hstrings, hd, hstage⟩ := lzwDecStage_of_fits (s := t.complete Report.ok) (henc.cfg ▸ hc)
    (by rw [State.complete_tokLen, henc.tokLen, State.complete_cfg, henc.cfg]; exact henc.tokCap) hdecode
    (by rw [hsym, State.complete_cfg, henc.cfg]; exact henc.symCap)
    (by rw [length_dictStrings, State.complete_cfg, henc.cfg]; exact henc.ok.next)
  refine ⟨_, exec_of_ok hstage, State.succeeded_complete _, ?_, ?_, ?_⟩
  · simp [hsym]
  · have hread := Memory.symbols_putSymbols t.mem (s.mem.symbols s.symLen.toNat)
    rw [hsym] at hread
    exact hread
  · exact dict_eq_of_dictStrings_eq henc.ok (by rwa [State.complete_cfg, henc.cfg] at hd) henc.differ hstrings
end

section
/-! SUPPORT. The held tree as a graph (10_state.md R45; 41_huffman.md R190, R195): paths from the root, their uniqueness and length, and
what depends on NODE, NODE_COUNT and ROOT alone. -/

namespace Sys2Proof.Machine

open Sys2Proof.Reference

variable {s t : State}

/-! ### The same tree in two states -/

/-- The two states hold the same tree. -/
structure SameTree (s t : State) : Prop where
  nodeAt : t.mem.nodeAt = s.mem.nodeAt
  nodeCount : t.nodeCount = s.nodeCount
  root : t.root = s.root

theorem SameTree.of_node (hnode : t.mem.node = s.mem.node) (hcount : t.nodeCount = s.nodeCount) (hroot : t.root = s.root) :
    SameTree s t where
  nodeAt := by funext i; simp only [Memory.nodeAt, Memory.read_congr (b := .node) hnode]
  nodeCount := hcount
  root := hroot

theorem SameTree.trans {u : State} (h : SameTree s t) (h' : SameTree t u) : SameTree s u :=
  ⟨h'.nodeAt.trans h.nodeAt, h'.nodeCount.trans h.nodeCount, h'.root.trans h.root⟩

theorem SameTree.walk (h : SameTree s t) (i : Nat) (p : List Bool) : walk t i p = walk s i p := by
  induction p generalizing i with
  | nil => rfl
  | cons b bs ih =>
    rw [Reference.walk, Reference.walk, h.nodeAt]
    cases s.mem.nodeAt i with
    | internal l r => exact ih _
    | leaf k => rfl

theorem SameTree.isCode (h : SameTree s t) {k : Nat} {p : List Bool} : IsCode t k p ↔ IsCode s k p := by
  unfold IsCode
  rw [h.nodeAt, h.root]
  simp only [h.walk]

theorem SameTree.parents (h : SameTree s t) (n i : Nat) : parents t n i = parents s n i := by
  have hl : hasLeft t i = hasLeft s i := by funext j; rw [hasLeft, hasLeft, h.nodeAt]
  have hr : hasRight t i = hasRight s i := by funext j; rw [hasRight, hasRight, h.nodeAt]
  rw [Reference.parents, Reference.parents, hl, hr]

theorem SameTree.reaches (h : SameTree s t) {i j : Nat} (hij : Reaches s i j) : Reaches t i j := by
  induction hij with
  | here => exact .here
  | left _ hn ih => exact .left ih (by rw [h.nodeAt]; exact hn)
  | right _ hn ih => exact .right ih (by rw [h.nodeAt]; exact hn)

theorem SameTree.wellFormed (h : SameTree s t) (hcfg : t.cfg = s.cfg) (hwf : TreeWellFormed s) : TreeWellFormed t where
  v1 := by rw [h.nodeCount, hcfg]; exact hwf.v1
  v2 := by rw [h.nodeCount, h.root]; exact hwf.v2
  v3 := by rw [h.nodeCount, h.nodeAt]; exact hwf.v3
  v4root := by rw [h.nodeCount, h.root, h.parents]; exact hwf.v4root
  v4other := by simp only [h.nodeCount, h.root, h.parents]; exact hwf.v4other
  v4reach := by rw [h.nodeCount, h.root]; exact fun i hi => h.reaches (hwf.v4reach i hi)
  v5range := by rw [h.nodeCount, h.nodeAt, hcfg]; exact hwf.v5range
  v5once := by rw [h.nodeCount, h.nodeAt]; exact hwf.v5once

/-! ### Paths -/

/-- The child of node `i` along an edge, 0 left and 1 right. -/
def edge (s : State) (i : Nat) (b : Bool) : Option Nat :=
  match s.mem.nodeAt i with
  | .internal l r => some (if b then r else l)
  | .leaf _ => none

theorem edge_eq_some {i j : Nat} {b : Bool} :
    edge s i b = some j ↔ ∃ l r, s.mem.nodeAt i = .internal l r ∧ (if b then r else l) = j := by
  unfold edge
  cases s.mem.nodeAt i <;> simp

theorem walk_cons (i : Nat) (b : Bool) (bs : List Bool) : walk s i (b :: bs) = (edge s i b).bind fun j => walk s j bs := by
  rw [walk, edge]
  cases s.mem.nodeAt i <;> rfl

theorem walk_append (i : Nat) (p q : List Bool) : walk s i (p ++ q) = (walk s i p).bind fun j => walk s j q := by
  induction p generalizing i with
  | nil => rfl
  | cons b bs ih =>
    rw [List.cons_append, walk_cons, walk_cons]
    cases edge s i b with
    | none => rfl
    | some j => exact ih j

theorem walk_snoc (i : Nat) (p : List Bool) (b : Bool) : walk s i (p ++ [b]) = (walk s i p).bind fun j => edge s j b := by
  rw [walk_append]
  rfl

/-- Every reached node is at the end of a path. -/
theorem exists_walk_of_reaches {i j : Nat} (h : Reaches s i j) : ∃ p, walk s i p = some j := by
  induction h with
  | here => exact ⟨[], rfl⟩
  | left _ hn ih =>
    obtain ⟨p, hp⟩ := ih
    exact ⟨p ++ [false], by rw [walk_snoc, hp]; exact edge_eq_some.2 ⟨_, _, hn, rfl⟩⟩
  | right _ hn ih =>
    obtain ⟨p, hp⟩ := ih
    exact ⟨p ++ [true], by rw [walk_snoc, hp]; exact edge_eq_some.2 ⟨_, _, hn, rfl⟩⟩

/-- Paths stay among the nodes below NODE_COUNT ((V3) of R190). -/
theorem walk_lt (hwf : TreeWellFormed s) {i x : Nat} {p : List Bool} (hi : i < s.nodeCount.toNat) (h : walk s i p = some x) :
    x < s.nodeCount.toNat := by
  induction p generalizing i with
  | nil => cases h; exact hi
  | cons b bs ih =>
    rw [walk_cons] at h
    obtain ⟨j, hj, hw⟩ := Option.bind_eq_some_iff.1 h
    obtain ⟨l, r, hn, rfl⟩ := edge_eq_some.1 hj
    obtain ⟨hl, hr⟩ := hwf.v3 i l r hi hn
    exact ih (by split <;> assumption) hw

/-! ### Parents -/

theorem countP_left_add_right (s : State) (i : Nat) (js : List Nat) :
    js.countP (hasLeft s i) + js.countP (hasRight s i) = (js.flatMap fun j => (s.mem.nodeAt j).children).count i := by
  induction js with
  | nil => rfl
  | cons j js ih =>
    rw [List.countP_cons, List.countP_cons, List.flatMap_cons, List.count_append, ← ih, hasLeft, hasRight]
    cases s.mem.nodeAt j with
    | leaf k => simp [Node.children]
    | internal l r => simp only [Node.children, List.count_cons, List.count_nil, decide_eq_true_eq, beq_iff_eq]; omega

/-- `pc(i)` counts the child links that lead to node `i`. -/
theorem parents_eq_count (s : State) (n i : Nat) :
    parents s n i = ((List.range n).flatMap fun j => (s.mem.nodeAt j).children).count i :=
  countP_left_add_right s i (List.range n)

theorem hasLeft_iff {x j : Nat} : hasLeft s x j = true ↔ edge s j false = some x := by
  unfold hasLeft edge
  cases s.mem.nodeAt j <;> simp

theorem hasRight_iff {x j : Nat} : hasRight s x j = true ↔ edge s j true = some x := by
  unfold hasRight edge
  cases s.mem.nodeAt j <;> simp

theorem eq_of_countP_le_one {α : Type} {p : α → Bool} {l : List α} (h : l.countP p ≤ 1) {a b : α} (ha : a ∈ l) (hb : b ∈ l)
    (hpa : p a = true) (hpb : p b = true) : a = b := by
  have ha' : a ∈ l.filter p := List.mem_filter.2 ⟨ha, hpa⟩
  have hb' : b ∈ l.filter p := List.mem_filter.2 ⟨hb, hpb⟩
  rw [List.countP_eq_length_filter] at h
  generalize l.filter p = f at h ha' hb'
  match f, h with
  | [x], _ => rw [List.mem_singleton.1 ha', List.mem_singleton.1 hb']

section WellFormed
variable (hwf : TreeWellFormed s)
include hwf

theorem edge_lt {i x : Nat} {b : Bool} (hi : i < s.nodeCount.toNat) (h : edge s i b = some x) : x < s.nodeCount.toNat :=
  walk_lt hwf hi (p := [b]) (by rw [walk_cons, h]; rfl)

theorem parents_le_one {x : Nat} (hx : x < s.nodeCount.toNat) : parents s s.nodeCount.toNat x ≤ 1 := by
  by_cases hr : x = s.root.toNat
  · rw [hr, hwf.v4root]; exact Nat.zero_le _
  · exact (hwf.v4other x hx hr).le

/-- One link at most leads to a node ((V4) of R190). -/
theorem edge_unique {i i' x : Nat} {b b' : Bool} (hi : i < s.nodeCount.toNat) (hi' : i' < s.nodeCount.toNat)
    (h : edge s i b = some x) (h' : edge s i' b' = some x) : i = i' ∧ b = b' := by
  have hone := parents_le_one hwf (edge_lt hwf hi h)
  have hmem := List.mem_range.2 hi
  have hmem' := List.mem_range.2 hi'
  unfold parents at hone
  have left_of : ∀ {j}, j ∈ List.range s.nodeCount.toNat → edge s j false = some x →
      0 < (List.range s.nodeCount.toNat).countP (hasLeft s x) := fun hj he => List.countP_pos_iff.2 ⟨_, hj, hasLeft_iff.2 he⟩
  have right_of : ∀ {j}, j ∈ List.range s.nodeCount.toNat → edge s j true = some x →
      0 < (List.range s.nodeCount.toNat).countP (hasRight s x) := fun hj he => List.countP_pos_iff.2 ⟨_, hj, hasRight_iff.2 he⟩
  cases b <;> cases b'
  case false.false => exact ⟨eq_of_countP_le_one (by omega) hmem hmem' (hasLeft_iff.2 h) (hasLeft_iff.2 h'), rfl⟩
  case true.true => exact ⟨eq_of_countP_le_one (by omega) hmem hmem' (hasRight_iff.2 h) (hasRight_iff.2 h'), rfl⟩
  case false.true =>
    have := left_of hmem h
    have := right_of hmem' h'
    omega
  case true.false =>
    have := right_of hmem h
    have := left_of hmem' h'
    omega

/-- No link leads to the root ((V4) of R190). -/
theorem edge_ne_root {i : Nat} {b : Bool} (hi : i < s.nodeCount.toNat) : edge s i b ≠ some s.root.toNat := by
  intro h
  have hzero := hwf.v4root
  unfold parents at hzero
  cases b with
  | false =>
    have := List.countP_pos_iff.2 ⟨i, List.mem_range.2 hi, hasLeft_iff.2 h⟩
    omega
  | true =>
    have := List.countP_pos_iff.2 ⟨i, List.mem_range.2 hi, hasRight_iff.2 h⟩
    omega

/-! ### Paths from the root -/

/-- A node is at the end of one path from the root. -/
theorem walk_root_unique {x : Nat} {p q : List Bool} (hp : walk s s.root.toNat p = some x)
    (hq : walk s s.root.toNat q = some x) : p = q := by
  induction p using List.reverseRecOn generalizing x q with
  | nil =>
    cases hp
    rcases List.eq_nil_or_concat q with rfl | ⟨q, b, rfl⟩
    · rfl
    · rw [List.concat_eq_append, walk_snoc] at hq
      obtain ⟨j, hj, he⟩ := Option.bind_eq_some_iff.1 hq
      exact absurd he (edge_ne_root hwf (walk_lt hwf hwf.v2 hj))
  | append_singleton p b ih =>
    rw [walk_snoc] at hp
    obtain ⟨i, hi, he⟩ := Option.bind_eq_some_iff.1 hp
    have hilt := walk_lt hwf hwf.v2 hi
    rcases List.eq_nil_or_concat q with rfl | ⟨q, b', rfl⟩
    · cases hq
      exact absurd he (edge_ne_root hwf hilt)
    · rw [List.concat_eq_append] at hq ⊢
      rw [walk_snoc] at hq
      obtain ⟨j, hj, he'⟩ := Option.bind_eq_some_iff.1 hq
      obtain ⟨rfl, rfl⟩ := edge_unique hwf hilt (walk_lt hwf hwf.v2 hj) he he'
      rw [ih hi hj]

/-- A path from the root visits different nodes, so it has fewer edges than the tree has nodes. -/
theorem walk_root_length_lt {x : Nat} {p : List Bool} (h : walk s s.root.toNat p = some x) : p.length < s.nodeCount.toNat := by
  have visited : ∀ a : Fin (p.length + 1), ∃ y : Fin s.nodeCount.toNat, walk s s.root.toNat (p.take a) = some y.val := by
    intro a
    have hsplit := h
    rw [← List.take_append_drop a.val p, walk_append] at hsplit
    obtain ⟨y, hy, -⟩ := Option.bind_eq_some_iff.1 hsplit
    exact ⟨⟨y, walk_lt hwf hwf.v2 hy⟩, hy⟩
  choose node hnode using visited
  have hinj : Function.Injective node := by
    intro a b hab
    have heq := walk_root_unique hwf (hnode a) (hab ▸ hnode b)
    have hlen := congrArg List.length heq
    rw [List.length_take, List.length_take] at hlen
    exact Fin.ext (by omega)
  simpa using Fintype.card_le_of_injective node hinj

/-- A leaf token has one code (41_huffman.md R195, R198). -/
theorem isCode_unique {k : Nat} {p q : List Bool} (hp : IsCode s k p) (hq : IsCode s k q) : p = q := by
  unfold IsCode at hp hq
  cases hroot : s.mem.nodeAt s.root.toNat with
  | leaf t =>
    rw [hroot] at hp hq
    exact hp.2.trans hq.2.symm
  | internal l r =>
    rw [hroot] at hp hq
    obtain ⟨x, hx, hleaf⟩ := hp
    obtain ⟨y, hy, hleaf'⟩ := hq
    obtain rfl := hwf.v5once x y k (walk_lt hwf hwf.v2 hx) (walk_lt hwf hwf.v2 hy) hleaf hleaf'
    exact walk_root_unique hwf hx hy

/-- The token of every leaf has a code. -/
theorem exists_isCode {i k : Nat} (hi : i < s.nodeCount.toNat) (h : s.mem.nodeAt i = .leaf k) : ∃ p, IsCode s k p := by
  unfold IsCode
  obtain ⟨p, hp⟩ := exists_walk_of_reaches (hwf.v4reach i hi)
  cases hroot : s.mem.nodeAt s.root.toNat with
  | leaf t =>
    cases p with
    | nil =>
      cases hp
      exact ⟨[false], by rw [hroot] at h; cases h; exact ⟨rfl, rfl⟩⟩
    | cons b bs => rw [walk, hroot] at hp; cases hp
  | internal l r => exact ⟨p, i, hp, h⟩

end WellFormed

end Sys2Proof.Machine
end

section
/-! SUPPORT. The engine's check of a well-formed tree and the codes it finds (41_huffman.md R190, R195, R198). -/

namespace Sys2Proof.Machine

open Sys2Proof.Reference

variable {s : State}

/-! ### The nodes held -/

theorem getElem?_heldNodes {i : Nat} (hi : i < s.nodeCount.toNat) : s.heldNodes[i]? = some (s.mem.nodeAt i) := by
  simp [State.heldNodes, Memory.nodes, hi]

theorem mem_heldNodes {nd : Node} : nd ∈ s.heldNodes ↔ ∃ i, i < s.nodeCount.toNat ∧ s.mem.nodeAt i = nd := by
  simp [State.heldNodes, Memory.nodes]

theorem parentCount_heldNodes (i : Nat) : parentCount s.heldNodes i = parents s s.nodeCount.toNat i := by
  rw [parents_eq_count, parentCount, State.heldNodes, Memory.nodes, List.flatMap_map]

section WellFormed
variable (hwf : TreeWellFormed s)
include hwf

/-! ### The check -/

/-- The nodes on the short paths are all in the engine's list. -/
theorem mem_subtree_of_walk {fuel i x : Nat} {p : List Bool} (hi : i < s.nodeCount.toNat) (hp : p.length < fuel)
    (h : walk s i p = some x) : x ∈ subtree s.heldNodes fuel i := by
  induction fuel generalizing i p with
  | zero => cases hp
  | succ fuel ih =>
    rw [subtree, getElem?_heldNodes hi]
    cases p with
    | nil => cases h; exact List.mem_cons_self
    | cons b bs =>
      rw [walk_cons] at h
      obtain ⟨j, hj, hw⟩ := Option.bind_eq_some_iff.1 h
      have hmem := ih (edge_lt hwf hi hj) (Nat.lt_of_succ_lt_succ hp) hw
      obtain ⟨l, r, hn, rfl⟩ := edge_eq_some.1 hj
      rw [hn]
      refine List.mem_cons_of_mem _ (List.mem_append.2 ?_)
      cases b with
      | false => exact .inl hmem
      | true => exact .inr hmem

theorem nodup_leafTokens : (s.heldNodes.filterMap Node.leafToken?).Nodup := by
  have leaf_of : ∀ {nd : Node} {k : Nat}, nd.leafToken? = some k → nd = .leaf k := by
    intro nd k h
    cases nd with
    | leaf t => cases h; rfl
    | internal l r => cases h
  rw [State.heldNodes, Memory.nodes, List.filterMap_map, List.Nodup, List.pairwise_filterMap]
  refine List.nodup_range.imp_of_mem fun {i j} hi hj hij k hk k' hk' heq => hij ?_
  exact hwf.v5once i j k (List.mem_range.1 hi) (List.mem_range.1 hj) (leaf_of hk) (heq ▸ leaf_of hk')

/-- The engine finds a well-formed tree well formed. -/
theorem wellFormedTree_of_wellFormed : wellFormedTree s = true := by
  have hchildren : ∀ nd ∈ s.heldNodes, ∀ j ∈ nd.children, j < s.nodeCount.toNat := by
    intro nd hnd j hj
    obtain ⟨i, hi, rfl⟩ := mem_heldNodes.1 hnd
    cases hn : s.mem.nodeAt i with
    | leaf t => rw [hn] at hj; cases hj
    | internal l r =>
      obtain ⟨hl, hr⟩ := hwf.v3 i l r hi hn
      rw [hn] at hj
      rcases List.mem_pair.1 hj with rfl | rfl <;> assumption
  have hparents : ∀ i, i < s.nodeCount.toNat → parentCount s.heldNodes i = if i = s.root.toNat then 0 else 1 := by
    intro i hi
    rw [parentCount_heldNodes]
    split
    · next h => rw [h, hwf.v4root]
    · next h => exact hwf.v4other i hi h
  have hreached : ∀ i, i < s.nodeCount.toNat → i ∈ subtree s.heldNodes s.nodeCount.toNat s.root.toNat := by
    intro i hi
    obtain ⟨p, hp⟩ := exists_walk_of_reaches (hwf.v4reach i hi)
    exact mem_subtree_of_walk hwf hwf.v2 (walk_root_length_lt hwf hp) hp
  have htokens : ∀ t ∈ s.heldNodes.filterMap Node.leafToken?, t < s.cfg.dictCap := by
    intro t ht
    obtain ⟨nd, hnd, htok⟩ := List.mem_filterMap.1 ht
    obtain ⟨i, hi, rfl⟩ := mem_heldNodes.1 hnd
    cases hn : s.mem.nodeAt i with
    | leaf k => rw [hn] at htok; cases htok; exact hwf.v5range i t hi hn
    | internal l r => rw [hn] at htok; cases htok
  simp only [wellFormedTree, treeShapeOk, Bool.and_eq_true, decide_eq_true_eq, List.all_eq_true, List.mem_range,
    List.contains_iff_mem]
  exact ⟨⟨⟨hwf.v1.1, hwf.v1.2⟩, hwf.v2⟩, ⟨⟨⟨hchildren, hparents⟩, hreached⟩, htokens⟩, nodup_leafTokens hwf⟩

/-! ### The codes -/

/-- The engine lists the leaves at the ends of the short paths, with their paths. -/
theorem mem_leafPaths {fuel i k : Nat} {p : List Bool} (hi : i < s.nodeCount.toNat) :
    (k, p) ∈ leafPaths s.heldNodes fuel i ↔ p.length < fuel ∧ ∃ x, walk s i p = some x ∧ s.mem.nodeAt x = .leaf k := by
  induction fuel generalizing i p with
  | zero => simp [leafPaths]
  | succ fuel ih =>
    rw [leafPaths, getElem?_heldNodes hi]
    cases hn : s.mem.nodeAt i with
    | leaf t =>
      cases p with
      | nil => simp [walk, hn, eq_comm]
      | cons b bs => simp [walk, hn]
    | internal l r =>
      obtain ⟨hl, hr⟩ := hwf.v3 i l r hi hn
      cases p with
      | nil => simp [walk, hn]
      | cons b bs => cases b <;> simp [walk, hn, ih hl, ih hr]

/-- The codes the engine finds in a well-formed tree are the codes of its leaf tokens. -/
theorem mem_treeCodes {k : Nat} {p : List Bool} :
    (k, p) ∈ treeCodes s.heldNodes s.nodeCount.toNat s.root.toNat ↔ IsCode s k p := by
  rw [treeCodes, getElem?_heldNodes hwf.v2]
  unfold IsCode
  cases s.mem.nodeAt s.root.toNat with
  | leaf t => simp
  | internal l r =>
    rw [mem_leafPaths hwf hwf.v2]
    constructor
    · rintro ⟨-, h⟩
      exact h
    · rintro ⟨x, hx, hleaf⟩
      exact ⟨walk_root_length_lt hwf hx, x, hx, hleaf⟩

end WellFormed

/-! ### HUFF_CODES -/

/-- A token listed with one code only has that code in the table. -/
theorem codeEntry?_codeTable_of_unique {cs : List (Nat × List Bool)} {k : Nat} {p : List Bool} (hmem : (k, p) ∈ cs)
    (hone : ∀ q, (k, q) ∈ cs → q = p) : codeEntry? (codeTable cs) k = some (CodeEntry.ofBits p) := by
  induction cs with
  | nil => cases hmem
  | cons c cs ih =>
    have hput : codeEntry? (codeTable (c :: cs)) k
        = if k = c.1 then some (CodeEntry.ofBits c.2) else codeEntry? (codeTable cs) k := lookupKey_putKey ..
    rw [hput]
    split
    · next hk => rw [hone c.2 (hk ▸ List.mem_cons_self)]
    · next hk =>
      rcases List.mem_cons.1 hmem with rfl | hmem
      · exact absurd rfl hk
      · exact ih hmem fun q hq => hone q (List.mem_cons_of_mem _ hq)

/-- HUFF_CODES of a well-formed tree without overlong codes succeeds, and its table holds the codes (41_huffman.md R195). -/
theorem huffCodesStage_of_wellFormed (hc : s.cfg.legal = true) (hwf : TreeWellFormed s)
    (hmax : ∀ k p, IsCode s k p → p.length ≤ s.cfg.codeMaxLen) :
    ∃ code, huffCodesStage s = .ok { s with code := code }
      ∧ ∀ k p, (∃ e, codeEntry? code k = some e ∧ e.toBits = p) ↔ IsCode s k p := by
  have hlen : ∀ {k p}, IsCode s k p → p.length ≤ 64 := fun h => (hmax _ _ h).trans (Config.codeMaxLen_le hc)
  rcases huffCodesStage_cases s with ⟨-, -, h⟩ | ⟨-, ⟨⟨k, p⟩, hp, hover⟩, -⟩ | ⟨hbad, -⟩
  · refine ⟨_, h, fun k p => ⟨?_, fun hp => ?_⟩⟩
    · rintro ⟨e, he, rfl⟩
      obtain ⟨bs, hmem, rfl⟩ := codeEntry?_codeTable he
      rw [mem_treeCodes hwf] at hmem
      rwa [CodeEntry.toBits_ofBits (hlen hmem)]
    · refine ⟨CodeEntry.ofBits p, ?_, CodeEntry.toBits_ofBits (hlen hp)⟩
      exact codeEntry?_codeTable_of_unique ((mem_treeCodes hwf).2 hp) fun q hq =>
        isCode_unique hwf ((mem_treeCodes hwf).1 hq) hp
  · exact absurd (hmax k p ((mem_treeCodes hwf).1 hp)) (Nat.not_le.2 hover)
  · rw [wellFormedTree_of_wellFormed hwf] at hbad
    cases hbad

end Sys2Proof.Machine
end

section
/-! SUPPORT. What FREQ_COUNT counts (41_huffman.md R171, R173). -/

namespace Sys2Proof.Machine

open Sys2Proof.Reference

theorem freqOf_countTokens {ts : List Nat} {m : Memory} (h : ∀ k, m.freqOf k + ts.count k < 2 ^ 64) (k : Nat) :
    (countTokens ts m).freqOf k = m.freqOf k + ts.count k := by
  induction ts generalizing m with
  | nil => rfl
  | cons t ts ih =>
    have hput : ∀ j, (m.putFreq t (m.freqOf t + 1)).freqOf j + ts.count j = m.freqOf j + (t :: ts).count j := by
      intro j
      rw [List.count_cons]
      by_cases hj : j = t
      · subst hj
        have hroom := h j
        rw [List.count_cons_self] at hroom
        rw [Memory.freqOf_putFreq_self _ _ (by omega), beq_self_eq_true, if_pos rfl]
        omega
      · rw [Memory.freqOf_putFreq_ne _ _ hj, if_neg (by simpa using Ne.symm hj), Nat.add_zero]
    exact (ih fun j => (hput j).trans_lt (h j)).trans (hput k)

/-- FREQ_COUNT counts tokens that all have a FREQ entry (41_huffman.md R171). -/
theorem freqCountStage_of_bound {s : State} (hc : s.cfg.legal = true) (htok : s.tokLen.toNat ≤ s.cfg.tokCap)
    (hbound : ∀ k ∈ s.mem.tokens s.tokLen.toNat, k < s.cfg.dictCap) :
    ∃ m, freqCountStage s = .ok { s with mem := m }
      ∧ ∀ k, m.freqOf k = (s.mem.tokens s.tokLen.toNat).count k := by
  have hrange := (Config.tokCap_range hc).2
  refine ⟨countTokens (s.mem.tokens s.tokLen.toNat) (s.mem.clear .freq), ?_, fun k => ?_⟩
  · simp only [freqCountStage, if_neg (Nat.not_lt.2 htok), freqCountFrom_eq, if_pos hbound]
  · rw [freqOf_countTokens fun j => ?_, Memory.freqOf_clear, Nat.zero_add]
    have := (List.count_le_length (l := s.mem.tokens s.tokLen.toNat) (a := j))
    rw [Memory.length_tokens] at this
    rw [Memory.freqOf_clear]
    omega

/-- The counts of tokens below the bound sum to how many they are. -/
theorem sum_count_range {ts : List Nat} {n : Nat} (h : ∀ k ∈ ts, k < n) :
    ((List.range n).map fun k => ts.count k).sum = ts.length := by
  have hsum := Multiset.sum_count_eq_card (s := Finset.range n) (m := (ts : Multiset Nat)) (by simpa using h)
  simp only [Multiset.coe_count, Multiset.coe_card] at hsum
  exact hsum

end Sys2Proof.Machine
end

section
/-! SUPPORT. What HUFF_BUILD builds (41_huffman.md R177, R180, R184): its merges link every node but the last once, to a later node, so
the tree is well formed and shallow. -/

namespace Sys2Proof.Machine

open Sys2Proof.Reference

/-! ### The merges -/

/-- The nodes that `merges` merges make from members with the indices `idx`, the first one having index `next`: each links two
earlier nodes, and together they link every node but the last one made. -/
structure MergedNodes (idx : List Nat) (next merges : Nat) (out : List (Node × Nat)) : Prop where
  length : out.length = merges
  internal : ∀ j p, out[j]? = some p → ∃ l r, p.1 = .internal l r ∧ l < next + j ∧ r < next + j
  weight : ∀ p ∈ out, p.2 < 2 ^ 64
  links : (out.flatMap (fun p => p.1.children) ++ [next + merges - 1]).Perm (idx ++ List.range' next merges)

/-- The merge of two members, and then the merges of what is left. -/
theorem MergedNodes.cons {idx rest : List Nat} {next merges a b w : Nat} {out : List (Node × Nat)}
    (h : MergedNodes (rest ++ [next]) (next + 1) merges out) (ha : a < next) (hb : b < next) (hw : w < 2 ^ 64)
    (hidx : (a :: b :: rest).Perm idx) : MergedNodes idx next (merges + 1) ((.internal a b, w) :: out) where
  length := by rw [List.length_cons, h.length]
  internal j p hp := by
    cases j with
    | zero => cases hp; exact ⟨a, b, rfl, ha, hb⟩
    | succ j =>
      obtain ⟨l, r, hnode, hl, hr⟩ := h.internal j p hp
      exact ⟨l, r, hnode, by omega, by omega⟩
  weight p hp := by
    rcases List.mem_cons.1 hp with rfl | hp
    · exact hw
    · exact h.weight p hp
  links := by
    have hlast : next + (merges + 1) - 1 = next + 1 + merges - 1 := by omega
    have hlinks := (h.links.cons b).cons a
    rw [hlast, List.flatMap_cons, List.range'_succ]
    simp only [List.append_assoc, List.singleton_append] at hlinks
    exact hlinks.trans (hidx.append_right (next :: List.range' (next + 1) merges))

theorem sum_weight_perm {q q' : List MergeItem} (h : q.Perm q') : (q.map (·.weight)).sum = (q'.map (·.weight)).sum :=
  (h.map _).sum_eq

/-- The two members of least key, when there are two. -/
theorem exists_takeLeast_two {q : List MergeItem} (h : 2 ≤ q.length) :
    ∃ a q' b rest, takeLeast q = some (a, q') ∧ takeLeast q' = some (b, rest) ∧ (a :: b :: rest).Perm q := by
  cases hq : takeLeast q with
  | none => rw [takeLeast_eq_none.1 hq] at h; simp at h
  | some first =>
    obtain ⟨a, q'⟩ := first
    have hperm := takeLeast_perm hq
    cases hq' : takeLeast q' with
    | none =>
      have hlen := hperm.length_eq
      rw [takeLeast_eq_none.1 hq'] at hlen
      simp at hlen
      omega
    | some second =>
      obtain ⟨b, rest⟩ := second
      exact ⟨a, q', b, rest, rfl, hq', ((takeLeast_perm hq').cons a).trans hperm⟩

/-- Members whose weights sum below 2^64 are all merged (R180, R181). -/
theorem huffMerges_of_sum {merges next : Nat} {q : List MergeItem} (hlen : q.length = merges + 1)
    (hidx : ∀ x ∈ q, x.index < next) (hlast : next - 1 ∈ q.map (·.index)) (hsum : (q.map (·.weight)).sum < 2 ^ 64) :
    ∃ out, huffMerges merges next q = .ok out ∧ MergedNodes (q.map (·.index)) next merges out := by
  induction merges generalizing next q with
  | zero =>
    refine ⟨[], rfl, rfl, by simp, by simp, ?_⟩
    obtain ⟨x, rfl⟩ := List.length_eq_one_iff.1 hlen
    simpa using hlast
  | succ merges ih =>
    obtain ⟨a, q', b, rest, ha, hb, hperm⟩ := exists_takeLeast_two (q := q) (by omega)
    have hrest : rest.length = merges := by
      have := hperm.length_eq
      simp only [List.length_cons] at this
      omega
    have hweights := sum_weight_perm hperm
    simp only [List.map_cons, List.sum_cons] at hweights
    have hsmall : a.weight + b.weight < 2 ^ 64 := by omega
    have hbound : ∀ x ∈ a :: b :: rest, x.index < next := fun x hx => hidx x (hperm.mem_iff.1 hx)
    obtain ⟨out, hout, hmerged⟩ := ih (next := next + 1) (q := rest ++ [⟨a.weight + b.weight, next⟩])
      (by simp [hrest])
      (by
        intro x hx
        rcases List.mem_append.1 hx with hx | hx
        · exact (hbound x (by simp [hx])).trans (Nat.lt_succ_self _)
        · rw [List.mem_singleton.1 hx]; exact Nat.lt_succ_self _)
      (by simp)
      (by simp only [List.map_append, List.sum_append, List.map_singleton, List.sum_singleton]; omega)
    rw [List.map_append, List.map_singleton] at hmerged
    refine ⟨_, ?_, hmerged.cons (hbound a (by simp)) (hbound b (by simp)) hsmall (hperm.map MergeItem.index)⟩
    simp only [huffMerges, ha, hb, if_neg (Nat.not_le.2 hsmall), hout]

/-! ### The nodes of the tree -/

/-- The nodes that HUFF_BUILD makes for the tokens `toks`: a leaf per token, then internal nodes that link every node but the last
once, each linking two earlier ones. -/
structure BuiltNodes (toks : List Nat) (nds : List Node) : Prop where
  length : nds.length + 1 = 2 * toks.length
  internal : ∀ i l r, nds[i]? = some (.internal l r) → toks.length ≤ i ∧ l < i ∧ r < i
  tokens : nds.filterMap Node.leafToken? = toks
  links : (nds.flatMap Node.children ++ [nds.length - 1]).Perm (List.range nds.length)

theorem builtNodes_of_merged {toks : List Nat} {out : List (Node × Nat)} (hne : toks ≠ [])
    (h : MergedNodes (List.range toks.length) toks.length (toks.length - 1) out) :
    BuiltNodes toks (toks.map .leaf ++ out.map Prod.fst) := by
  have hpos := List.length_pos_iff.2 hne
  have hlen : (toks.map Node.leaf ++ out.map Prod.fst).length = toks.length + (toks.length - 1) := by simp [h.length]
  constructor
  case length => omega
  case internal =>
    intro i l r hi
    rcases Nat.lt_or_ge i toks.length with hlt | hge
    · rw [List.getElem?_append_left (by simpa using hlt), List.getElem?_map] at hi
      obtain ⟨k, -, hk⟩ := Option.map_eq_some_iff.1 hi
      cases hk
    · rw [List.getElem?_append_right (by simpa using hge), List.length_map, List.getElem?_map] at hi
      obtain ⟨p, hp, hnode⟩ := Option.map_eq_some_iff.1 hi
      obtain ⟨l', r', hnode', hl, hr⟩ := h.internal _ p hp
      cases hnode.symm.trans hnode'
      omega
  case tokens =>
    have hleaves : (toks.map Node.leaf).filterMap Node.leafToken? = toks := by
      rw [List.filterMap_map]
      exact List.filterMap_some
    have hmerged : (out.map Prod.fst).filterMap Node.leafToken? = [] := by
      rw [List.filterMap_eq_nil_iff]
      intro nd hnd
      obtain ⟨p, hp, rfl⟩ := List.mem_map.1 hnd
      obtain ⟨j, hj⟩ := List.mem_iff_getElem?.1 hp
      obtain ⟨l, r, hnode, -⟩ := h.internal j p hj
      rw [hnode]
      rfl
    rw [List.filterMap_append, hleaves, hmerged, List.append_nil]
  case links =>
    have hleaves : (toks.map Node.leaf).flatMap Node.children = [] := by
      rw [List.flatMap_map, List.flatMap_eq_nil_iff]
      exact fun _ _ => rfl
    have hlinks := h.links
    have hrange := List.range'_append_1 (s := 0) (m := toks.length) (n := toks.length - 1)
    rw [Nat.zero_add] at hrange
    rw [List.range_eq_range', ← List.flatMap_map, hrange] at hlinks
    rw [List.flatMap_append, hleaves, List.nil_append, hlen, List.range_eq_range']
    exact hlinks

theorem huffTree_of_sum {leaves : List (Node × Nat)} {toks : List Nat} (hne : toks ≠ [])
    (hleaves : leaves.map Prod.fst = toks.map .leaf) (hsum : (leaves.map Prod.snd).sum < 2 ^ 64) :
    ∃ nds, huffTree leaves = .ok nds ∧ BuiltNodes toks (nds.map Prod.fst) ∧ ∀ p ∈ nds, p.2 < 2 ^ 64 := by
  have hlen : leaves.length = toks.length := by simpa using congrArg List.length hleaves
  have hpos := List.length_pos_iff.2 hne
  have hidx : (huffQueue leaves).map (·.index) = List.range toks.length := by
    refine List.ext_getElem (by simp [huffQueue, hlen]) fun i _ _ => ?_
    simp [huffQueue]
  have hweights : (huffQueue leaves).map (·.weight) = leaves.map Prod.snd := by
    refine List.ext_getElem (by simp [huffQueue]) fun i _ _ => ?_
    simp [huffQueue]
  obtain ⟨out, hout, hmerged⟩ := huffMerges_of_sum (merges := toks.length - 1) (next := toks.length) (q := huffQueue leaves)
    (by rw [huffQueue, List.length_mapIdx]; omega)
    (fun x hx => List.mem_range.1 (hidx ▸ List.mem_map_of_mem hx))
    (by rw [hidx, List.mem_range]; omega) (by rw [hweights]; exact hsum)
  rw [hidx] at hmerged
  refine ⟨leaves ++ out, ?_, ?_, ?_⟩
  · cases leaves with
    | nil => simp at hlen; omega
    | cons p ps =>
      rw [← hlen, List.length_cons, Nat.add_sub_cancel] at hout
      simp only [huffTree, hout]
  · rw [List.map_append, hleaves]
    exact builtNodes_of_merged hne hmerged
  · intro p hp
    rcases List.mem_append.1 hp with hp | hp
    · exact (List.single_le_sum (by simp) _ (List.mem_map_of_mem hp)).trans_lt hsum
    · exact hmerged.weight p hp

end Sys2Proof.Machine
end

section
/-! SUPPORT. The tree that HUFF_BUILD leaves (41_huffman.md R180, R182, R184). -/

namespace Sys2Proof.Machine

open Sys2Proof.Reference

/-! ### The leaves -/

theorem huffLeaves_eq (s : State) : huffLeaves s.cfg s.mem = (freqTokens s).map fun t => (.leaf t, s.mem.freqOf t) := by
  unfold huffLeaves freqTokens
  induction List.range s.cfg.dictCap with
  | nil => rfl
  | cons t ts ih =>
    by_cases ht : s.mem.freqOf t = 0
    · simp [ht, ih]
    · simp [ht, ih]

/-- The weights of the leaves sum to the sum of the whole table. -/
theorem sum_freqTokens (s : State) : ((freqTokens s).map s.mem.freqOf).sum = freqTotal s := by
  unfold freqTokens freqTotal
  induction List.range s.cfg.dictCap with
  | nil => rfl
  | cons t ts ih =>
    by_cases ht : s.mem.freqOf t = 0
    · rw [List.filter_cons_of_neg (by simpa using ht), ih, List.map_cons, List.sum_cons, ht, Nat.zero_add]
    · rw [List.filter_cons_of_pos (by simpa using ht), List.map_cons, List.sum_cons, ih, List.map_cons, List.sum_cons]

theorem mem_freqTokens {s : State} {k : Nat} : k ∈ freqTokens s ↔ k < s.cfg.dictCap ∧ s.mem.freqOf k ≠ 0 := by
  simp [freqTokens]

/-- The tokens counted are those of the frequency table. -/
theorem mem_freqTokens_of_counts {s : State} {ts : List Nat} (hbound : ∀ k ∈ ts, k < s.cfg.dictCap)
    (hfreq : ∀ k, s.mem.freqOf k = ts.count k) {k : Nat} : k ∈ freqTokens s ↔ k ∈ ts := by
  rw [mem_freqTokens, hfreq, ne_eq, List.count_eq_zero, not_not]
  exact ⟨fun hk => hk.2, fun hk => ⟨hbound k hk, hk⟩⟩

theorem freqTotal_of_counts {s : State} {ts : List Nat} (hbound : ∀ k ∈ ts, k < s.cfg.dictCap)
    (hfreq : ∀ k, s.mem.freqOf k = ts.count k) : freqTotal s = ts.length := by
  rw [freqTotal, funext hfreq]
  exact sum_count_range hbound

theorem nodup_freqTokens (s : State) : (freqTokens s).Nodup := List.nodup_range.filter _

theorem length_freqTokens_le (s : State) : (freqTokens s).length ≤ s.cfg.dictCap :=
  (List.length_filter_le _ _).trans_eq List.length_range

/-! ### The tree of the built nodes -/

theorem leaf_unique_of_nodup {t : State} (h : (t.heldNodes.filterMap Node.leafToken?).Nodup) {i j k : Nat}
    (hi : i < t.nodeCount.toNat) (hj : j < t.nodeCount.toNat) (hni : t.mem.nodeAt i = .leaf k)
    (hnj : t.mem.nodeAt j = .leaf k) : i = j := by
  rw [List.Nodup, List.pairwise_filterMap, List.pairwise_iff_getElem] at h
  have held : ∀ {i} (hi : i < t.heldNodes.length), t.mem.nodeAt i = .leaf k → (t.heldNodes[i]).leafToken? = some k := by
    intro i hi hn
    simp [State.heldNodes, Memory.nodes, hn, Node.leafToken?]
  have hlen : t.heldNodes.length = t.nodeCount.toNat := by simp [State.heldNodes, Memory.nodes]
  rw [← hlen] at hi hj
  rcases Nat.lt_trichotomy i j with hlt | heq | hlt
  · exact absurd rfl (h i j hi hj hlt k (held hi hni) k (held hj hnj))
  · exact heq
  · exact absurd rfl (h j i hj hi hlt k (held hj hnj) k (held hi hni))

section Built
variable {t : State} {toks : List Nat} (h : BuiltNodes toks t.heldNodes) (hroot : t.root.toNat + 1 = t.nodeCount.toNat)
include h

theorem BuiltNodes.nodeCount : t.nodeCount.toNat + 1 = 2 * toks.length := by
  simpa [State.heldNodes, Memory.nodes] using h.length

theorem BuiltNodes.internal_at {i l r : Nat} (hi : i < t.nodeCount.toNat) (hn : t.mem.nodeAt i = .internal l r) :
    toks.length ≤ i ∧ l < i ∧ r < i :=
  h.internal i l r (by rw [getElem?_heldNodes hi, hn])

include hroot

/-- Every node but the last is linked once. -/
theorem BuiltNodes.parents {i : Nat} (hi : i < t.nodeCount.toNat) :
    parents t t.nodeCount.toNat i = if i = t.root.toNat then 0 else 1 := by
  have hlen : t.heldNodes.length = t.nodeCount.toNat := by simp [State.heldNodes, Memory.nodes]
  have hcount := h.links.count_eq i
  rw [hlen, List.count_append, ← parentCount, parentCount_heldNodes, ← hroot, Nat.add_sub_cancel,
    List.count_eq_one_of_mem List.nodup_range (List.mem_range.2 (hroot ▸ hi)), List.count_singleton] at hcount
  rw [← hroot]
  by_cases hir : i = t.root.toNat
  · rw [if_pos hir]; simp [hir] at hcount ⊢; omega
  · rw [if_neg hir]; simp [Ne.symm hir] at hcount; omega

/-- Every node is reached from the last: from a later node that links it, which is reached. -/
theorem BuiltNodes.reaches {i : Nat} (hi : i < t.nodeCount.toNat) : Reaches t t.root.toNat i := by
  by_cases hir : i = t.root.toNat
  · rw [hir]; exact .here
  · have hone := h.parents hroot hi
    rw [if_neg hir, parents_eq_count] at hone
    have hmem : i ∈ (List.range t.nodeCount.toNat).flatMap fun j => (t.mem.nodeAt j).children :=
      List.count_pos_iff.1 (by omega)
    obtain ⟨j, hj, hlink⟩ := List.mem_flatMap.1 hmem
    have hj := List.mem_range.1 hj
    cases hn : t.mem.nodeAt j with
    | leaf k => rw [hn] at hlink; cases hlink
    | internal l r =>
      obtain ⟨-, hl, hr⟩ := h.internal_at hj hn
      rw [hn] at hlink
      rcases List.mem_pair.1 hlink with rfl | rfl
      · exact .left (BuiltNodes.reaches hj) hn
      · exact .right (BuiltNodes.reaches hj) hn
termination_by t.nodeCount.toNat - i

/-- The built tree is well formed (R182, R190). -/
theorem BuiltNodes.wellFormed (hcap : t.nodeCount.toNat ≤ t.cfg.nodeCap) (hrange : ∀ k ∈ toks, k < t.cfg.dictCap)
    (hnodup : toks.Nodup) : TreeWellFormed t where
  v1 := ⟨by omega, hcap⟩
  v2 := by omega
  v3 i l r hi hn := by
    obtain ⟨-, hl, hr⟩ := h.internal_at hi hn
    exact ⟨hl.trans hi, hr.trans hi⟩
  v4root := by rw [h.parents hroot (by omega), if_pos rfl]
  v4other i hi hne := by rw [h.parents hroot hi, if_neg hne]
  v4reach i hi := h.reaches hroot hi
  v5range i k hi hn := hrange k (h.tokens ▸ List.mem_filterMap.2 ⟨_, mem_heldNodes.2 ⟨i, hi, hn⟩, rfl⟩)
  v5once i j k hi hj hni hnj := leaf_unique_of_nodup (h.tokens ▸ hnodup) hi hj hni hnj

omit hroot in
/-- The token of every leaf made has a code. -/
theorem BuiltNodes.exists_isCode (hwf : TreeWellFormed t) {k : Nat} (hk : k ∈ toks) : ∃ p, IsCode t k p := by
  rw [← h.tokens] at hk
  obtain ⟨nd, hnd, htok⟩ := List.mem_filterMap.1 hk
  obtain ⟨i, hi, rfl⟩ := mem_heldNodes.1 hnd
  cases hn : t.mem.nodeAt i with
  | leaf t => rw [hn] at htok; cases htok; exact Machine.exists_isCode hwf hi hn
  | internal l r => rw [hn] at htok; cases htok

omit hroot in
/-- Each edge of a path leads from an internal node to an earlier node. -/
theorem BuiltNodes.walk_length {i x : Nat} {b : Bool} {bs : List Bool} (hi : i < t.nodeCount.toNat)
    (hw : walk t i (b :: bs) = some x) : bs.length + toks.length ≤ i := by
  induction bs generalizing i b with
  | nil =>
    rw [walk_cons] at hw
    obtain ⟨j, hj, -⟩ := Option.bind_eq_some_iff.1 hw
    obtain ⟨l, r, hn, -⟩ := edge_eq_some.1 hj
    simpa using (h.internal_at hi hn).1
  | cons c cs ih =>
    rw [walk_cons] at hw
    obtain ⟨j, hj, hw⟩ := Option.bind_eq_some_iff.1 hw
    obtain ⟨l, r, hn, rfl⟩ := edge_eq_some.1 hj
    obtain ⟨-, hl, hr⟩ := h.internal_at hi hn
    have hlt : (if b then r else l) < i := by split <;> assumption
    have := ih (hlt.trans hi) hw
    simp only [List.length_cons]
    omega

/-- No code is longer than there are tokens (R195, R198). -/
theorem BuiltNodes.isCode_length {k : Nat} {p : List Bool} (hp : IsCode t k p) : p.length ≤ toks.length := by
  have hcount := h.nodeCount
  unfold IsCode at hp
  cases hn : t.mem.nodeAt t.root.toNat with
  | leaf k' =>
    rw [hn] at hp
    rw [hp.2, List.length_singleton]
    omega
  | internal l r =>
    rw [hn] at hp
    obtain ⟨x, hx, -⟩ := hp
    cases p with
    | nil => exact Nat.zero_le _
    | cons b bs =>
      have := h.walk_length (by omega) hx
      simp only [List.length_cons]
      omega

end Built

/-! ### The stage -/

theorem BuiltNodes.fits {toks : List Nat} {nds : List Node} (h : BuiltNodes toks nds) (hsmall : ∀ k ∈ toks, k < 2 ^ 32)
    (hlen : nds.length ≤ 2 ^ 32) {i : Nat} {nd : Node} (hi : nds[i]? = some nd) : nd.fits := by
  have hlt := (List.getElem?_eq_some_iff.1 hi).1
  cases nd with
  | leaf k => exact hsmall k (h.tokens ▸ List.mem_filterMap.2 ⟨_, List.mem_of_getElem? hi, rfl⟩)
  | internal l r =>
    obtain ⟨-, hl, hr⟩ := h.internal i l r hi
    exact ⟨by omega, by omega⟩

/-- HUFF_BUILD of a nonempty table whose weights sum below 2^64 succeeds and holds the nodes made of its tokens (R180, R182). -/
theorem huffBuildStage_of_total {s : State} (hc : s.cfg.legal = true) (hne : freqTokens s ≠ []) (htotal : freqTotal s < 2 ^ 64) :
    ∃ t, huffBuildStage s = .ok t ∧ BuiltNodes (freqTokens s) t.heldNodes ∧ t.root.toNat + 1 = t.nodeCount.toNat
      ∧ t.cfg = s.cfg := by
  have hleaves : (huffLeaves s.cfg s.mem).map Prod.fst = (freqTokens s).map .leaf := by
    rw [huffLeaves_eq, List.map_map]; rfl
  have hweights : (huffLeaves s.cfg s.mem).map Prod.snd = (freqTokens s).map s.mem.freqOf := by
    rw [huffLeaves_eq, List.map_map]; rfl
  obtain ⟨nds, htree, hbuilt, hsmall⟩ := huffTree_of_sum hne hleaves (by rw [hweights, sum_freqTokens]; exact htotal)
  have hlen := hbuilt.length
  have hdict := (Config.dictCap_range hc).2
  have htoks := length_freqTokens_le s
  rw [List.length_map] at hlen
  have hcount : (BitVec.ofNat 32 nds.length).toNat = nds.length := Nat.mod_eq_of_lt (by omega)
  have hroot : (BitVec.ofNat 32 (nds.length - 1)).toNat = nds.length - 1 := Nat.mod_eq_of_lt (by omega)
  have hnodes : (s.mem.putNodes 0 nds).nodes nds.length = nds.map Prod.fst := by
    refine List.ext_getElem (by simp [Memory.nodes]) fun i hi hi' => ?_
    rw [List.length_map] at hi'
    have hfits := hbuilt.fits (fun k hk => (mem_freqTokens.1 hk).1.trans_le (by omega)) (by rw [List.length_map]; omega)
      (i := i) (nd := nds[i].1) (by simp [hi'])
    have hread := (Memory.nodeAt_putNodes s.mem 0 i nds hi' hfits (hsmall _ (List.getElem_mem hi'))).1
    simpa [Memory.nodes] using hread
  have hstage : huffBuildStage s = .ok { s with
      mem := s.mem.putNodes 0 nds, nodeCount := BitVec.ofNat 32 nds.length, root := BitVec.ofNat 32 (nds.length - 1) } := by
    simp only [huffBuildStage, htree]
  refine ⟨_, hstage, ?_, ?_, rfl⟩
  · show BuiltNodes _ ((s.mem.putNodes 0 nds).nodes (BitVec.ofNat 32 nds.length).toNat)
    rw [hcount, hnodes]
    exact hbuilt
  · show (BitVec.ofNat 32 (nds.length - 1)).toNat + 1 = (BitVec.ofNat 32 nds.length).toNat
    rw [hcount, hroot]
    omega

end Sys2Proof.Machine
end

section
/-! PROOFS. 43_control.md R265, R266: COMPRESS of symbols whose tokens, entries and codes fit. -/

namespace Sys2Proof.Machine

open Sys2Proof.Reference

variable {s t u : State} {ts : List Nat}

/-! ### ENT_ENC -/

theorem codeFor_eq (s : State) (k : Nat) : codeFor s k = (codeOfToken s.cfg s.code k).map CodeEntry.toBits := by
  unfold codeFor codeOfToken
  split
  · next hk => rw [if_neg (Nat.not_le.2 hk)]
  · next hk => rw [if_pos (Nat.not_lt.1 hk)]; rfl

/-- The stream of tokens that all have codes, within BIT_CAP, is the concatenation of the codes (42_entropy.md R221). -/
theorem entEncFrom_of_codes {ps : List (List Bool)} {i pos : Nat} (h : List.Forall₂ (fun k p => codeFor s k = some p) ts ps)
    (hfit : pos + ps.flatten.length ≤ s.cfg.bitCap) : entEncFrom s.cfg s.code ts i pos = .ok ps.flatten := by
  induction h generalizing i pos with
  | nil => rfl
  | cons hcode _ ih =>
    rw [codeFor_eq] at hcode
    obtain ⟨e, he, rfl⟩ := Option.map_eq_some_iff.1 hcode
    rw [List.flatten_cons, List.length_append, CodeEntry.length_toBits] at hfit
    simp only [entEncFrom, he, if_neg (show ¬ s.cfg.bitCap < pos + e.len.toNat by omega), ih (pos := pos + e.len.toNat) (by omega),
      List.flatten_cons]

/-- ENT_ENC of tokens that all have codes succeeds within BIT_CAP, and stores the concatenation of the codes (R221, R222). -/
theorem entEncStage_of_codes {ps : List (List Bool)} (hc : s.cfg.legal = true) (htok : s.tokLen.toNat ≤ s.cfg.tokCap)
    (h : List.Forall₂ (fun k p => codeFor s k = some p) (s.mem.tokens s.tokLen.toNat) ps)
    (hfit : ps.flatten.length ≤ s.cfg.bitCap) :
    ∃ t, entEncStage s = .ok t ∧ t.bitLen.toNat = ps.flatten.length ∧ t.mem.stream ps.flatten.length = ps.flatten := by
  have hcap := Config.bitCap_le hc
  refine ⟨{ s with mem := s.mem.putStream ps.flatten, bitLen := BitVec.ofNat 32 ps.flatten.length }, ?_, ?_, ?_⟩
  · simp only [entEncStage, if_neg (Nat.not_lt.2 htok), entEncFrom_of_codes h (pos := 0) (by omega)]
  · exact Nat.mod_eq_of_lt (by omega)
  · exact Memory.stream_putStream _ _

/-! ### The stages after LZW_ENC -/

/-- The stages of COMPRESS after its first leave what LZW_ENC did alone (30_encoding.md R105). -/
theorem LzwEncoded.stage (h : LzwEncoded s t ts) {i : Instr} (hi : i ∈ [Instr.freqCount, .huffBuild, .huffCodes, .entEnc])
    (hstage : commandOutcome i t = .ok u) : LzwEncoded s u ts := by
  have hcfg : u.cfg = t.cfg := by
    have := commandOutcome_cfg i t
    rwa [hstage] at this
  have hagree : ∀ c ∈ [Component.symLen, .sym, .tokLen, .tok, .dict], c.agree t u := by
    intro c hcomp
    have := commandOutcome_frame i t
    rw [hstage] at this
    exact this c (by fin_cases hi <;> fin_cases hcomp <;> decide)
  have htokLen : u.tokLen = t.tokLen := hagree .tokLen (by decide)
  have htok : u.mem.tok = t.mem.tok := hagree .tok (by decide)
  have hdict : u.dict = t.dict := hagree .dict (by decide)
  have hsym : u.mem.sym = t.mem.sym := hagree .sym (by decide)
  have hsymLen : u.symLen = t.symLen := hagree .symLen (by decide)
  constructor
  case cfg => exact hcfg.trans h.cfg
  case source => rw [hdict]; exact h.source
  case tokLen => rw [htokLen]; exact h.tokLen
  case tokens => rw [Memory.tokens_congr htok]; exact h.tokens
  case tokCap => exact h.tokCap
  case symCap => exact h.symCap
  case bound => rw [hdict]; exact h.bound
  case count => rw [hdict]; exact h.count
  case ok => rw [hdict]; exact h.ok
  case differ => rw [hdict]; exact h.differ
  case tail => rw [Memory.read_congr (b := .tok) htok]; exact h.tail
  case sym => exact hsym.trans h.sym
  case symLen => exact hsymLen.trans h.symLen

theorem LzwEncoded.dictNext_le (h : LzwEncoded s t ts) : dictNext t.dict ≤ s.cfg.dictCap := h.ok.next

/-- Tokens of at least one symbol are at least one. -/
theorem lzwEncode_ne_nil {xs : List Byte} (h : xs ≠ []) : (lzwEncode xs).1 ≠ [] := by
  obtain ⟨x, xs, rfl⟩ := List.exists_cons_of_ne_nil h
  exact List.length_pos_iff.1 (encodeFrom_emits (D := []) (w := [x]) rfl xs)

/-- The tree that the first three stages of COMPRESS leave in `t`, after LZW_ENC has given the tokens `ts`: well formed, with a
code for each token, none longer than there are tokens. -/
structure TokenTree (s t : State) (ts : List Nat) : Prop where
  encoded : LzwEncoded s t ts
  wellFormed : TreeWellFormed t
  coded : ∀ k ∈ ts, ∃ p, IsCode t k p
  short : ∀ k p, IsCode t k p → p.length ≤ ts.length

/-- FREQ_COUNT and HUFF_BUILD after LZW_ENC: the tokens are counted, and a tree is built of those that occur (41_huffman.md R173,
R180). -/
theorem tokenTree_of_encoded (hc : s.cfg.legal = true) (h : LzwEncoded s t ts) (hne : ts ≠ []) :
    ∃ u v, freqCountStage t = .ok u ∧ huffBuildStage u = .ok v ∧ TokenTree s v ts := by
  have hct : t.cfg.legal = true := h.cfg ▸ hc
  have htokens : t.mem.tokens t.tokLen.toNat = ts := by rw [h.tokLen, h.tokens]
  have hbound : ∀ k ∈ ts, k < t.cfg.dictCap := fun k hk => h.cfg ▸ (h.bound k hk).trans_le h.dictNext_le
  obtain ⟨m, hcount, hfreq⟩ := freqCountStage_of_bound hct (by rw [h.tokLen, h.cfg]; exact h.tokCap) (by rwa [htokens])
  rw [htokens] at hfreq
  have hmem : ∀ {k}, k ∈ freqTokens { t with mem := m } ↔ k ∈ ts :=
    mem_freqTokens_of_counts (s := { t with mem := m }) hbound hfreq
  have hfreqNe : freqTokens { t with mem := m } ≠ [] := fun hnil =>
    hne (List.eq_nil_iff_forall_not_mem.2 fun k hk => by simpa [hnil] using hmem.2 hk)
  have hlen : ts.length < 2 ^ 32 := h.tokLen ▸ t.tokLen.isLt
  obtain ⟨v, hbuild, hbuilt, hroot, hcfg⟩ := huffBuildStage_of_total (s := { t with mem := m }) hct hfreqNe
    (by rw [freqTotal_of_counts (s := { t with mem := m }) hbound hfreq]; omega)
  have hnodes := hbuilt.nodeCount
  have hdict := length_freqTokens_le { t with mem := m }
  have hdistinct : (freqTokens { t with mem := m }).length ≤ ts.length :=
    ((nodup_freqTokens _).subperm fun k hk => hmem.1 hk).length_le
  have hwf : TreeWellFormed v := hbuilt.wellFormed hroot (by rw [hcfg, Config.nodeCap]; omega)
    (fun k hk => hcfg ▸ (mem_freqTokens.1 hk).1) (nodup_freqTokens _)
  exact ⟨_, v, hcount, hbuild, (h.stage (i := .freqCount) (by decide) hcount).stage (i := .huffBuild) (by decide) hbuild, hwf,
    fun k hk => hbuilt.exists_isCode hwf (hmem.2 hk), fun k p hp => (hbuilt.isCode_length hroot hp).trans hdistinct⟩

/-! ### HUFF_CODES and ENT_ENC after the tree -/

theorem exists_forall₂ {α β : Type} {R : α → β → Prop} {l : List α} (h : ∀ a ∈ l, ∃ b, R a b) : ∃ l', List.Forall₂ R l l' := by
  induction l with
  | nil => exact ⟨[], .nil⟩
  | cons a l ih =>
    obtain ⟨b, hb⟩ := h a List.mem_cons_self
    obtain ⟨l', hl⟩ := ih fun x hx => h x (List.mem_cons_of_mem _ hx)
    exact ⟨b :: l', .cons hb hl⟩

/-- What a successful COMPRESS leaves in `t`, the tree being the one built in `b`. -/
structure Compressed (s b t : State) (ts : List Nat) (ps : List (List Bool)) : Prop where
  encoded : LzwEncoded s t ts
  tree : SameTree b t
  wellFormed : TreeWellFormed t
  table : ∀ k p, (∃ e, codeEntry? t.code k = some e ∧ e.toBits = p) ↔ IsCode b k p
  codes : List.Forall₂ (IsCode b) ts ps
  bitLen : t.bitLen.toNat = ps.flatten.length
  stream : t.mem.stream ps.flatten.length = ps.flatten

theorem Compressed.complete {b : State} {ps : List (List Bool)} (h : Compressed s b t ts ps) (r : Report) :
    Compressed s b (t.complete r) ts ps :=
  have hsame : SameTree t (t.complete r) := .of_node rfl rfl rfl
  ⟨h.encoded.complete r, h.tree.trans hsame, hsame.wellFormed rfl h.wellFormed, h.table, h.codes, h.bitLen, h.stream⟩

/-- The last two stages of COMPRESS succeed when the codes fit (41_huffman.md R195; 42_entropy.md R221). -/
theorem compressed_of_tokenTree {b : State} (hc : s.cfg.legal = true) (h : TokenTree s b ts)
    (hmax : ∀ k p, IsCode b k p → p.length ≤ s.cfg.codeMaxLen)
    (hfit : ∀ ps, List.Forall₂ (IsCode b) ts ps → ps.flatten.length ≤ s.cfg.bitCap) :
    ∃ u t ps, huffCodesStage b = .ok u ∧ entEncStage u = .ok t ∧ Compressed s b t ts ps := by
  have hcfg := h.encoded.cfg
  obtain ⟨code, hcodes, htable⟩ := huffCodesStage_of_wellFormed (hcfg ▸ hc) h.wellFormed (hcfg ▸ hmax)
  have hu := h.encoded.stage (i := .huffCodes) (by decide) hcodes
  obtain ⟨ps, hps⟩ := exists_forall₂ h.coded
  have hfor : List.Forall₂ (fun k p => codeFor { b with code := code } k = some p) ts ps := by
    refine ((List.forall₂_and_left ts ps).2 ⟨fun k hk => hk, hps⟩).imp fun k p hkp => ?_
    obtain ⟨hk, hp⟩ := hkp
    obtain ⟨e, he, rfl⟩ := (htable k p).2 hp
    have hlt : k < b.cfg.dictCap := hcfg ▸ (h.encoded.bound k hk).trans_le h.encoded.dictNext_le
    simp only [codeFor, if_pos hlt, he, Option.map_some]
  obtain ⟨t, hstream, hbitLen, hbits⟩ := entEncStage_of_codes (s := { b with code := code }) (hcfg ▸ hc)
    (by rw [hu.tokLen, hu.cfg]; exact hu.tokCap) (by rw [hu.tokLen, hu.tokens]; exact hfor) (hcfg ▸ hfit ps hps)
  have hframe := commandOutcome_frame .entEnc { b with code := code }
  rw [commandOutcome, hstream] at hframe
  have hsame : SameTree b t := .of_node (hframe .node (by decide)) (hframe .nodeCount (by decide)) (hframe .root (by decide))
  have ht := hu.stage (i := .entEnc) (by decide) hstream
  have hcode : t.code = code := hframe .code (by decide)
  exact ⟨_, t, ps, hcodes, hstream, ht, hsame, hsame.wellFormed (ht.cfg.trans hcfg.symm) h.wellFormed, hcode ▸ htable, hps,
    hbitLen, hbits⟩

/-! ### The whole command -/

/-- Codes of at most `n` bits take at most `n` bits each. -/
theorem flatten_length_le {R : Nat → List Bool → Prop} {n : Nat} {ts : List Nat} {ps : List (List Bool)}
    (h : List.Forall₂ R ts ps) (hR : ∀ k p, R k p → p.length ≤ n) : ps.flatten.length ≤ n * ts.length := by
  induction h with
  | nil => exact Nat.zero_le _
  | cons hcode _ ih =>
    have := hR _ _ hcode
    rw [List.flatten_cons, List.length_append, List.length_cons, Nat.mul_succ]
    omega

/-- The first three stages of COMPRESS succeed on symbols whose tokens and entries fit. -/
theorem tokenTree_of_fits (hc : s.cfg.legal = true) (hpos : 1 ≤ s.symLen.toNat) (hfit : LzwFits s) :
    ∃ t u v ts, lzwEncStage s = .ok t ∧ freqCountStage t = .ok u ∧ huffBuildStage u = .ok v ∧ TokenTree s v ts := by
  obtain ⟨t, hstage⟩ := lzwEncStage_of_fits hc hfit
  obtain ⟨ts, henc⟩ := lzwEncoded_of_stage hc hstage
  have hne : ts ≠ [] := by
    have hsym : s.mem.symbols s.symLen.toNat ≠ [] := List.length_pos_iff.1 (by rw [Memory.length_symbols]; exact hpos)
    simpa [henc.source] using lzwEncode_ne_nil hsym
  obtain ⟨u, v, hcount, hbuild, htree⟩ := tokenTree_of_encoded hc henc hne
  exact ⟨t, u, v, ts, hstage, hcount, hbuild, htree⟩

/-- COMPRESS succeeds when its tokens, entries and codes fit, whatever the length of its input (R266). -/
theorem compressStages_of_fits {t u v : State} (hc : s.cfg.legal = true) (hlzw : lzwEncStage s = .ok t)
    (hcount : freqCountStage t = .ok u) (hbuild : huffBuildStage u = .ok v) (htree : TokenTree s v ts)
    (hmax : ∀ k p, IsCode v k p → p.length ≤ s.cfg.codeMaxLen)
    (hfit : ∀ ps, List.Forall₂ (IsCode v) ts ps → ps.flatten.length ≤ s.cfg.bitCap) :
    ∃ w ps, commandOutcome .compress s = .ok w ∧ Compressed s v w ts ps := by
  obtain ⟨x, w, ps, hcodes, hstream, hw⟩ := compressed_of_tokenTree hc htree hmax hfit
  refine ⟨w, ps, ?_, hw⟩
  simp only [commandOutcome, compressStages, hlzw, StageOutcome.andThen, hcount, hbuild, hcodes, hstream,
    StageOutcome.onFailure]

/-- Two states with the same parameters and the same components of R105. -/
abbrev SameComponents (t u : State) : Prop := AgreeOn (commandWrites .clear) t u

/-- A stage that succeeds succeeds alike in a state with the same components, so commands that run in order go on (R265). -/
theorem runInOrder_of_stage {i : Instr} {is : List Instr} {t' : State} (hi : i ∈ stageCommands)
    (h : commandOutcome i t = .ok t') (hsame : SameComponents t u) :
    ∃ u', runInOrder (i :: is) u = runInOrder is u' ∧ SameComponents t' u' := by
  have halike := stage_alike hi (hsame.mono (Q := commandReads i) fun c _ => by cases c <;> decide)
  rw [h] at halike
  cases hu : commandOutcome i u with
  | failed u' j e => rw [hu] at halike; exact halike.elim
  | ok u' =>
    rw [hu] at halike
    refine ⟨u'.complete Report.ok, ?_, ?_⟩
    · rw [runInOrder_cons, hu, finish_ok]
      exact if_pos rfl
    · exact ⟨halike.cfg hsame.cfg, fun c hc => (halike.agree c (hsame.agree c hc)).trans (c.agree_complete _ _)⟩

end Sys2Proof.Machine

open Sys2Proof.Machine Sys2Proof.Reference

/-- Settles O60: the tree built on the way is the tree that the first three stages build when they run in order. -/
theorem compressSucceedsWhenCodesFit : Obligations.CompressSucceedsWhenCodesFit := by
  intro s ts d b hc hpos hsym hencode htok hdict hb hmax hbits
  obtain ⟨t, u, v, ts', hlzw, hcount, hbuild, htree⟩ :=
    tokenTree_of_fits hc hpos ⟨hsym, by rw [hencode]; exact htok, by rw [hencode]; exact hdict⟩
  obtain ⟨rfl, hd⟩ := Prod.mk.inj (htree.encoded.source.symm.trans hencode)
  have hsame : SameComponents s s := ⟨rfl, fun c _ => c.agree_refl s⟩
  obtain ⟨t', ht, hsame⟩ := runInOrder_of_stage (i := .lzwEnc) (is := [.freqCount, .huffBuild]) (by decide) hlzw hsame
  obtain ⟨u', hu, hsame⟩ := runInOrder_of_stage (i := .freqCount) (is := [.huffBuild]) (by decide) hcount hsame
  obtain ⟨v', hv, hsame⟩ := runInOrder_of_stage (i := .huffBuild) (is := []) (by decide) hbuild hsame
  obtain rfl : b = v' := hb.trans (ht.trans (hu.trans hv))
  have hbv : SameTree v b := .of_node (hsame.agree .node (by decide)) (hsame.agree .nodeCount (by decide))
    (hsame.agree .root (by decide))
  have hcodes : IsCode b = IsCode v := by
    funext k p
    exact propext hbv.isCode
  rw [hcodes] at hmax hbits
  obtain ⟨w, ps, hok, hw⟩ := compressStages_of_fits hc hlzw hcount hbuild htree hmax hbits
  have hwc := hw.complete Report.ok
  have hisCode : IsCode (w.complete Report.ok) = IsCode v := by
    funext k p
    exact propext hwc.tree.isCode
  refine ⟨_, ps, exec_of_ok hok, w.succeeded_complete, hwc.wellFormed, hwc.encoded.tokLen, hwc.encoded.tokens, ?_, ?_, ?_, ?_,
    hwc.bitLen, hwc.stream⟩
  · exact (Prod.mk.inj (hwc.encoded.source.symm.trans hencode)).2
  · rw [hisCode, hcodes]; exact fun _ _ => Iff.rfl
  · rw [hisCode]; exact hwc.table
  · rw [hisCode]; exact hwc.codes

/-- Settles O49: there are at most as many tokens as symbols, and no code is longer than there are tokens. -/
theorem compressSucceeds : Obligations.CompressSucceeds := by
  intro s hc hpos hsym htok hdict hmaxLen hbitCap
  have htokens : (lzwEncode (s.mem.symbols s.symLen.toNat)).1.length ≤ s.symLen.toNat := by
    simpa [Memory.length_symbols] using lzwEncode_length_le (s.mem.symbols s.symLen.toNat)
  obtain ⟨t, u, v, ts, hlzw, hcount, hbuild, htree⟩ := tokenTree_of_fits hc hpos ⟨hsym, by omega, by omega⟩
  rw [htree.encoded.source] at htokens
  have hshort : ∀ k p, IsCode v k p → p.length ≤ s.symLen.toNat := fun k p hp => (htree.short k p hp).trans htokens
  obtain ⟨w, ps, hok, hw⟩ := compressStages_of_fits hc hlzw hcount hbuild htree
    (fun k p hp => (hshort k p hp).trans hmaxLen)
    fun ps hps => ((flatten_length_le hps hshort).trans (Nat.mul_le_mul_left _ htokens)).trans hbitCap
  have hwc := hw.complete Report.ok
  have hread : (w.complete Report.ok).mem.tokens (w.complete Report.ok).tokLen.toNat = ts := by
    rw [hwc.encoded.tokLen, hwc.encoded.tokens]
  refine ⟨_, ps, exec_of_ok hok, w.succeeded_complete, hwc.wellFormed, ?_, ?_, ?_⟩
  · rw [hread, hwc.encoded.source]
  · rw [hread]
    exact hwc.codes.imp fun k p hp => hwc.tree.isCode.2 hp
  · rw [hwc.bitLen]
    exact hwc.stream
end

section
/-! SUPPORT. A command run to its end: what it leaves alone (30_encoding.md R105), and how one that reports an error has failed
(43_control.md R263, R264). -/

namespace Sys2Proof.Machine

variable {i : Instr} {s t : State}

theorem exec_frame (h : exec i s = .next t) : AgreeOutside (commandWrites i) s t := by
  rw [exec_eq] at h
  cases h
  exact (commandOutcome_frame i s).finish fun u r hu c hc => (hu c hc).trans (c.agree_complete u r)

/-- A command that reports an error has failed in a stage (60_exceptions.md R300). -/
theorem commandOutcome_of_errCode_ne_zero (h : exec i s = .next t) (ht : t.errCode ≠ 0#8) :
    ∃ u st e, commandOutcome i s = .failed u st e ∧ t = u.complete (Report.failure st.opcode e) := by
  rw [exec_eq] at h
  cases h
  cases ho : commandOutcome i s with
  | ok u =>
    rw [ho] at ht
    exact absurd rfl ht
  | failed u st e => exact ⟨u, st, e, rfl, rfl⟩

end Sys2Proof.Machine
end

section
/-! PROOFS. 41_huffman.md R172, R173: FREQ_COUNT. -/

open Sys2Proof.Machine

/-- Settles O33: the counting loop counts from a cleared table, and a failure clears the table. -/
theorem freqCountCountsTokens : Obligations.FreqCountCountsTokens := by
  have frame : ∀ {s t}, exec .freqCount s = .next t → ∀ c, c ≠ .freq → Component.agree s t c :=
    fun h c hc => exec_frame h c (by simpa [commandWrites] using hc)
  intro s hc
  refine ⟨fun htok hbound => ?_, fun t ht herr => ⟨fun k => ?_, frame ht⟩⟩
  · obtain ⟨m, hstage, hfreq⟩ := freqCountStage_of_bound hc htok hbound
    have hexec := exec_of_ok (i := .freqCount) hstage
    exact ⟨_, hexec, State.succeeded_complete _, hfreq, frame hexec⟩
  · obtain ⟨u, st, e, hout, rfl⟩ := commandOutcome_of_errCode_ne_zero ht herr
    rcases freqCountStage_cases s with ⟨m, -, -, hok⟩ | ⟨e', hfailed, -⟩
    · cases hout.symm.trans hok
    · cases hout.symm.trans hfailed
      exact Memory.freqOf_clear s.mem k

/-- Settles O34: the length is checked before the loop, which stops at a token outside the table. -/
theorem freqCountErrors : Obligations.FreqCountErrors := by
  intro s
  refine ⟨fun hlen => ?_, fun htok ⟨k, hk, hout⟩ => ?_⟩
  · have hstage : commandOutcome .freqCount s = .failed (freqCountFail s) .freqCount (.capacity .tok) := if_pos hlen
    exact ⟨_, exec_of_failed hstage, State.reports_failure ..⟩
  · have hloop := freqCountFrom_eq s.cfg (s.mem.tokens s.tokLen.toNat) (s.mem.clear .freq)
    rw [if_neg fun hall => absurd (hall k hk) (Nat.not_lt.2 hout)] at hloop
    have hstage : commandOutcome .freqCount s = .failed (freqCountFail s) .freqCount (.capacity .freq) := by
      simp only [commandOutcome, freqCountStage, if_neg (Nat.not_lt.2 htok), hloop]
    exact ⟨_, exec_of_failed hstage, State.reports_failure ..⟩
end

section
/-! SUPPORT. The merges of HUFF_BUILD as a run that takes the two members of least key (41_huffman.md R177, R180, R181), and the
weights that such a run gives. -/

namespace Sys2Proof.Machine

open Sys2Proof.Reference

variable {q q' rest : List MergeItem} {a b x : MergeItem} {next merges : Nat} {out : List (Node × Nat)}

/-! ### The multiset -/

/-- The members are different nodes made before `next`, with weights that fit in 64 bits. -/
structure MembersOk (q : List MergeItem) (next : Nat) : Prop where
  nodup : (q.map (·.index)).Nodup
  index : ∀ x ∈ q, x.index < next
  weight : ∀ x ∈ q, x.weight < 2 ^ 64

theorem MembersOk.perm (h : MembersOk q next) (hperm : q'.Perm q) : MembersOk q' next where
  nodup := (hperm.map (·.index)).nodup_iff.2 h.nodup
  index x hx := h.index x (hperm.mem_iff.1 hx)
  weight x hx := h.weight x (hperm.mem_iff.1 hx)

theorem MembersOk.tail (h : MembersOk (x :: rest) next) : MembersOk rest next where
  nodup := (List.nodup_cons.1 h.nodup).2
  index y hy := h.index y (List.mem_cons_of_mem x hy)
  weight y hy := h.weight y (List.mem_cons_of_mem x hy)

/-- The multiset after a merge whose weight fits. -/
theorem MembersOk.merge (h : MembersOk (a :: b :: rest) next) (hsmall : a.weight + b.weight < 2 ^ 64) :
    MembersOk (⟨a.weight + b.weight, next⟩ :: rest) (next + 1) where
  nodup := by
    have hnodup := h.nodup
    simp only [List.map_cons, List.nodup_cons] at hnodup ⊢
    refine ⟨fun hmem => ?_, hnodup.2.2⟩
    obtain ⟨x, hx, hindex⟩ := List.mem_map.1 hmem
    have := h.index x (by simp [hx])
    omega
  index x hx := by
    rcases List.mem_cons.1 hx with rfl | hx
    · exact Nat.lt_succ_self next
    · exact (h.index x (by simp [hx])).trans (Nat.lt_succ_self next)
  weight x hx := by
    rcases List.mem_cons.1 hx with rfl | hx
    · exact hsmall
    · exact h.weight x (by simp [hx])

/-- The keys of different nodes differ, so the member taken comes before each of the others (R177). -/
theorem before_of_takeLeast (hq : MembersOk q next) (h : takeLeast q = some (x, rest)) : ∀ y ∈ rest, x.before y = true := by
  intro y hy
  have hnodup := (hq.perm (takeLeast_perm h)).nodup
  have hne : y.index ≠ x.index := fun he =>
    (List.nodup_cons.1 hnodup).1 (List.mem_map.2 ⟨y, hy, he⟩)
  have hle := takeLeast_least h y hy
  simp only [MergeItem.before, decide_eq_true_eq, decide_eq_false_iff_not] at hle ⊢
  omega

theorem leastTwo_of_takeLeast (hq : MembersOk q next) (ha : takeLeast q = some (a, q')) (hb : takeLeast q' = some (b, rest)) :
    LeastTwo q a b rest := by
  have hperm := takeLeast_perm hb
  have hq' : MembersOk q' next := (hq.perm (takeLeast_perm ha)).tail
  exact ⟨(hperm.cons a).trans (takeLeast_perm ha), fun y hy => before_of_takeLeast hq ha y (hperm.mem_iff.1 hy),
    before_of_takeLeast hq' hb⟩

theorem leastTwo_of_perm (h : LeastTwo q a b rest) (hperm : q.Perm q') : LeastTwo q' a b rest :=
  ⟨h.members.trans hperm, h.first, h.second⟩

/-- A run of merges does not depend on how its multiset is listed. -/
theorem merges_of_perm (h : Merges q next out) (hperm : q.Perm q') : Merges q' next out := by
  cases h with
  | done x next => rw [← List.singleton_perm.1 hperm]; exact .done x next
  | merge hleast hrun => exact .merge (leastTwo_of_perm hleast hperm) hrun

theorem overflowsAt_of_perm {node : Nat} (h : OverflowsAt q next node) (hperm : q.Perm q') : OverflowsAt q' next node := by
  cases h with
  | here hleast hover => exact .here (leastTwo_of_perm hleast hperm) hover
  | later hleast hsmall hrun => exact .later (leastTwo_of_perm hleast hperm) hsmall hrun

/-! ### The run -/

/-- The engine's merges are a run to the last member, whose weight then fits, or end at the first weight that does not fit. -/
theorem huffMerges_run (hlen : q.length = merges + 1) (hq : MembersOk q next) :
    (∃ out, huffMerges merges next q = .ok out ∧ Merges q next out ∧ (q.map (·.weight)).sum < 2 ^ 64)
    ∨ ∃ m, m < merges ∧ huffMerges merges next q = .error (.weightOverflow (next + m)) ∧ OverflowsAt q next (next + m) := by
  induction merges generalizing next q with
  | zero =>
    obtain ⟨x, rfl⟩ := List.length_eq_one_iff.1 hlen
    exact .inl ⟨[], rfl, .done x next, by simpa using hq.weight x⟩
  | succ merges ih =>
    obtain ⟨a, q', b, rest, ha, hb, hperm⟩ := exists_takeLeast_two (q := q) (by omega)
    have hleast := leastTwo_of_takeLeast hq ha hb
    rcases Nat.lt_or_ge (a.weight + b.weight) (2 ^ 64) with hsmall | hover
    · have hrest : rest.length = merges := by
        have := hperm.length_eq
        simp only [List.length_cons] at this
        omega
      have hlast := List.perm_append_singleton (⟨a.weight + b.weight, next⟩ : MergeItem) rest
      have hsum := sum_weight_perm hperm
      have hsum' := sum_weight_perm hlast
      simp only [List.map_cons, List.sum_cons] at hsum hsum'
      rcases ih (next := next + 1) (by simp [hrest]) (((hq.perm hperm).merge hsmall).perm hlast) with
        ⟨out, hout, hrun, htotal⟩ | ⟨m, hm, herr, hrun⟩
      · refine .inl ⟨_, ?_, .merge hleast (merges_of_perm hrun hlast), by omega⟩
        simp only [huffMerges, ha, hb, if_neg (Nat.not_le.2 hsmall), hout]
      · rw [show next + 1 + m = next + (m + 1) by omega] at herr hrun
        refine .inr ⟨m + 1, by omega, ?_, .later hleast hsmall (overflowsAt_of_perm hrun hlast)⟩
        simp only [huffMerges, ha, hb, if_neg (Nat.not_le.2 hsmall), herr]
    · refine .inr ⟨0, Nat.succ_pos _, ?_, .here hleast hover⟩
      simp only [huffMerges, ha, hb, if_pos hover, Nat.add_zero]

/-! ### The weights -/

/-- The assignment `W` of weights to nodes gives the members and the nodes of a run their weights. -/
structure Weighs (W : Nat → Nat) (q : List MergeItem) (next : Nat) (out : List (Node × Nat)) : Prop where
  members : ∀ x ∈ q, W x.index = x.weight
  nodes : ∀ j p, out[j]? = some p → W (next + j) = p.2

variable {W : Nat → Nat}

theorem Weighs.merge {nd : Node} (h : Weighs W q next ((nd, a.weight + b.weight) :: out)) (hleast : LeastTwo q a b rest) :
    Weighs W (⟨a.weight + b.weight, next⟩ :: rest) (next + 1) out where
  members x hx := by
    rcases List.mem_cons.1 hx with rfl | hx
    · exact h.nodes 0 _ rfl
    · exact h.members x (hleast.members.mem_iff.1 (by simp [hx]))
  nodes j p hj := by rw [← h.nodes (j + 1) p hj, Nat.add_right_comm, Nat.add_assoc]

/-- Every node of a run weighs what its two children weigh (R180). -/
theorem merges_weight_eq_add (hrun : Merges q next out) (hW : Weighs W q next out) {j : Nat} {p : Node × Nat}
    (hj : out[j]? = some p) : ∃ l r, p.1 = .internal l r ∧ p.2 = W l + W r := by
  induction hrun generalizing j with
  | done => cases hj
  | @merge q rest a b next out hleast _ ih =>
    cases j with
    | zero =>
      cases hj
      have ha := hW.members a (hleast.members.mem_iff.1 (by simp))
      have hb := hW.members b (hleast.members.mem_iff.1 (by simp))
      exact ⟨a.index, b.index, rfl, by rw [ha, hb]⟩
    | succ j => exact ih (hW.merge hleast) hj

/-- The last node of a run, or the one member when there is nothing to merge, weighs what all members weigh (R184). -/
theorem merges_weight_last (hrun : Merges q next out) (hW : Weighs W q next out) (hlast : next - 1 ∈ q.map (·.index)) :
    W (next + out.length - 1) = (q.map (·.weight)).sum := by
  induction hrun with
  | done x next =>
    rw [List.map_singleton, List.mem_singleton] at hlast
    simpa [hlast] using hW.members x (by simp)
  | @merge q rest a b next out hleast _ ih =>
    have hroot := ih (hW.merge hleast) (by simp)
    have hsum := sum_weight_perm hleast.members
    simp only [List.map_cons, List.sum_cons, ← Nat.add_assoc] at hsum hroot
    rw [← hsum, ← hroot, List.length_cons, ← Nat.add_assoc, Nat.add_right_comm]

end Sys2Proof.Machine
end

section
/-! SUPPORT. What a successful HUFF_BUILD leaves: the leaves, and the nodes of a run of merges from them (41_huffman.md R176 to R184). -/

namespace Sys2Proof.Machine

open Sys2Proof.Reference

variable {s t : State} {out : List (Node × Nat)}

/-! ### The leaves as members -/

theorem length_huffLeaves (s : State) : (huffLeaves s.cfg s.mem).length = (freqTokens s).length := by
  rw [huffLeaves_eq, List.length_map]

theorem huffLeaves_nodes (s : State) : (huffLeaves s.cfg s.mem).map Prod.fst = (freqTokens s).map .leaf := by
  rw [huffLeaves_eq, List.map_map]; rfl

theorem huffLeaves_weights (s : State) : (huffLeaves s.cfg s.mem).map Prod.snd = (freqTokens s).map s.mem.freqOf := by
  rw [huffLeaves_eq, List.map_map]; rfl

theorem huffQueue_huffLeaves (s : State) : huffQueue (huffLeaves s.cfg s.mem) = freqMembers s := by
  rw [huffLeaves_eq]
  refine List.ext_getElem (by simp [huffQueue, freqMembers]) fun i _ _ => ?_
  simp [huffQueue, freqMembers]

theorem freqMembers_index (s : State) : (freqMembers s).map (·.index) = List.range (freqTokens s).length := by
  refine List.ext_getElem (by simp [freqMembers]) fun i _ _ => ?_
  simp [freqMembers]

theorem freqMembers_weight (s : State) : (freqMembers s).map (·.weight) = (freqTokens s).map s.mem.freqOf := by
  refine List.ext_getElem (by simp [freqMembers]) fun i _ _ => ?_
  simp [freqMembers]

theorem mem_freqMembers {x : MergeItem} (h : x ∈ freqMembers s) :
    ∃ k, (freqTokens s)[x.index]? = some k ∧ x.weight = s.mem.freqOf k := by
  obtain ⟨i, hi, rfl⟩ := List.mem_mapIdx.1 h
  exact ⟨_, List.getElem?_eq_getElem hi, rfl⟩

theorem membersOk_freqMembers (s : State) : MembersOk (freqMembers s) (freqTokens s).length where
  nodup := by rw [freqMembers_index]; exact List.nodup_range
  index x hx := by
    obtain ⟨k, hk, -⟩ := mem_freqMembers hx
    exact (List.getElem?_eq_some_iff.1 hk).1
  weight x hx := by
    obtain ⟨k, -, hweight⟩ := mem_freqMembers hx
    rw [hweight]
    exact s.mem.freqOf_lt k

/-! ### The nodes made -/

/-- HUFF_BUILD of a nonempty table makes the nodes of a whole run, or finds the first weight that does not fit (R180, R181). -/
theorem huffTree_run (hne : freqTokens s ≠ []) :
    (∃ out, huffTree (huffLeaves s.cfg s.mem) = .ok (huffLeaves s.cfg s.mem ++ out)
      ∧ Merges (freqMembers s) (freqTokens s).length out ∧ freqTotal s < 2 ^ 64)
    ∨ ∃ m, m + 1 < (freqTokens s).length
      ∧ huffTree (huffLeaves s.cfg s.mem) = .error (.weightOverflow ((freqTokens s).length + m))
      ∧ OverflowsAt (freqMembers s) (freqTokens s).length ((freqTokens s).length + m) := by
  have hpos := List.length_pos_iff.2 hne
  have hlen := length_huffLeaves s
  have hqueue := huffQueue_huffLeaves s
  have hsum := sum_freqTokens s
  rw [← freqMembers_weight] at hsum
  cases hleaves : huffLeaves s.cfg s.mem with
  | nil => rw [hleaves, List.length_nil] at hlen; omega
  | cons p ps =>
    rw [hleaves] at hlen hqueue
    rw [List.length_cons] at hlen
    rcases huffMerges_run (merges := ps.length) (by simp [freqMembers, hlen]) (membersOk_freqMembers s) with
      ⟨out, hout, hrun, htotal⟩ | ⟨m, hm, herr, hrun⟩
    · exact .inl ⟨out, by simp only [huffTree, hqueue, hlen, hout], hrun, hsum ▸ htotal⟩
    · exact .inr ⟨m, by omega, by simp only [huffTree, hqueue, hlen, herr], hrun⟩

/-- What HUFF_BUILD leaves in `t` when its merges make the internal nodes `out`. -/
structure HuffBuilt (s t : State) (out : List (Node × Nat)) : Prop where
  built : BuiltNodes (freqTokens s) t.heldNodes
  root : t.root.toNat + 1 = t.nodeCount.toNat
  cfg : t.cfg = s.cfg
  run : Merges (freqMembers s) (freqTokens s).length out
  length : out.length + 1 = (freqTokens s).length
  nodes : ∀ i p, (huffLeaves s.cfg s.mem ++ out)[i]? = some p → t.mem.nodeAt i = p.1 ∧ weightAt t i = p.2
  tail : ∀ j, 8 * (2 * (freqTokens s).length - 1) ≤ j → t.mem.read .node j = s.mem.read .node j

theorem HuffBuilt.complete (h : HuffBuilt s t out) (r : Report) : HuffBuilt s (t.complete r) out :=
  ⟨h.built, h.root, h.cfg, h.run, h.length, h.nodes, h.tail⟩

theorem huffBuilt_of_ok (hc : s.cfg.legal = true) (h : huffBuildStage s = .ok t) : ∃ out, HuffBuilt s t out := by
  have hne : freqTokens s ≠ [] := fun hnil => by
    rw [huffBuildStage, huffLeaves_eq, hnil] at h
    cases h
  rcases huffTree_run hne with ⟨out, htree, hrun, htotal⟩ | ⟨m, -, herr, -⟩
  · obtain ⟨u, hu, hbuilt, hroot, hcfg⟩ := huffBuildStage_of_total hc hne htotal
    cases h.symm.trans hu
    obtain ⟨nds, hnds, hmade, hsmall⟩ := huffTree_of_sum hne (huffLeaves_nodes s)
      (by rw [huffLeaves_weights, sum_freqTokens]; exact htotal)
    cases htree.symm.trans hnds
    simp only [huffBuildStage, htree] at h
    cases h
    have hdict := (Config.dictCap_range hc).2
    have htoks := length_freqTokens_le s
    have hlen := hmade.length
    rw [List.length_map, List.length_append, length_huffLeaves] at hlen
    refine ⟨out, hbuilt, hroot, hcfg, hrun, by omega, fun i p hp => ?_, fun j hj => ?_⟩
    · obtain ⟨hi, rfl⟩ := List.getElem?_eq_some_iff.1 hp
      have hfits := hmade.fits (fun k hk => (mem_freqTokens.1 hk).1.trans_le (by omega))
        (by rw [List.length_map, List.length_append, length_huffLeaves]; omega) (i := i)
        (by rw [List.getElem?_map, hp]; rfl)
      have hread := Memory.nodeAt_putNodes s.mem 0 i _ hi hfits (hsmall _ (List.getElem_mem hi))
      rwa [Nat.zero_add] at hread
    · exact Memory.read_putNodes_of_outside _ _ _ _ (.inr (by rw [List.length_append, length_huffLeaves]; omega))
  · simp only [huffBuildStage, herr] at h
    cases h

theorem huffBuilt_of_succeeded (hc : s.cfg.legal = true) (h : exec .huffBuild s = .next t) (ht : t.Succeeded) :
    ∃ out, HuffBuilt s t out := by
  obtain ⟨u, hok, rfl⟩ := commandOutcome_of_succeeded h ht
  obtain ⟨out, hbuilt⟩ := huffBuilt_of_ok hc hok
  exact ⟨out, hbuilt.complete _⟩

/-! ### The nodes held -/

/-- The leaves are the tokens in order, with their frequencies (R176, R180). -/
theorem HuffBuilt.leaf (h : HuffBuilt s t out) {i k : Nat} (hi : (freqTokens s)[i]? = some k) :
    t.mem.nodeAt i = .leaf k ∧ weightAt t i = s.mem.freqOf k := by
  refine h.nodes i (.leaf k, s.mem.freqOf k) ?_
  have hlt := (List.getElem?_eq_some_iff.1 hi).1
  rw [List.getElem?_append_left (by rw [length_huffLeaves]; exact hlt), huffLeaves_eq, List.getElem?_map, hi]
  rfl

theorem HuffBuilt.merged (h : HuffBuilt s t out) {j : Nat} {p : Node × Nat} (hj : out[j]? = some p) :
    t.mem.nodeAt ((freqTokens s).length + j) = p.1 ∧ weightAt t ((freqTokens s).length + j) = p.2 := by
  refine h.nodes _ p ?_
  rwa [List.getElem?_append_right (by rw [length_huffLeaves]; omega), length_huffLeaves, Nat.add_sub_cancel_left]

theorem HuffBuilt.weighs (h : HuffBuilt s t out) : Weighs (weightAt t) (freqMembers s) (freqTokens s).length out where
  members x hx := by
    obtain ⟨k, hk, hweight⟩ := mem_freqMembers hx
    rw [(h.leaf hk).2, hweight]
  nodes j p hj := (h.merged hj).2

theorem HuffBuilt.internal (h : HuffBuilt s t out) {i : Nat} (hlo : (freqTokens s).length ≤ i)
    (hhi : i < 2 * (freqTokens s).length - 1) :
    ∃ l r, t.mem.nodeAt i = .internal l r ∧ l < i ∧ r < i ∧ weightAt t i = weightAt t l + weightAt t r := by
  obtain ⟨j, rfl⟩ := Nat.exists_eq_add_of_le hlo
  have hlen := h.length
  have hcount := h.built.nodeCount
  have hj := List.getElem?_eq_getElem (l := out) (i := j) (by omega)
  obtain ⟨hnode, hweight⟩ := h.merged hj
  obtain ⟨l, r, hlinks, hsum⟩ := merges_weight_eq_add h.run h.weighs hj
  have hn := hnode.trans hlinks
  obtain ⟨-, hl, hr⟩ := h.built.internal_at (by omega) hn
  exact ⟨l, r, hn, hl, hr, hweight.trans hsum⟩

theorem HuffBuilt.weight_root (h : HuffBuilt s t out) : weightAt t t.root.toNat = freqTotal s := by
  have hlen := h.length
  have hcount := h.built.nodeCount
  have hroot := h.root
  have hlast := merges_weight_last h.run h.weighs (by rw [freqMembers_index, List.mem_range]; omega)
  rw [freqMembers_weight, sum_freqTokens] at hlast
  rw [← hlast]
  congr 1
  omega

theorem HuffBuilt.out_eq (h : HuffBuilt s t out) :
    out = (List.range ((freqTokens s).length - 1)).map fun m =>
      (t.mem.nodeAt ((freqTokens s).length + m), weightAt t ((freqTokens s).length + m)) := by
  have hlen := h.length
  refine List.ext_getElem (by rw [List.length_map, List.length_range]; omega) fun j hj _ => ?_
  obtain ⟨hnode, hweight⟩ := h.merged (List.getElem?_eq_getElem hj)
  rw [List.getElem_map, List.getElem_range, hnode, hweight]

theorem HuffBuilt.wellFormed (h : HuffBuilt s t out) : TreeWellFormed t := by
  have hcount := h.built.nodeCount
  have htoks := length_freqTokens_le s
  exact h.built.wellFormed h.root (by rw [h.cfg, Config.nodeCap]; omega) (fun k hk => h.cfg ▸ (mem_freqTokens.1 hk).1)
    (nodup_freqTokens s)

end Sys2Proof.Machine
end

section
/-! PROOFS. 41_huffman.md R176 to R184: the tree of HUFF_BUILD, and its errors. -/

namespace Sys2Proof.Machine

/-- HUFF_BUILD leaves FREQ and CODE alone (30_encoding.md R105). -/
theorem huffBuild_keeps_tables {s t : State} (h : exec .huffBuild s = .next t) : t.mem.freq = s.mem.freq ∧ t.code = s.code :=
  ⟨exec_frame h .freq (by decide), exec_frame h .code (by decide)⟩

end Sys2Proof.Machine

open Sys2Proof.Machine Sys2Proof.Reference

/-- Settles O35: the nodes made are those of a run of merges from the leaves. -/
theorem huffBuildBuildsWellFormedTree : Obligations.HuffBuildBuildsWellFormedTree := by
  intro s hc hne htotal
  obtain ⟨u, hstage, -⟩ := huffBuildStage_of_total hc hne htotal
  have hexec := exec_of_ok (i := .huffBuild) hstage
  have hok := State.succeeded_complete u
  obtain ⟨out, h⟩ := huffBuilt_of_succeeded hc hexec hok
  have hcount := h.built.nodeCount
  have hroot := h.root
  exact ⟨_, hexec, hok, by omega, by omega, h.wellFormed, fun i k hi => h.leaf hi, fun i hlo hhi => h.internal hlo hhi,
    h.weight_root, h.tail, huffBuild_keeps_tables hexec⟩

/-- Settles O36: what the engine takes twice is the member of least key, as no two keys are equal. -/
theorem huffBuildMergesLeastKeys : Obligations.HuffBuildMergesLeastKeys := by
  intro s t hc hexec hok
  obtain ⟨out, h⟩ := huffBuilt_of_succeeded hc hexec hok
  rw [← h.out_eq]
  exact h.run

/-- Settles O37: a whole run is of weights that sum below 2^64, so the run stops at a merge before. -/
theorem huffBuildErrors : Obligations.HuffBuildErrors := by
  intro s hc
  refine ⟨fun hnil => ?_, fun hover => ?_⟩
  · have hstage : commandOutcome .huffBuild s = .failed (huffBuildFail s) .huffBuild .emptyAlphabet := by
      simp only [commandOutcome, huffBuildStage, huffLeaves_eq, hnil, List.map_nil, huffTree]
    have hexec := exec_of_failed hstage
    exact ⟨_, hexec, State.reports_failure .., rfl, rfl, huffBuild_keeps_tables hexec⟩
  · have hne : freqTokens s ≠ [] := fun hnil => by
      rw [← sum_freqTokens, hnil] at hover
      simp at hover
    rcases huffTree_run hne with ⟨out, -, -, htotal⟩ | ⟨m, hm, herr, hrun⟩
    · exact absurd htotal (Nat.not_lt.2 hover)
    · have hstage : commandOutcome .huffBuild s
          = .failed (huffBuildFail s) .huffBuild (.weightOverflow ((freqTokens s).length + m)) := by
        simp only [commandOutcome, huffBuildStage, herr]
      have hexec := exec_of_failed hstage
      have hdict := (Config.dictCap_range hc).2
      have htoks := length_freqTokens_le s
      have hinfo : (ErrorKind.weightOverflow ((freqTokens s).length + m)).info.toNat = (freqTokens s).length + m :=
        Nat.mod_eq_of_lt (by omega)
      have hreport := State.reports_failure (huffBuildFail s) .huffBuild (.weightOverflow ((freqTokens s).length + m))
      rw [hinfo] at hreport
      exact ⟨_, m, hexec, hm, hrun, hreport, rfl, rfl, huffBuild_keeps_tables hexec⟩
end

section
/-! PROOFS. 41_huffman.md R190: the engine's check of the held tree. -/

namespace Sys2Proof.Machine

open Sys2Proof.Reference

variable {s : State}

theorem getElem?_heldNodes_eq_some {i : Nat} {nd : Node} (h : s.heldNodes[i]? = some nd) :
    i < s.nodeCount.toNat ∧ s.mem.nodeAt i = nd := by
  have hi : i < s.nodeCount.toNat := by
    simpa [State.heldNodes, Memory.nodes] using (List.getElem?_eq_some_iff.1 h).1
  rw [getElem?_heldNodes hi] at h
  exact ⟨hi, Option.some.inj h⟩

/-- The nodes on the paths the engine follows are reached by child links. -/
theorem reaches_of_mem_subtree {fuel i j x : Nat} (hi : Reaches s j i) (hx : x ∈ subtree s.heldNodes fuel i) :
    Reaches s j x := by
  induction fuel generalizing i with
  | zero => cases hx
  | succ fuel ih =>
    rw [subtree] at hx
    rcases List.mem_cons.1 hx with rfl | hx
    · exact hi
    · cases hn : s.heldNodes[i]? with
      | none => rw [hn] at hx; cases hx
      | some nd =>
        have hnode := (getElem?_heldNodes_eq_some hn).2
        rw [hn] at hx
        cases nd with
        | leaf k => cases hx
        | internal l r =>
          rcases List.mem_append.1 hx with hx | hx
          · exact ih (.left hi hnode) hx
          · exact ih (.right hi hnode) hx

/-- A tree that the engine finds well formed is well formed. -/
theorem wellFormed_of_wellFormedTree (h : wellFormedTree s = true) : TreeWellFormed s := by
  have htoken := fun {t} => wellFormedTree_leaf_lt (s := s) h (t := t)
  simp only [wellFormedTree, treeShapeOk, Bool.and_eq_true, decide_eq_true_eq, List.all_eq_true, List.mem_range,
    List.contains_iff_mem] at h
  obtain ⟨⟨⟨hpos, hcap⟩, hroot⟩, ⟨⟨⟨hchildren, hparents⟩, hreached⟩, -⟩, hnodup⟩ := h
  simp only [parentCount_heldNodes] at hparents
  constructor
  case v1 => exact ⟨hpos, hcap⟩
  case v2 => exact hroot
  case v3 =>
    intro i l r hi hn
    have hlinks := hchildren _ (mem_heldNodes.2 ⟨i, hi, hn⟩)
    exact ⟨hlinks l (by simp [Node.children]), hlinks r (by simp [Node.children])⟩
  case v4root => rw [hparents _ hroot, if_pos rfl]
  case v4other => exact fun i hi hne => by rw [hparents i hi, if_neg hne]
  case v4reach => exact fun i hi => reaches_of_mem_subtree .here (hreached i hi)
  case v5range => exact fun i t hi hn => htoken (mem_heldNodes.2 ⟨i, hi, hn⟩)
  case v5once => exact fun i j t hi hj hni hnj => leaf_unique_of_nodup hnodup hi hj hni hnj

theorem wellFormedTree_iff : wellFormedTree s = true ↔ TreeWellFormed s :=
  ⟨wellFormed_of_wellFormedTree, wellFormedTree_of_wellFormed⟩

end Sys2Proof.Machine

open Sys2Proof.Machine

/-- Settles O38: by the paths from the root, which are short in a well-formed tree. -/
theorem treeCheckDecidesWellFormed : Obligations.TreeCheckDecidesWellFormed := fun _ => wellFormedTree_iff
end

section
/-! PROOFS. 41_huffman.md R195 to R199: HUFF_CODES. -/

namespace Sys2Proof.Machine

open Sys2Proof.Reference

variable {s t : State}

/-! ### Codes -/

/-- A code has at least one bit: the path to a leaf from a root that is no leaf, or "0" (R198, R199). -/
theorem isCode_ne_nil {k : Nat} {p : List Bool} (h : IsCode s k p) : p ≠ [] := by
  rintro rfl
  unfold IsCode at h
  cases hroot : s.mem.nodeAt s.root.toNat with
  | leaf k' =>
    rw [hroot] at h
    cases h.2
  | internal l r =>
    rw [hroot] at h
    obtain ⟨x, hx, hleaf⟩ := h
    cases hx
    cases hroot.symm.trans hleaf

/-- No path goes on from a leaf, so a code that begins another is that of the same leaf (R199). -/
theorem eq_of_isCode_of_isPrefix {k k' : Nat} {p p' : List Bool} (h : IsCode s k p) (h' : IsCode s k' p') (hpre : p <+: p') : k = k' := by
  unfold IsCode at h h'
  cases hroot : s.mem.nodeAt s.root.toNat with
  | leaf t =>
    rw [hroot] at h h'
    exact h.1.trans h'.1.symm
  | internal l r =>
    rw [hroot] at h h'
    obtain ⟨x, hx, hleaf⟩ := h
    obtain ⟨y, hy, hleaf'⟩ := h'
    obtain ⟨q, rfl⟩ := hpre
    rw [walk_append, hx, Option.bind_some] at hy
    cases q with
    | nil =>
      cases hy
      cases hleaf.symm.trans hleaf'
      rfl
    | cons b bs => rw [walk, hleaf] at hy; cases hy

/-! ### The stage -/

/-- A HUFF_CODES that reports success has given the codes of a well-formed tree. -/
theorem codes_of_succeeded (hc : s.cfg.legal = true) (h : exec .huffCodes s = .next t) (ht : t.Succeeded) :
    ∀ k e, codeEntry? t.code k = some e → IsCode s k e.toBits := by
  obtain ⟨u, hout, rfl⟩ := commandOutcome_of_succeeded h ht
  rcases huffCodesStage_cases s with ⟨hwf, hmax, -⟩ | ⟨-, -, hfailed⟩ | ⟨-, hfailed⟩
  · have hwf := wellFormedTree_iff.1 hwf
    obtain ⟨code, hok, hcodes⟩ := huffCodesStage_of_wellFormed hc hwf fun k p hp => hmax (k, p) ((mem_treeCodes hwf).2 hp)
    cases hout.symm.trans hok
    exact fun k e he => (hcodes k e.toBits).1 ⟨e, he, rfl⟩
  · cases hout.symm.trans hfailed
  · cases hout.symm.trans hfailed

/-- HUFF_CODES leaves the tree alone (30_encoding.md R105). -/
theorem huffCodes_keeps_tree (h : exec .huffCodes s = .next t) :
    t.mem.node = s.mem.node ∧ t.nodeCount = s.nodeCount ∧ t.root = s.root :=
  ⟨exec_frame h .node (by decide), exec_frame h .nodeCount (by decide), exec_frame h .root (by decide)⟩

end Sys2Proof.Machine

open Sys2Proof.Machine

/-- Settles O39: the table lists the leaves with their paths, and a failure empties it. -/
theorem huffCodesAssignsPathCodes : Obligations.HuffCodesAssignsPathCodes := by
  intro s hc
  refine ⟨fun hwf hmax => ?_, fun t ht herr => ⟨fun k => ?_, huffCodes_keeps_tree ht⟩⟩
  · obtain ⟨code, hstage, hcodes⟩ := huffCodesStage_of_wellFormed hc hwf hmax
    have hexec := exec_of_ok (i := .huffCodes) hstage
    exact ⟨_, hexec, State.succeeded_complete _, hcodes, huffCodes_keeps_tree hexec⟩
  · obtain ⟨u, st, e, hout, rfl⟩ := commandOutcome_of_errCode_ne_zero ht herr
    rcases huffCodesStage_cases s with ⟨-, -, hok⟩ | ⟨-, -, hfailed⟩ | ⟨-, hfailed⟩
    · cases hout.symm.trans hok
    · cases hout.symm.trans hfailed; rfl
    · cases hout.symm.trans hfailed; rfl

/-- Settles O40: the tree is checked first, and then the lengths of its codes. -/
theorem huffCodesErrors : Obligations.HuffCodesErrors := by
  intro s _
  refine ⟨fun hbad => ?_, fun hwf ⟨k, p, hp, hover⟩ => ?_⟩
  · rcases huffCodesStage_cases s with ⟨hwf, -⟩ | ⟨hwf, -⟩ | ⟨-, hstage⟩
    · exact absurd (wellFormedTree_iff.1 hwf) hbad
    · exact absurd (wellFormedTree_iff.1 hwf) hbad
    · exact ⟨_, exec_of_failed (i := .huffCodes) hstage, State.reports_failure ..⟩
  · rcases huffCodesStage_cases s with ⟨-, hmax, -⟩ | ⟨-, -, hstage⟩ | ⟨hbad, -⟩
    · exact absurd (hmax _ ((mem_treeCodes hwf).2 hp)) (Nat.not_le.2 hover)
    · exact ⟨_, exec_of_failed (i := .huffCodes) hstage, State.reports_failure ..⟩
    · rw [wellFormedTree_iff.2 hwf] at hbad
      cases hbad

/-- Settles O41: the valid codes are paths to different leaves. -/
theorem huffCodesPrefixFree : Obligations.HuffCodesPrefixFree := by
  intro s t hc ht hok
  have hcode := codes_of_succeeded hc ht hok
  exact ⟨fun k e he => List.length_pos_iff.2 (isCode_ne_nil (hcode k e he)),
    fun k k' e e' hne he he' hpre => hne (eq_of_isCode_of_isPrefix (hcode k e he) (hcode k' e' he') hpre)⟩
end

section
/-! PROOFS. 42_entropy.md R221 to R224: ENT_ENC. -/

namespace Sys2Proof.Machine

open Sys2Proof.Reference

variable {s : State} {ts : List Nat} {ps : List (List Bool)} {i pos : Nat}

/-! ### The loop -/

/-- The loop goes on behind tokens that have codes within BIT_CAP (R221). -/
theorem entEncFrom_append (h : List.Forall₂ (fun k p => codeFor s k = some p) ts ps)
    (hfit : pos + ps.flatten.length ≤ s.cfg.bitCap) (ks : List Nat) :
    entEncFrom s.cfg s.code (ts ++ ks) i pos
      = (entEncFrom s.cfg s.code ks (i + ts.length) (pos + ps.flatten.length)).map (ps.flatten ++ ·) := by
  induction h generalizing i pos with
  | nil => cases hr : entEncFrom s.cfg s.code ks i pos <;> simp [hr, Except.map]
  | @cons k p ts ps hcode _ ih =>
    rw [codeFor_eq] at hcode
    obtain ⟨e, he, rfl⟩ := Option.map_eq_some_iff.1 hcode
    rw [List.flatten_cons, List.length_append, CodeEntry.length_toBits, ← Nat.add_assoc] at hfit ⊢
    have hroom : ¬ s.cfg.bitCap < pos + e.len.toNat := by omega
    rw [List.cons_append, List.length_cons, Nat.add_comm ts.length, ← Nat.add_assoc]
    simp only [entEncFrom, he, if_neg hroom, ih hfit]
    cases entEncFrom s.cfg s.code ks (i + 1 + ts.length) (pos + e.len.toNat + ps.flatten.length) <;> simp [Except.map]

/-- The loop stops at a token with no valid code (R223). -/
theorem entEncFrom_of_unknown {k : Nat} (hk : codeFor s k = none) (ks : List Nat) :
    entEncFrom s.cfg s.code (k :: ks) i pos = .error (.unknownToken i) := by
  rw [codeFor_eq, Option.map_eq_none_iff] at hk
  rw [entEncFrom, hk]

/-- The loop stops at a code that would pass BIT_CAP (R223). -/
theorem entEncFrom_of_overflow {k : Nat} {p : List Bool} (hk : codeFor s k = some p) (hfull : s.cfg.bitCap < pos + p.length)
    (ks : List Nat) : entEncFrom s.cfg s.code (k :: ks) i pos = .error (.capacity .bits) := by
  rw [codeFor_eq] at hk
  obtain ⟨e, he, rfl⟩ := Option.map_eq_some_iff.1 hk
  rw [CodeEntry.length_toBits] at hfull
  simp only [entEncFrom, he, if_pos hfull]

/-! ### The stage -/

/-- ENT_ENC stores the codes of tokens that all have one, within BIT_CAP (R222). -/
theorem entEncStage_eq_of_codes (htok : s.tokLen.toNat ≤ s.cfg.tokCap)
    (h : List.Forall₂ (fun k p => codeFor s k = some p) (s.mem.tokens s.tokLen.toNat) ps)
    (hfit : ps.flatten.length ≤ s.cfg.bitCap) :
    entEncStage s = .ok { s with mem := s.mem.putStream ps.flatten, bitLen := BitVec.ofNat 32 ps.flatten.length } := by
  simp only [entEncStage, if_neg (Nat.not_lt.2 htok), entEncFrom_of_codes h (pos := 0) (by omega)]

/-- ENT_ENC fails as its loop does behind the tokens that have codes (R223). -/
theorem entEncStage_of_error {ks : List Nat} {e : ErrorKind} (htok : s.tokLen.toNat ≤ s.cfg.tokCap)
    (htokens : s.mem.tokens s.tokLen.toNat = ts ++ ks) (h : List.Forall₂ (fun k p => codeFor s k = some p) ts ps)
    (hfit : ps.flatten.length ≤ s.cfg.bitCap)
    (he : entEncFrom s.cfg s.code ks ts.length ps.flatten.length = .error e) :
    entEncStage s = .failed (entEncFail s) .entEnc e := by
  have hloop := entEncFrom_append h (i := 0) (pos := 0) (by omega) ks
  rw [Nat.zero_add, Nat.zero_add, he, ← htokens] at hloop
  simp only [entEncStage, if_neg (Nat.not_lt.2 htok), hloop, Except.map]

/-- What a failing ENT_ENC reports and leaves (R223, R224). -/
theorem exec_entEnc_of_failed {e : ErrorKind} {info : Nat} (h : entEncStage s = .failed (entEncFail s) .entEnc e)
    (hinfo : e.info.toNat = info) :
    ∃ t, exec .entEnc s = .next t ∧ t.Reports e.code.toNat 0x06 info ∧ t.bitLen = 0#32
      ∧ (∀ j, t.mem.read .bits j = Config.freeWord s.draws .bits j) ∧ t.mem.tok = s.mem.tok ∧ t.code = s.code := by
  refine ⟨_, exec_of_failed (i := .entEnc) h, hinfo ▸ State.reports_failure .., rfl, fun j => ?_,
    Memory.get_redraw_ne s.mem s.draws (b := .bits) (b' := .tok) (by decide), rfl⟩
  rw [State.complete_mem, entEncFail_mem, Memory.read_redraw_self, wordMask, BitVec.and_allOnes]

end Sys2Proof.Machine

open Sys2Proof.Machine

/-- Settles O42: the loop concatenates the codes, and its stream is stored. -/
theorem entEncConcatenatesCodes : Obligations.EntEncConcatenatesCodes := by
  intro s ps hc htok hcodes hfit
  have hcap := Config.bitCap_le hc
  have hstage := entEncStage_eq_of_codes htok hcodes hfit
  refine ⟨_, exec_of_ok (i := .entEnc) hstage, State.succeeded_complete _, ?_, Memory.stream_putStream .., fun q hq hlast => ?_,
    fun j hj => Memory.read_putStream_of_le _ _ hj, Memory.get_putStream_ne _ _ (b := .tok) (by decide), rfl, rfl⟩
  · exact Nat.mod_eq_of_lt (by omega)
  · rw [State.complete_mem, Memory.streamBit_putStream _ _ hlast, List.getElem?_eq_none hq]
    rfl

/-- Settles O43: the length is checked before the loop, which stops at a token without a code or without room for it. -/
theorem entEncFirstErrorReported : Obligations.EntEncFirstErrorReported := by
  intro s
  refine ⟨fun hlen => ?_, fun ps ks ks' k _ htok htokens hcodes hfit => ⟨fun hk => ?_, fun p hk hfull => ?_⟩⟩
  · obtain ⟨t, ht, hreport, hbitLen, -⟩ := exec_entEnc_of_failed (e := .capacity .tok) (if_pos hlen) rfl
    exact ⟨t, ht, hreport, hbitLen⟩
  · have hpos : ks.length < s.tokLen.toNat := by
      have := congrArg List.length htokens
      rw [Memory.length_tokens, List.length_append, List.length_cons] at this
      omega
    exact exec_entEnc_of_failed (entEncStage_of_error htok htokens hcodes hfit (entEncFrom_of_unknown hk ks'))
      (Nat.mod_eq_of_lt (hpos.trans s.tokLen.isLt))
  · exact exec_entEnc_of_failed (entEncStage_of_error htok htokens hcodes hfit (entEncFrom_of_overflow hk hfull ks')) rfl
end

section
/-! SUPPORT. The decoding of ENT_DEC code by code, alike for the single-leaf tree and the others (42_entropy.md R230, R235). -/

namespace Sys2Proof.Machine

open Sys2Proof.Reference

variable {s : State}

/-! ### The walk along a path -/

/-- The node at the end of a path that goes on is internal. -/
theorem internal_of_walk {i x l r : Nat} {q : List Bool} (h : walk s i q = some x) (hx : s.mem.nodeAt x = .internal l r) :
    ∃ l' r', s.mem.nodeAt i = .internal l' r' := by
  cases q with
  | nil => cases h; exact ⟨l, r, hx⟩
  | cons b bs =>
    rw [walk_cons] at h
    obtain ⟨j, hj, -⟩ := Option.bind_eq_some_iff.1 h
    obtain ⟨l', r', hi, -⟩ := edge_eq_some.1 hj
    exact ⟨l', r', hi⟩

theorem childAt_heldNodes {i j : Nat} {b : Bool} (hi : i < s.nodeCount.toNat) (h : edge s i b = some j) :
    childAt s.heldNodes i b = j := by
  obtain ⟨l, r, hn, rfl⟩ := edge_eq_some.1 h
  rw [childAt, getElem?_heldNodes hi, hn]

section WellFormed
variable (hwf : TreeWellFormed s)
include hwf

/-- A bit that leads to an internal node emits nothing (R230). -/
theorem entDecWalk_of_internal {i j l r rt : Nat} {b : Bool} (hi : i < s.nodeCount.toNat) (hj : edge s i b = some j)
    (hn : s.mem.nodeAt j = .internal l r) (bs : List Bool) (p start n : Nat) :
    entDecWalk s.cfg s.heldNodes rt (b :: bs) p i start n = entDecWalk s.cfg s.heldNodes rt bs (p + 1) j start n := by
  rw [entDecWalk, childAt_heldNodes hi hj, getElem?_heldNodes (edge_lt hwf hi hj), hn]

/-- A bit that leads to a leaf emits its token, unless TOK_CAP tokens have been emitted (R230, R232). -/
theorem entDecWalk_of_leaf {i j k rt : Nat} {b : Bool} (hi : i < s.nodeCount.toNat) (hj : edge s i b = some j)
    (hn : s.mem.nodeAt j = .leaf k) (bs : List Bool) (p start n : Nat) :
    entDecWalk s.cfg s.heldNodes rt (b :: bs) p i start n
      = if s.cfg.tokCap ≤ n then .error (.capacity .tok)
        else (entDecWalk s.cfg s.heldNodes rt bs (p + 1) rt (p + 1) (n + 1)).map (k :: ·) := by
  rw [entDecWalk, childAt_heldNodes hi hj, getElem?_heldNodes (edge_lt hwf hi hj), hn]
  cases entDecWalk s.cfg s.heldNodes rt bs (p + 1) rt (p + 1) (n + 1) <;> rfl

/-- A path to an internal node emits nothing. -/
theorem entDecWalk_of_walk {i x l r rt : Nat} {q : List Bool} (hi : i < s.nodeCount.toNat) (h : walk s i q = some x)
    (hx : s.mem.nodeAt x = .internal l r) (bs : List Bool) (p start n : Nat) :
    entDecWalk s.cfg s.heldNodes rt (q ++ bs) p i start n = entDecWalk s.cfg s.heldNodes rt bs (p + q.length) x start n := by
  induction q generalizing i p with
  | nil => cases h; rfl
  | cons b q ih =>
    rw [walk_cons] at h
    obtain ⟨j, hj, hw⟩ := Option.bind_eq_some_iff.1 h
    obtain ⟨l', r', hn⟩ := internal_of_walk hw hx
    rw [List.cons_append, entDecWalk_of_internal hwf hi hj hn, ih (edge_lt hwf hi hj) hw, List.length_cons, Nat.add_assoc,
      Nat.add_comm 1]

end WellFormed

/-! ### The decoding from the root -/

/-- What the engine decodes from the bits `bs`, the first of them being bit `p` of the stream and the first of a code, when `n`
tokens have been emitted. -/
def State.entDecFrom (s : State) (bs : List Bool) (p n : Nat) : Except ErrorKind (List Nat) :=
  match s.mem.nodeAt s.root.toNat with
  | .leaf k => entDecSingle s.cfg k bs p n
  | .internal _ _ => entDecWalk s.cfg s.heldNodes s.root.toNat bs p s.root.toNat p n

theorem State.entDecFrom_leaf {k : Nat} (hroot : s.mem.nodeAt s.root.toNat = .leaf k) :
    s.entDecFrom = entDecSingle s.cfg k := by
  funext bs p n
  rw [State.entDecFrom, hroot]

theorem State.entDecFrom_internal {l r : Nat} (hroot : s.mem.nodeAt s.root.toNat = .internal l r) (bs : List Bool) (p n : Nat) :
    s.entDecFrom bs p n = entDecWalk s.cfg s.heldNodes s.root.toNat bs p s.root.toNat p n := by
  rw [State.entDecFrom, hroot]

/-- The engine's pass decodes from the first bit on. -/
theorem entDecPass_heldNodes (hwf : TreeWellFormed s) (bs : List Bool) :
    entDecPass s.cfg s.heldNodes s.root.toNat bs = s.entDecFrom bs 0 0 := by
  rw [entDecPass, getElem?_heldNodes hwf.v2, State.entDecFrom]
  cases s.mem.nodeAt s.root.toNat <;> rfl

theorem State.entDecFrom_nil (s : State) (p n : Nat) : s.entDecFrom [] p n = .ok [] := by
  unfold State.entDecFrom
  cases s.mem.nodeAt s.root.toNat with
  | leaf k => rfl
  | internal l r => exact if_pos rfl

/-- A code emits its token, unless TOK_CAP tokens have been emitted (R230, R235). -/
theorem State.entDecFrom_code (hwf : TreeWellFormed s) {k : Nat} {q : List Bool} (h : IsCode s k q) (bs : List Bool) (p n : Nat) :
    s.entDecFrom (q ++ bs) p n
      = if s.cfg.tokCap ≤ n then .error (.capacity .tok) else (s.entDecFrom bs (p + q.length) (n + 1)).map (k :: ·) := by
  have hne := isCode_ne_nil h
  unfold IsCode at h
  cases hroot : s.mem.nodeAt s.root.toNat with
  | leaf k' =>
    rw [hroot] at h
    obtain ⟨rfl, rfl⟩ := h
    rw [State.entDecFrom_leaf hroot, List.singleton_append, entDecSingle, if_neg Bool.false_ne_true, List.length_singleton]
    cases entDecSingle s.cfg k bs (p + 1) (n + 1) <;> rfl
  | internal l r =>
    rw [hroot] at h
    obtain ⟨x, hx, hleaf⟩ := h
    obtain ⟨q, b, rfl⟩ := (List.eq_nil_or_concat q).resolve_left hne
    rw [List.concat_eq_append, walk_snoc] at hx
    obtain ⟨i, hi, hedge⟩ := Option.bind_eq_some_iff.1 hx
    obtain ⟨l', r', hn, -⟩ := edge_eq_some.1 hedge
    simp only [State.entDecFrom_internal hroot, List.concat_eq_append, List.append_assoc, List.singleton_append,
      entDecWalk_of_walk hwf hwf.v2 hi hn, entDecWalk_of_leaf hwf (walk_lt hwf hwf.v2 hi) hedge hleaf,
      List.length_append, List.length_singleton, Nat.add_assoc]

/-- Codes emit their tokens, within TOK_CAP (R231). -/
theorem State.entDecFrom_codes (hwf : TreeWellFormed s) {ts : List Nat} {ps : List (List Bool)} {n : Nat}
    (h : List.Forall₂ (IsCode s) ts ps) (hroom : n + ts.length ≤ s.cfg.tokCap) (bs : List Bool) (p : Nat) :
    s.entDecFrom (ps.flatten ++ bs) p n
      = (s.entDecFrom bs (p + ps.flatten.length) (n + ts.length)).map (ts ++ ·) := by
  induction h generalizing p n with
  | nil => cases hr : s.entDecFrom bs p n <;> simp [hr, Except.map]
  | @cons k q ts ps hcode _ ih =>
    rw [List.length_cons, Nat.add_comm ts.length, ← Nat.add_assoc] at hroom ⊢
    rw [List.flatten_cons, List.append_assoc, State.entDecFrom_code hwf hcode, if_neg (by omega), ih hroom, List.length_append,
      ← Nat.add_assoc]
    cases s.entDecFrom bs (p + q.length + ps.flatten.length) (n + 1 + ts.length) <;> rfl

/-- The first code after TOK_CAP tokens is one too many (R232). -/
theorem State.entDecFrom_of_overflow (hwf : TreeWellFormed s) {ts : List Nat} {ps : List (List Bool)} {n : Nat}
    (h : List.Forall₂ (IsCode s) ts ps) (hroom : n ≤ s.cfg.tokCap) (hover : s.cfg.tokCap < n + ts.length)
    (bs : List Bool) (p : Nat) :
    s.entDecFrom (ps.flatten ++ bs) p n = .error (.capacity .tok) := by
  induction h generalizing p n with
  | nil => exact absurd hover (Nat.not_lt.2 hroom)
  | @cons k q ts ps hcode _ ih =>
    rw [List.length_cons] at hover
    rw [List.flatten_cons, List.append_assoc, State.entDecFrom_code hwf hcode]
    split
    · rfl
    · rw [ih (by omega) (by omega)]
      rfl

/-- A stream that ends at an internal node below the root is truncated (R232, R234). -/
theorem State.entDecFrom_of_truncated (hwf : TreeWellFormed s) {q : List Bool} {x l r : Nat} (hne : q ≠ [])
    (hx : walk s s.root.toNat q = some x) (hn : s.mem.nodeAt x = .internal l r) (p n : Nat) :
    s.entDecFrom q p n = .error (.truncatedStream p) := by
  obtain ⟨l', r', hroot⟩ := internal_of_walk hx hn
  have hbelow : x ≠ s.root.toNat := fun e => hne (walk_root_unique hwf hx (by rw [e]; rfl))
  have hend := entDecWalk_of_walk hwf (rt := s.root.toNat) hwf.v2 hx hn [] p p n
  rw [List.append_nil] at hend
  rw [State.entDecFrom_internal hroot, hend, entDecWalk, if_neg hbelow]

/-- A 1 bit is no code of a single-leaf tree (R235). -/
theorem State.entDecFrom_of_badCode {k : Nat} (hroot : s.mem.nodeAt s.root.toNat = .leaf k) (bs : List Bool) (p n : Nat) :
    s.entDecFrom (true :: bs) p n = .error (.badCode p) := by
  rw [State.entDecFrom_leaf hroot, entDecSingle, if_pos rfl]

end Sys2Proof.Machine
end

section
/-! PROOFS. 42_entropy.md R230 to R235: ENT_DEC. -/

namespace Sys2Proof.Machine

open Sys2Proof.Reference

variable {s : State} {ts : List Nat} {ps : List (List Bool)}

/-- The tokens that have codes are those of the leaves, below DICT_CAP ((V5) of 41_huffman.md R190). -/
theorem isCode_lt (hwf : TreeWellFormed s) {k : Nat} {p : List Bool} (h : IsCode s k p) : k < s.cfg.dictCap :=
  wellFormedTree_leaf_lt (wellFormedTree_of_wellFormed hwf) (treeCodes_mem ((mem_treeCodes hwf).2 h)).1

/-! ### The stage -/

/-- ENT_DEC of a concatenation of codes stores their tokens (R231). -/
theorem entDecStage_of_codes (hwf : TreeWellFormed s) (hbits : s.bitLen.toNat ≤ s.cfg.bitCap)
    (h : List.Forall₂ (IsCode s) ts ps) (hstream : s.mem.stream s.bitLen.toNat = ps.flatten) (htok : ts.length ≤ s.cfg.tokCap) :
    entDecStage s = .ok { s with mem := s.mem.putTokens ts, tokLen := BitVec.ofNat 32 ts.length } := by
  have hpass := State.entDecFrom_codes hwf h (n := 0) (by omega) [] 0
  rw [List.append_nil, State.entDecFrom_nil, ← hstream, ← entDecPass_heldNodes hwf] at hpass
  simp only [entDecStage, if_neg (Nat.not_lt.2 hbits), if_pos (wellFormedTree_of_wellFormed hwf), hpass, Except.map,
    List.append_nil]

/-- The tokens that ENT_DEC stores are those read (R231). -/
theorem tokens_putTokens_of_codes (hc : s.cfg.legal = true) (hwf : TreeWellFormed s) (h : List.Forall₂ (IsCode s) ts ps)
    (m : Memory) : (m.putTokens ts).tokens ts.length = ts := by
  have hdict := (Config.dictCap_range hc).2
  have hlt := ((List.forall₂_and_left ts ps).1 (h.imp fun k p hp => ⟨isCode_lt hwf hp, hp⟩)).1
  exact Memory.tokens_putTokens m ts fun k hk => (hlt k hk).trans_le (by omega)

/-- ENT_DEC fails as its decoding does. -/
theorem entDecStage_of_error {e : ErrorKind} (hwf : TreeWellFormed s) (hbits : s.bitLen.toNat ≤ s.cfg.bitCap)
    (he : s.entDecFrom (s.mem.stream s.bitLen.toNat) 0 0 = .error e) : entDecStage s = .failed (entDecFail s) .entDec e := by
  rw [← entDecPass_heldNodes hwf] at he
  simp only [entDecStage, if_neg (Nat.not_lt.2 hbits), if_pos (wellFormedTree_of_wellFormed hwf), he]

/-- What a failing ENT_DEC reports and leaves (R232, R233). -/
theorem exec_entDec_of_failed {e : ErrorKind} {info : Nat} (h : entDecStage s = .failed (entDecFail s) .entDec e)
    (hinfo : e.info.toNat = info) : ∃ t, exec .entDec s = .next t ∧ t.Reports e.code.toNat 0x07 info ∧ t.tokLen = 0#32 :=
  ⟨_, exec_of_failed (i := .entDec) h, hinfo ▸ State.reports_failure .., rfl⟩

/-! ### The first 1 bit -/

/-- A stream splits at its first 1 bit. -/
theorem Memory.stream_eq_of_first_one {m : Memory} {n p : Nat} (hp : p < n) (hzero : ∀ q, q < p → m.streamBit q = false)
    (hone : m.streamBit p = true) : ∃ bs, m.stream n = List.replicate p false ++ true :: bs := by
  have hlen : p < (m.stream n).length := by rwa [Memory.length_stream]
  refine ⟨(m.stream n).drop (p + 1), ?_⟩
  have htake : (m.stream n).take p = List.replicate p false := by
    refine List.eq_replicate_iff.2 ⟨by rw [List.length_take]; omega, fun b hb => ?_⟩
    rw [Memory.stream, ← List.map_take, List.take_range, Nat.min_eq_left hp.le] at hb
    obtain ⟨q, hq, rfl⟩ := List.mem_map.1 hb
    exact hzero q (List.mem_range.1 hq)
  have hbit : (m.stream n)[p] = true := by simpa [Memory.stream] using hone
  rw [← htake, ← hbit, ← List.drop_eq_getElem_cons hlen, List.take_append_drop]

theorem forall₂_replicate {α β : Type} {R : α → β → Prop} {a : α} {b : β} (h : R a b) (n : Nat) :
    List.Forall₂ R (List.replicate n a) (List.replicate n b) := by
  induction n with
  | zero => exact .nil
  | succ n ih => exact .cons h ih

/-- 0 bits are codes of a single-leaf tree (41_huffman.md R198), so the first 1 bit is where its decoding fails (R235). -/
theorem State.entDecFrom_of_first_one (hwf : TreeWellFormed s) {k p n : Nat} (hroot : s.mem.nodeAt s.root.toNat = .leaf k)
    (hp : p < n) (hcap : p ≤ s.cfg.tokCap) (hzero : ∀ q, q < p → s.mem.streamBit q = false)
    (hone : s.mem.streamBit p = true) : s.entDecFrom (s.mem.stream n) 0 0 = .error (.badCode p) := by
  have hcode : IsCode s k [false] := by
    rw [IsCode, hroot]
    exact ⟨rfl, rfl⟩
  have hcodes := forall₂_replicate hcode p
  obtain ⟨bs, hbs⟩ := Memory.stream_eq_of_first_one hp hzero hone
  have hdec := State.entDecFrom_codes hwf hcodes (n := 0) (by rwa [Nat.zero_add, List.length_replicate]) (true :: bs) 0
  rw [List.flatten_replicate_singleton, ← hbs, State.entDecFrom_of_badCode hroot] at hdec
  rw [hdec, List.length_replicate, Nat.zero_add]
  rfl

end Sys2Proof.Machine

open Sys2Proof.Machine Sys2Proof.Reference

/-- Settles O44: each code emits its token, and the tokens are stored. -/
theorem entDecDecodesConcatenatedCodes : Obligations.EntDecDecodesConcatenatedCodes := by
  intro s ts ps hc hwf hbits hcodes hstream htok
  have hcap := (Config.tokCap_range hc).2
  have hexec := exec_of_ok (i := .entDec) (entDecStage_of_codes hwf hbits hcodes hstream htok)
  refine ⟨_, hexec, State.succeeded_complete _, ?_, tokens_putTokens_of_codes hc hwf hcodes _,
    fun i hi => Memory.read_putTokens_of_le _ _ hi, exec_frame hexec .bits (by decide), rfl, exec_frame hexec .node (by decide),
    rfl, rfl⟩
  exact Nat.mod_eq_of_lt (by omega)

/-- Settles O45: the length is checked first and then the tree, and the decoding stops behind the codes that come before. -/
theorem entDecErrors : Obligations.EntDecErrors := by
  intro s _
  refine ⟨fun hlen => exec_entDec_of_failed (e := .capacity .bits) (if_pos hlen) rfl, fun hbits hbad => ?_, fun hbits hwf =>
    ⟨fun k p hroot hp hcap hzero hone => ?_, fun ts ps q hcodes hstream => ⟨fun htok hne hend => ?_, fun hover => ?_⟩⟩⟩
  · refine exec_entDec_of_failed (e := .badTree) ?_ rfl
    rw [entDecStage, if_neg (Nat.not_lt.2 hbits), if_neg fun h => hbad (wellFormedTree_iff.1 h)]
  · exact exec_entDec_of_failed
      (entDecStage_of_error hwf hbits (State.entDecFrom_of_first_one hwf hroot hp hcap hzero hone))
      (Nat.mod_eq_of_lt (hp.trans s.bitLen.isLt))
  · obtain ⟨x, l, r, hx, hn⟩ := hend
    have hdec := State.entDecFrom_codes hwf hcodes (n := 0) (by omega) q 0
    rw [State.entDecFrom_of_truncated hwf hne hx hn, Nat.zero_add, ← hstream] at hdec
    have hstart : ps.flatten.length ≤ s.bitLen.toNat := by
      have := congrArg List.length hstream
      rw [Memory.length_stream, List.length_append] at this
      omega
    exact exec_entDec_of_failed (entDecStage_of_error hwf hbits hdec) (Nat.mod_eq_of_lt (hstart.trans_lt s.bitLen.isLt))
  · have hdec := State.entDecFrom_of_overflow hwf hcodes (Nat.zero_le s.cfg.tokCap) (by omega) q 0
    rw [← hstream] at hdec
    exact exec_entDec_of_failed (entDecStage_of_error hwf hbits hdec) rfl
end

section
/-! PROOFS. 42_entropy.md R238: ENT_DEC after ENT_ENC. -/

namespace Sys2Proof.Machine

open Sys2Proof.Reference

variable {s t : State}

/-- A stream that the loop of ENT_ENC gives is the concatenation of the codes of its tokens (R221). -/
theorem codes_of_entEncFrom {ts : List Nat} {i pos : Nat} {bs : List Bool} (h : entEncFrom s.cfg s.code ts i pos = .ok bs) :
    ∃ ps, List.Forall₂ (fun k p => codeFor s k = some p) ts ps ∧ bs = ps.flatten := by
  induction ts generalizing i pos bs with
  | nil => cases h; exact ⟨[], .nil, rfl⟩
  | cons k ts ih =>
    rw [entEncFrom] at h
    split at h
    · cases h
    · next e he =>
      split at h
      · cases h
      · split at h
        · cases h
        · next hr =>
          cases h
          obtain ⟨ps, hps, rfl⟩ := ih hr
          exact ⟨e.toBits :: ps, .cons (by rw [codeFor_eq, he]; rfl) hps, rfl⟩

/-- A HUFF_CODES that reports success has found a well-formed tree (41_huffman.md R196). -/
theorem wellFormed_of_huffCodes_succeeded (h : exec .huffCodes s = .next t) (ht : t.Succeeded) : TreeWellFormed s := by
  obtain ⟨u, hout, -⟩ := commandOutcome_of_succeeded h ht
  rcases huffCodesStage_cases s with ⟨hwf, -⟩ | ⟨hwf, -⟩ | ⟨-, hfailed⟩
  · exact wellFormedTree_iff.1 hwf
  · exact wellFormedTree_iff.1 hwf
  · cases hout.symm.trans hfailed

/-- A code of a token is that of its entry in the table (R221). -/
theorem codeEntry?_of_codeFor {k : Nat} {p : List Bool} (h : codeFor s k = some p) :
    ∃ e, codeEntry? s.code k = some e ∧ e.toBits = p := by
  unfold codeFor at h
  split at h
  · exact Option.map_eq_some_iff.1 h
  · cases h

theorem exec_cfg {i : Instr} (h : exec i s = .next t) : t.cfg = s.cfg := by
  rw [exec_eq] at h
  cases h
  exact commandOutcome_finish_cfg i s

/-- What an ENT_ENC that reports success has stored is a concatenation of codes within BIT_CAP (R222). -/
theorem stored_of_entEnc_succeeded (hc : s.cfg.legal = true) (h : exec .entEnc s = .next t) (ht : t.Succeeded) :
    s.tokLen.toNat ≤ s.cfg.tokCap ∧ ∃ ps, List.Forall₂ (fun k p => codeFor s k = some p) (s.mem.tokens s.tokLen.toNat) ps
      ∧ t.bitLen.toNat ≤ s.cfg.bitCap ∧ t.mem.stream t.bitLen.toNat = ps.flatten := by
  have hcap := Config.bitCap_le hc
  obtain ⟨u, hout, rfl⟩ := commandOutcome_of_succeeded h ht
  rcases entEncStage_cases s with ⟨bs, htok, hloop, hstage⟩ | ⟨e, hfailed, -⟩
  · cases hout.symm.trans hstage
    have hfit := entEncFrom_length (Nat.zero_le _) hloop
    obtain ⟨ps, hps, rfl⟩ := codes_of_entEncFrom hloop
    have hbitLen : (BitVec.ofNat 32 ps.flatten.length).toNat = ps.flatten.length := Nat.mod_eq_of_lt (by omega)
    refine ⟨htok, ps, hps, ?_⟩
    rw [State.complete_bitLen, hbitLen]
    exact ⟨by omega, Memory.stream_putStream ..⟩
  · cases hout.symm.trans hfailed

/-- ENT_DEC restores the tokens that ENT_ENC has encoded with codes of the held tree. -/
theorem entDec_of_encoded (hc : s.cfg.legal = true) (hwf : TreeWellFormed s)
    (hcode : ∀ k e, codeEntry? s.code k = some e → IsCode s k e.toBits) (h : exec .entEnc s = .next t) (ht : t.Succeeded) :
    ∃ u, exec .entDec t = .next u ∧ u.Succeeded ∧ u.tokLen = s.tokLen
      ∧ u.mem.tokens s.tokLen.toNat = s.mem.tokens s.tokLen.toNat := by
  obtain ⟨htok, ps, hps, hfit, hstream⟩ := stored_of_entEnc_succeeded hc h ht
  have hcfg := exec_cfg h
  have hsame : SameTree s t :=
    .of_node (exec_frame h .node (by decide)) (exec_frame h .nodeCount (by decide)) (exec_frame h .root (by decide))
  have hwf' := hsame.wellFormed hcfg hwf
  have hps' : List.Forall₂ (IsCode t) (s.mem.tokens s.tokLen.toNat) ps := hps.imp fun k p hp => by
    obtain ⟨e, he, rfl⟩ := codeEntry?_of_codeFor hp
    exact hsame.isCode.2 (hcode k e he)
  have hlen := s.mem.length_tokens s.tokLen.toNat
  have hstage := entDecStage_of_codes hwf' (hcfg ▸ hfit) hps' hstream (by rwa [hlen, hcfg])
  have hread := tokens_putTokens_of_codes (hcfg ▸ hc) hwf' hps' t.mem
  rw [hlen] at hstage hread
  exact ⟨_, exec_of_ok (i := .entDec) hstage, State.succeeded_complete _, by simp, hread⟩

end Sys2Proof.Machine

open Sys2Proof.Machine Sys2Proof.Reference

/-- Settles O46: the stream is a concatenation of codes of the held tree, and ENT_ENC leaves that tree alone. -/
theorem entropyRoundTrip : Obligations.EntropyRoundTrip := by
  intro s c s1 s2 hc hcodes hok hcfg hnode hcount hroot hcode henc hencOk
  obtain ⟨hnodeC, hcountC, hrootC⟩ := huffCodes_keeps_tree hcodes
  have hsame : SameTree s s1 := .of_node (hnode.trans hnodeC) (hcount.trans hcountC) (hroot.trans hrootC)
  have hcfg1 : s1.cfg = s.cfg := hcfg.trans (exec_cfg hcodes)
  have hwf := hsame.wellFormed hcfg1 (wellFormed_of_huffCodes_succeeded hcodes hok)
  exact entDec_of_encoded (hcfg1 ▸ hc) hwf
    (fun k e he => hsame.isCode.2 (codes_of_succeeded hc hcodes hok k e (hcode ▸ he))) henc hencOk
end

section
/-! PROOFS. 43_control.md R267: DECOMPRESS of a stream of codes. -/

open Sys2Proof.Machine Sys2Proof.Reference

/-- Settles O51: ENT_DEC stores the tokens, and LZW_DEC decodes them. -/
theorem decompressDecodesStream : Obligations.DecompressDecodesStream := by
  intro s ts ps out d hc hwf hbits hcodes hstream htok hdecode hsym hdict
  have htokRange := (Config.tokCap_range hc).2
  have hsymRange := (Config.symCap_range hc).2
  have hdictRange := (Config.dictCap_range hc).1
  have hstrings := lzwDecode_length_strings hdecode
  have hroom : 256 + d.length ≤ s.cfg.dictCap := by omega
  have hread := tokens_putTokens_of_codes hc hwf hcodes s.mem
  have htokLen : (BitVec.ofNat 32 ts.length).toNat = ts.length := Nat.mod_eq_of_lt (by omega)
  have hent := entDecStage_of_codes hwf hbits hcodes hstream htok
  obtain ⟨dict, hd, -, hlzw⟩ := lzwDecStage_of_fits
    (s := { s with mem := s.mem.putTokens ts, tokLen := BitVec.ofNat 32 ts.length }) hc (by rwa [htokLen])
    (by rwa [htokLen, hread]) hsym hroom
  have hstages : commandOutcome .decompress s = .ok { s with
      mem := (s.mem.putTokens ts).putSymbols out, tokLen := BitVec.ofNat 32 ts.length,
      symLen := BitVec.ofNat 32 out.length, dict := dict } := by
    simp only [commandOutcome, decompressStages, hent, StageOutcome.andThen, hlzw, StageOutcome.onFailure]
  refine ⟨_, exec_of_ok hstages, State.succeeded_complete _, ?_, Memory.symbols_putSymbols .., htokLen, ?_, hd⟩
  · exact Nat.mod_eq_of_lt (by omega)
  · rw [State.complete_mem, Memory.tokens_congr (Memory.get_putSymbols_ne _ _ (b := .tok) (by decide)), hread]
end

section
/-! SUPPORT. The errors that the passes of the stages can meet (60_exceptions.md R300). -/

namespace Sys2Proof.Machine

variable {c : Config} {e : ErrorKind}

/-! ### The passes -/

theorem succ_add_length {α : Type} (n : Nat) (a : α) (l : List α) : n + 1 + l.length = n + (a :: l).length := by
  rw [List.length_cons]
  omega

theorem dictInsert_error {cap p : Nat} {d : List DictEntry} {x : Byte} (h : dictInsert cap d p x = .error e) :
    e = .capacity .dict := by
  unfold dictInsert at h
  split at h <;> cases h
  rfl

theorem lzwEncFrom_error {xs : List Byte} {w n : Nat} {d : List DictEntry} (h : lzwEncFrom c xs w n d = .error e) :
    e = .capacity .tok ∨ e = .capacity .dict := by
  induction xs generalizing w n d with
  | nil =>
    rw [lzwEncFrom] at h
    split at h <;> cases h
    exact .inl rfl
  | cons x xs ih =>
    rw [lzwEncFrom] at h
    split at h
    · exact ih h
    · split at h
      · cases h
        exact .inl rfl
      · split at h
        · next hinsert =>
          cases h
          exact .inr (dictInsert_error hinsert)
        · split at h
          · next hrest =>
            cases h
            exact ih hrest
          · cases h

/-- An error of the encoder's pass, whatever the configuration. -/
theorem lzwEncPass_error_kind {xs : List Byte} (h : lzwEncPass c xs = .error e) : e = .capacity .tok ∨ e = .capacity .dict := by
  cases xs with
  | nil => cases h
  | cons x xs => exact lzwEncFrom_error h

/-- An invalid token is one of the tokens still to be decoded. -/
theorem lzwDecFrom_error_kind {ks : List Nat} {i prev n : Nat} {d : List DictEntry} (h : lzwDecFrom c ks i prev n d = .error e) :
    (∃ j < i + ks.length, e = .invalidToken j) ∨ e = .capacity .sym ∨ e = .capacity .dict := by
  induction ks generalizing i prev n d with
  | nil => cases h
  | cons k ks ih =>
    rw [lzwDecFrom] at h
    split at h
    · cases h
      exact .inl ⟨i, by simp, rfl⟩
    · split at h
      · cases h
        exact .inr (.inl rfl)
      · split at h
        · next hinsert =>
          cases h
          exact .inr (.inr (dictInsert_error hinsert))
        · split at h
          · next hrest =>
            cases h
            exact succ_add_length i k ks ▸ ih hrest
          · cases h

theorem lzwDecPass_error_kind {ks : List Nat} (h : lzwDecPass c ks = .error e) :
    (∃ j < ks.length, e = .invalidToken j) ∨ e = .capacity .sym ∨ e = .capacity .dict := by
  cases ks with
  | nil => cases h
  | cons k ks =>
    rw [lzwDecPass] at h
    split at h
    · cases h
      exact .inl ⟨0, by simp, rfl⟩
    · split at h
      · cases h
        exact .inr (.inl rfl)
      · split at h
        · next hrest =>
          cases h
          rw [List.length_cons, Nat.add_comm]
          exact lzwDecFrom_error_kind hrest
        · cases h

theorem huffMerges_error {merges next : Nat} {q : List MergeItem} (h : huffMerges merges next q = .error e) :
    ∃ node, e = .weightOverflow node := by
  induction merges generalizing next q with
  | zero => cases h
  | succ merges ih =>
    rw [huffMerges] at h
    split at h
    · cases h
    · split at h
      · cases h
      · split at h
        · cases h
          exact ⟨next, rfl⟩
        · split at h
          · next hrest =>
            cases h
            exact ih hrest
          · cases h

theorem huffTree_error {leaves : List (Node × Nat)} (h : huffTree leaves = .error e) :
    e = .emptyAlphabet ∨ ∃ node, e = .weightOverflow node := by
  cases leaves with
  | nil =>
    cases h
    exact .inl rfl
  | cons p ps =>
    rw [huffTree] at h
    split at h
    · next hmerges =>
      cases h
      exact .inr (huffMerges_error hmerges)
    · cases h

/-- An unknown token is one of the tokens still to be encoded. -/
theorem entEncFrom_error {code : List (Nat × CodeEntry)} {ts : List Nat} {i pos : Nat}
    (h : entEncFrom c code ts i pos = .error e) : (∃ j < i + ts.length, e = .unknownToken j) ∨ e = .capacity .bits := by
  induction ts generalizing i pos with
  | nil => cases h
  | cons t ts ih =>
    rw [entEncFrom] at h
    split at h
    · cases h
      exact .inl ⟨i, by simp, rfl⟩
    · split at h
      · cases h
        exact .inr rfl
      · split at h
        · next hrest =>
          cases h
          exact succ_add_length i t ts ▸ ih hrest
        · cases h

/-- A bad code is at one of the bits still to be decoded. -/
theorem entDecSingle_error {t : Nat} {bs : List Bool} {p n : Nat} (h : entDecSingle c t bs p n = .error e) :
    (∃ j < p + bs.length, e = .badCode j) ∨ e = .capacity .tok := by
  induction bs generalizing p n with
  | nil => cases h
  | cons b bs ih =>
    rw [entDecSingle] at h
    split at h
    · cases h
      exact .inl ⟨p, by simp, rfl⟩
    · split at h
      · cases h
        exact .inr rfl
      · split at h
        · next hrest =>
          cases h
          exact succ_add_length p b bs ▸ ih hrest
        · cases h

/-- A code that the stream cuts short began before the end of the stream, as it has at least one bit. -/
theorem entDecWalk_error {nds : List Node} {rt : Nat} {bs : List Bool} {p cur start n : Nat} (hstart : start ≤ p)
    (hcur : cur = rt ∨ start < p) (h : entDecWalk c nds rt bs p cur start n = .error e) :
    (∃ j < p + bs.length, e = .truncatedStream j) ∨ e = .capacity .tok := by
  induction bs generalizing p cur start n with
  | nil =>
    rw [entDecWalk] at h
    split at h
    · cases h
    · next hne =>
      cases h
      exact .inl ⟨start, hcur.resolve_left hne, rfl⟩
  | cons b bs ih =>
    rw [entDecWalk] at h
    rw [← succ_add_length]
    split at h
    · split at h
      · cases h
        exact .inr rfl
      · split at h
        · next hrest =>
          cases h
          exact ih (Nat.le_refl _) (.inl rfl) hrest
        · cases h
    · exact ih (by omega) (.inr (by omega)) h
    · exact ih (by omega) (.inr (by omega)) h

theorem entDecPass_error {nds : List Node} {rt : Nat} {bs : List Bool} (h : entDecPass c nds rt bs = .error e) :
    (∃ j < bs.length, e = .badCode j ∨ e = .truncatedStream j) ∨ e = .capacity .tok := by
  have hwalk : entDecWalk c nds rt bs 0 rt 0 0 = .error e → (∃ j < bs.length, e = .truncatedStream j) ∨ e = .capacity .tok :=
    fun h => by simpa using entDecWalk_error (Nat.le_refl 0) (.inl rfl) h
  unfold entDecPass at h
  split at h
  · exact (entDecSingle_error h).imp_left fun ⟨j, hj, he⟩ => ⟨j, by simpa using hj, .inl he⟩
  · exact (hwalk h).imp_left fun ⟨j, hj, he⟩ => ⟨j, hj, .inr he⟩
  · exact (hwalk h).imp_left fun ⟨j, hj, he⟩ => ⟨j, hj, .inr he⟩

/-! ### The stages -/

section Stages
variable {s u : State} {i st : Instr}

theorem lzwEncStage_error (h : lzwEncStage s = .failed u st e) :
    st = .lzwEnc ∧ (e = .capacity .sym ∨ e = .capacity .tok ∨ e = .capacity .dict) := by
  rcases lzwEncStage_cases s with ⟨_, _, _, _, hok⟩ | ⟨e', hfailed, ⟨-, rfl⟩ | ⟨-, hpass⟩⟩
  · cases h.symm.trans hok
  · cases h.symm.trans hfailed
    exact ⟨rfl, .inl rfl⟩
  · cases h.symm.trans hfailed
    exact ⟨rfl, .inr (lzwEncPass_error_kind hpass)⟩

theorem lzwDecStage_error (h : lzwDecStage s = .failed u st e) :
    st = .lzwDec ∧ ((∃ j < s.tokLen.toNat, e = .invalidToken j)
      ∨ e = .capacity .tok ∨ e = .capacity .sym ∨ e = .capacity .dict) := by
  rcases lzwDecStage_cases s with ⟨_, _, _, _, hok⟩ | ⟨e', hfailed, ⟨-, rfl⟩ | ⟨-, hpass⟩⟩
  · cases h.symm.trans hok
  · cases h.symm.trans hfailed
    exact ⟨rfl, .inr (.inl rfl)⟩
  · cases h.symm.trans hfailed
    have hkind := lzwDecPass_error_kind hpass
    rw [Memory.length_tokens] at hkind
    exact ⟨rfl, hkind.imp_right .inr⟩

theorem freqCountStage_error (h : freqCountStage s = .failed u st e) :
    st = .freqCount ∧ (e = .capacity .tok ∨ e = .capacity .freq) := by
  rcases freqCountStage_cases s with ⟨_, _, _, hok⟩ | ⟨e', hfailed, ⟨-, rfl⟩ | ⟨-, hloop⟩⟩
  · cases h.symm.trans hok
  · cases h.symm.trans hfailed
    exact ⟨rfl, .inl rfl⟩
  · cases h.symm.trans hfailed
    rw [freqCountFrom_eq] at hloop
    split at hloop <;> cases hloop
    exact ⟨rfl, .inr rfl⟩

theorem huffBuildStage_error (h : huffBuildStage s = .failed u st e) :
    st = .huffBuild ∧ (e = .emptyAlphabet ∨ ∃ node, e = .weightOverflow node) := by
  rcases huffBuildStage_cases s with ⟨_, _, hok⟩ | ⟨e', htree, hfailed⟩
  · cases h.symm.trans hok
  · cases h.symm.trans hfailed
    exact ⟨rfl, huffTree_error htree⟩

theorem huffCodesStage_error (h : huffCodesStage s = .failed u st e) :
    st = .huffCodes ∧ (e = .capacity .codeLen ∨ e = .badTree) := by
  rcases huffCodesStage_cases s with ⟨_, _, hok⟩ | ⟨_, _, hfailed⟩ | ⟨_, hfailed⟩
  · cases h.symm.trans hok
  · cases h.symm.trans hfailed
    exact ⟨rfl, .inl rfl⟩
  · cases h.symm.trans hfailed
    exact ⟨rfl, .inr rfl⟩

theorem entEncStage_error (h : entEncStage s = .failed u st e) :
    st = .entEnc ∧ ((∃ j < s.tokLen.toNat, e = .unknownToken j) ∨ e = .capacity .tok ∨ e = .capacity .bits) := by
  rcases entEncStage_cases s with ⟨_, _, _, hok⟩ | ⟨e', hfailed, ⟨-, rfl⟩ | ⟨-, hloop⟩⟩
  · cases h.symm.trans hok
  · cases h.symm.trans hfailed
    exact ⟨rfl, .inr (.inl rfl)⟩
  · cases h.symm.trans hfailed
    have hkind := entEncFrom_error hloop
    rw [Memory.length_tokens, Nat.zero_add] at hkind
    exact ⟨rfl, hkind.imp_right .inr⟩

theorem entDecStage_error (h : entDecStage s = .failed u st e) :
    st = .entDec ∧ ((∃ j < s.bitLen.toNat, e = .badCode j ∨ e = .truncatedStream j)
      ∨ e = .capacity .bits ∨ e = .capacity .tok ∨ e = .badTree) := by
  rcases entDecStage_cases s with ⟨_, _, _, _, hok⟩ | ⟨e', hfailed, ⟨-, rfl⟩ | ⟨-, -, rfl⟩ | ⟨-, -, hpass⟩⟩
  · cases h.symm.trans hok
  · cases h.symm.trans hfailed
    exact ⟨rfl, .inr (.inl rfl)⟩
  · cases h.symm.trans hfailed
    exact ⟨rfl, .inr (.inr (.inr rfl))⟩
  · cases h.symm.trans hfailed
    have hkind := entDecPass_error hpass
    rw [Memory.length_stream] at hkind
    exact ⟨rfl, hkind.imp_right fun he => .inr (.inl he)⟩

/-- A failing stage reports itself, and any error but ILLEGAL_COMMAND (60_exceptions.md R300, R303). -/
theorem stage_error (hi : i ∈ stageCommands) (h : commandOutcome i s = .failed u st e) : st = i ∧ e.code.toNat ≤ 8 := by
  cases i with
  | lzwEnc =>
    obtain ⟨hst, rfl | rfl | rfl⟩ := lzwEncStage_error h <;> exact ⟨hst, by decide⟩
  | lzwDec =>
    obtain ⟨hst, ⟨j, -, rfl⟩ | rfl | rfl | rfl⟩ := lzwDecStage_error h <;> exact ⟨hst, by simp [ErrorKind.code]⟩
  | freqCount =>
    obtain ⟨hst, rfl | rfl⟩ := freqCountStage_error h <;> exact ⟨hst, by decide⟩
  | huffBuild =>
    obtain ⟨hst, rfl | ⟨node, rfl⟩⟩ := huffBuildStage_error h <;> exact ⟨hst, by simp [ErrorKind.code]⟩
  | huffCodes =>
    obtain ⟨hst, rfl | rfl⟩ := huffCodesStage_error h <;> exact ⟨hst, by decide⟩
  | entEnc =>
    obtain ⟨hst, ⟨j, -, rfl⟩ | rfl | rfl⟩ := entEncStage_error h <;> exact ⟨hst, by simp [ErrorKind.code]⟩
  | entDec =>
    obtain ⟨hst, ⟨j, -, rfl | rfl⟩ | rfl | rfl | rfl⟩ := entDecStage_error h <;> exact ⟨hst, by simp [ErrorKind.code]⟩
  | compress | decompress | clear => exact absurd hi (by decide)

end Stages

end Sys2Proof.Machine
end

section
/-! SUPPORT. The composite commands as their stages run one after the other (43_control.md R265 to R267). -/

namespace Sys2Proof.Machine

open Sys2Proof.Reference

variable {o : StageOutcome} {i st : Instr} {is : List Instr} {s t u : State} {e : ErrorKind}

/-! ### A sequence of stages -/

/-- The outcome of running stages from where an outcome ends, without a completion in between. -/
def runStages (is : List Instr) (o : StageOutcome) : StageOutcome := is.foldl (fun o i => o.andThen (commandOutcome i)) o

theorem runStages_cons_ok (i : Instr) (is : List Instr) (s : State) :
    runStages (i :: is) (.ok s) = runStages is (commandOutcome i s) := rfl

@[simp] theorem runStages_failed (is : List Instr) (t : State) (st : Instr) (e : ErrorKind) :
    runStages is (.failed t st e) = .failed t st e := by
  induction is with
  | nil => rfl
  | cons i is ih => exact ih

/-- COMPRESS is its stages in order, with BIT_LEN cleared on failure (R266). -/
theorem compressStages_eq (s : State) :
    compressStages s = (runStages (failingStages .compress) (.ok s)).onFailure fun t => { t with bitLen := 0#32 } := rfl

/-- DECOMPRESS is its stages in order, with SYM_LEN cleared on failure (R267). -/
theorem decompressStages_eq (s : State) :
    decompressStages s = (runStages (failingStages .decompress) (.ok s)).onFailure fun t => { t with symLen := 0#32 } := rfl

/-- A sequence of stages that succeeds has gone on from the success of its first stage. -/
theorem runStages_cons_eq_ok (h : runStages (i :: is) (.ok s) = .ok t) :
    ∃ u, commandOutcome i s = .ok u ∧ runStages is (.ok u) = .ok t := by
  rw [runStages_cons_ok] at h
  cases ho : commandOutcome i s with
  | ok u => exact ⟨u, rfl, by rwa [ho] at h⟩
  | failed u st e =>
    rw [ho, runStages_failed] at h
    cases h

/-- A sequence of stages that fails has failed in one of them. -/
theorem exists_failed_of_runStages (h : runStages is (.ok s) = .failed u st e) :
    ∃ i ∈ is, ∃ t, commandOutcome i t = .failed u st e := by
  induction is generalizing s with
  | nil => cases h
  | cons i is ih =>
    rw [runStages_cons_ok] at h
    cases ho : commandOutcome i s with
    | ok t =>
      rw [ho] at h
      obtain ⟨j, hj, hfailed⟩ := ih h
      exact ⟨j, List.mem_cons_of_mem _ hj, hfailed⟩
    | failed t st' e' =>
      rw [ho, runStages_failed] at h
      exact ⟨i, List.mem_cons_self, s, ho.trans h⟩

theorem onFailure_eq_ok {f : State → State} (h : o.onFailure f = .ok t) : o = .ok t := by
  cases o with
  | ok u => exact h
  | failed u st e => cases h

theorem onFailure_eq_failed {f : State → State} (h : o.onFailure f = .failed u st e) : ∃ u', o = .failed u' st e := by
  cases o with
  | ok t => cases h
  | failed t st' e' => cases h; exact ⟨t, rfl⟩

/-- A composite command that fails has failed in one of its stages, which it reports (R265; 60_exceptions.md R303). -/
theorem failed_of_runStages {f : State → State} (his : ∀ j ∈ is, j ∈ stageCommands)
    (h : (runStages is (.ok s)).onFailure f = .failed u st e) : st ∈ is ∧ ∃ t u', commandOutcome st t = .failed u' st e := by
  obtain ⟨u', hrun⟩ := onFailure_eq_failed h
  obtain ⟨j, hj, t, hfailed⟩ := exists_failed_of_runStages hrun
  obtain ⟨rfl, -⟩ := stage_error (his j hj) hfailed
  exact ⟨hj, t, u', hfailed⟩

theorem failingStages_subset (i : Instr) : ∀ j ∈ failingStages i, j ∈ stageCommands := by cases i <;> decide

/-- A command that fails has failed in one of its stages, which it reports (60_exceptions.md R303). -/
theorem commandOutcome_failed (h : commandOutcome i s = .failed u st e) :
    st ∈ failingStages i ∧ ∃ t u', commandOutcome st t = .failed u' st e := by
  cases i with
  | compress => exact failed_of_runStages (failingStages_subset .compress) h
  | decompress => exact failed_of_runStages (failingStages_subset .decompress) h
  | clear => cases h
  | lzwEnc | lzwDec | freqCount | huffBuild | huffCodes | entEnc | entDec =>
    obtain ⟨rfl, -⟩ := stage_error (by decide) h
    exact ⟨List.mem_singleton_self _, s, u, h⟩

/-- No command reports ILLEGAL_COMMAND (60_exceptions.md R300). -/
theorem commandOutcome_failed_code (h : commandOutcome i s = .failed u st e) : e.code.toNat ≤ 8 := by
  obtain ⟨hst, t, u', hfailed⟩ := commandOutcome_failed h
  exact (stage_error (failingStages_subset i st hst) hfailed).2

/-! ### Completion between the stages -/

/-- The outcome with its state changed. -/
def StageOutcome.mapState (f : State → State) : StageOutcome → StageOutcome
  | .ok t => .ok (f t)
  | .failed t st e => .failed (f t) st e

theorem finish_mapState_complete (o : StageOutcome) (r : Report) : (o.mapState (·.complete r)).finish = o.finish := by
  cases o <;> rfl

theorem StageForm.outcome_complete (form : StageForm i) (r : Report)
    (hstore : ∀ a s, form.store a (s.complete r) = (form.store a s).complete r)
    (hfail : ∀ s, form.fail (s.complete r) = (form.fail s).complete r) (s : State) :
    commandOutcome i (s.complete r) = (commandOutcome i s).mapState (·.complete r) := by
  have hreads : AgreeOn (commandReads i) s (s.complete r) := ⟨rfl, fun c _ => c.agree_complete s r⟩
  rw [form.outcome, form.outcome, form.compute_reads hreads]
  cases form.compute s with
  | ok a => exact congrArg StageOutcome.ok (hstore a s)
  | error e => exact congrArg (StageOutcome.failed · i e) (hfail s)

/-- A stage does not look at the report of the command before it, nor change it (R264, R265). -/
theorem stage_complete (hi : i ∈ stageCommands) (s : State) (r : Report) :
    commandOutcome i (s.complete r) = (commandOutcome i s).mapState (·.complete r) := by
  cases i with
  | lzwEnc => exact lzwEncForm.outcome_complete r (fun _ _ => rfl) (fun _ => rfl) s
  | lzwDec => exact lzwDecForm.outcome_complete r (fun _ _ => rfl) (fun _ => rfl) s
  | freqCount => exact freqCountForm.outcome_complete r (fun _ _ => rfl) (fun _ => rfl) s
  | huffBuild => exact huffBuildForm.outcome_complete r (fun _ _ => rfl) (fun _ => rfl) s
  | huffCodes => exact huffCodesForm.outcome_complete r (fun _ _ => rfl) (fun _ => rfl) s
  | entEnc => exact entEncForm.outcome_complete r (fun _ _ => rfl) (fun _ => rfl) s
  | entDec => exact entDecForm.outcome_complete r (fun _ _ => rfl) (fun _ => rfl) s
  | compress | decompress | clear => exact absurd hi (by decide)

theorem finish_stage_complete (hi : i ∈ stageCommands) (s : State) (r : Report) :
    (commandOutcome i (s.complete r)).finish = (commandOutcome i s).finish := by
  rw [stage_complete hi, finish_mapState_complete]

theorem State.errCode_complete_failure (t : State) (stage : Byte) (e : ErrorKind) :
    (t.complete (Report.failure stage e)).errCode ≠ 0#8 := e.code_range.1

/-- Stages run as commands, each completed before the next begins, end like the stages run without these completions. -/
theorem runInOrder_eq_finish (h : ∀ j ∈ i :: is, j ∈ stageCommands) (s : State) :
    runInOrder (i :: is) s = (runStages (i :: is) (.ok s)).finish := by
  induction is generalizing i s with
  | nil =>
    rw [runInOrder_cons, runInOrder, ite_self]
    rfl
  | cons j is ih =>
    rw [runInOrder_cons, runStages_cons_ok]
    cases commandOutcome i s with
    | ok t =>
      have hj : j ∈ stageCommands := h j (by simp)
      rw [finish_ok, if_pos (by rfl), ← ih fun k hk => h k (List.mem_cons_of_mem _ hk), runInOrder_cons, runInOrder_cons,
        finish_stage_complete hj]
    | failed t st e => rw [finish_failed, if_neg (t.errCode_complete_failure _ _), runStages_failed, finish_failed]

/-- What a composite command does on failure can be done after completion, when it leaves the report alone. -/
theorem finish_onFailure {f : State → State} (hf : ∀ t r, (f t).complete r = f (t.complete r)) (o : StageOutcome) :
    (o.onFailure f).finish = if o.finish.errCode = 0#8 then o.finish else f o.finish := by
  cases o with
  | ok t => rfl
  | failed t st e =>
    rw [finish_failed, if_neg (t.errCode_complete_failure _ _)]
    exact hf t _

end Sys2Proof.Machine
end

section
/-! PROOFS. 43_control.md R262 to R267: every command completes, and the composite commands run their stages in order. -/

open Sys2Proof.Machine Sys2Proof.Reference

/-- Settles O16: a command ends with the report of a success or of an error of one of its stages. -/
theorem everyCommandCompletes : Obligations.EveryCommandCompletes := by
  intro i s
  cases ho : commandOutcome i s with
  | ok t => exact ⟨_, exec_of_ok ho, rfl, rfl, rfl, Nat.zero_le _, fun _ => ⟨rfl, rfl⟩⟩
  | failed t st e =>
    exact ⟨_, exec_of_failed ho, rfl, rfl, decide_not.symm, commandOutcome_failed_code ho, fun h => absurd h e.code_range.1⟩

/-- Settles O47: the completions between the stages leave no trace, and clearing BIT_LEN leaves the report alone. -/
theorem compressRunsStagesInOrder : Obligations.CompressRunsStagesInOrder := by
  intro s
  rw [exec_eq, commandOutcome, compressStages_eq, finish_onFailure fun _ _ => rfl, failingStages,
    runInOrder_eq_finish (by decide)]

/-- Settles O48: the completion between the stages leaves no trace, and clearing SYM_LEN leaves the report alone. -/
theorem decompressRunsStagesInOrder : Obligations.DecompressRunsStagesInOrder := by
  intro s
  rw [exec_eq, commandOutcome, decompressStages_eq, finish_onFailure fun _ _ => rfl, failingStages,
    runInOrder_eq_finish (by decide)]
end

section
/-! PROOFS. 43_control.md R260, R262, R272: acceptance, and the engine's step of a legal and of an illegal word. -/

namespace Sys2Proof.Machine

variable {s s0 : State}

theorem engineStep_of_command {i : Instr} (h : decode s.latch = .command i) : engineStep s = exec i s := by
  rw [engineStep, h]

theorem engineStep_of_illegal (h : ∀ i, decode s.latch ≠ .command i) : engineStep s = .next (s.completeIllegal s.latch) := by
  unfold engineStep
  split
  · next i hi => exact absurd hi (h i)
  · rfl
  · rfl

theorem State.engineNext_latch (h : s.engineNext = some s0) : s0.latch = s.latch := by
  obtain ⟨-, rest, rfl⟩ := State.engineNext_eq h
  rfl

/-- A command word just placed is run from the state that accepts it. -/
theorem State.engineNext_withFetchWord (s : State) (w : Word) : (s.withFetchWord 32 w.toNat).engineNext = some (s.accept w) := by
  have hword : BitVec.ofNat 32 (w.toNat % 2 ^ 32) = w := by rw [Nat.mod_eq_of_lt w.isLt, BitVec.ofNat_toNat, BitVec.setWidth_eq]
  rw [State.withFetchWord, hword]
  rfl

end Sys2Proof.Machine

open Sys2Proof Sys2Proof.Machine

/-- Settles O3: the engine's step decodes the latch, which is the accepted word. -/
theorem stepRunsDecodedCommand : Obligations.StepRunsDecodedCommand := by
  have run : ∀ {s s0 : State} {i : Instr}, s.engineNext = some s0 → decode s0.latch = .command i → step s = exec i s0 :=
    fun hnext hi => (step_engineNext hnext).trans (engineStep_of_command hi)
  exact ⟨fun s s0 i hnext hi => run hnext (by rwa [State.engineNext_latch hnext]),
    fun s w i hi => run (s.engineNext_withFetchWord w) hi⟩

/-- Settles O4: the engine's step of a word that is no command is a completion. -/
theorem illegalWordOnlyCompletes : Obligations.IllegalWordOnlyCompletes := by
  intro s s0 hnext hillegal
  rw [← State.engineNext_latch hnext] at hillegal ⊢
  rw [step_engineNext hnext, engineStep_of_illegal hillegal]
  rfl

/-- Settles O5: with BUSY = 0 the write is performed, and offset 0x004 is that of CMD; with BUSY = 1 it is held, as CMD is not of an
unheld group. -/
theorem commandAcceptance : Obligations.CommandAcceptance := by
  intro s a rest v hi hp hoff hk
  refine ⟨fun hidle => ?_, fun hbusy => ?_⟩
  · have hcmd : locate s.cfg 0x004 = .reg .cmd := locate_regOffset s.cfg .cmd
    rw [step_performed hi hp (.inl hidle), hoff, hk, State.performAt, State.writeOffset, hcmd]
    rfl
  · have hheld : ¬ unheldOffset (a.addr - s.cfg.base) := by simp [hoff, unheldOffset]
    obtain ⟨t, hstep, hengine, -, hinputs, -⟩ := (heldAccessWaitsForCompletion s a rest hbusy hi hp).1 hheld
    exact ⟨t, hstep, hinputs, hengine⟩
end

section
/-! PROOFS. 43_control.md R269, R270: COMPRESS of no symbols, and CLEAR. -/

namespace Sys2Proof.Machine

open Sys2Proof.Reference

variable {s : State}

/-! ### COMPRESS of no symbols -/

theorem lzwEncStage_of_no_symbols (h : s.symLen = 0#32) : lzwEncStage s = .ok { s with tokLen := 0#32, dict := [] } := by
  rw [lzwEncStage, h, if_neg (by simp)]
  rfl

theorem freqCountStage_of_no_tokens (h : s.tokLen = 0#32) : freqCountStage s = .ok { s with mem := s.mem.clear .freq } := by
  rw [freqCountStage, h, if_neg (by simp)]
  rfl

theorem huffBuildStage_of_no_tokens (h : freqTokens s = []) :
    huffBuildStage s = .failed (huffBuildFail s) .huffBuild .emptyAlphabet := by
  rw [huffBuildStage, huffLeaves_eq, h]
  rfl

/-- The state in which COMPRESS of no symbols reaches HUFF_BUILD: no tokens and an empty frequency table. -/
def State.nothingCounted (s : State) : State := { s with tokLen := 0#32, dict := [], mem := s.mem.clear .freq }

theorem freqTokens_nothingCounted (s : State) : freqTokens s.nothingCounted = [] :=
  List.filter_eq_nil_iff.2 fun k _ => by simp [State.nothingCounted]

/-- HUFF_BUILD finds no token that occurs (R269; 41_huffman.md R176). -/
theorem compress_of_no_symbols (h : s.symLen = 0#32) :
    commandOutcome .compress s
      = .failed { huffBuildFail s.nothingCounted with bitLen := 0#32 } .huffBuild .emptyAlphabet := by
  have hlzw := lzwEncStage_of_no_symbols h
  have hcount : freqCountStage { s with tokLen := 0#32, dict := [] } = .ok s.nothingCounted := freqCountStage_of_no_tokens rfl
  have hbuild := huffBuildStage_of_no_tokens (freqTokens_nothingCounted s)
  rw [commandOutcome, compressStages_eq, failingStages, runStages_cons_ok, commandOutcome, hlzw, runStages_cons_ok,
    commandOutcome, hcount, runStages_cons_ok, commandOutcome, hbuild, runStages_failed, StageOutcome.onFailure]

end Sys2Proof.Machine

open Sys2Proof.Machine

/-- Settles O50: HUFF_BUILD fails after FREQ_COUNT has cleared the frequency table, and HUFF_CODES does not run. -/
theorem compressOfNothingFails : Obligations.CompressOfNothingFails := by
  intro s hsym
  refine ⟨_, exec_of_failed (compress_of_no_symbols hsym), State.reports_failure .., rfl, fun k => ?_, rfl, rfl, rfl, rfl⟩
  have hfreq : (s.nothingCounted.mem.redraw .node s.draws).freq = (s.mem.clear .freq).freq :=
    Memory.get_redraw_ne _ _ (b := .node) (b' := .freq) (by decide)
  exact (congrFun (Memory.freqOf_congr hfreq) k).trans (Memory.freqOf_clear s.mem k)

/-- Settles O53: no cell of a buffer is listed, and an unlisted word of an empty buffer is 0. -/
theorem clearZeroesEverything : Obligations.ClearZeroesEverything := by
  intro s
  exact ⟨_, exec_of_ok (i := .clear) rfl, State.succeeded_complete _, fun b i => by cases b <;> rfl, fun k => rfl,
    rfl, rfl, rfl, rfl, rfl, rfl, rfl, rfl, rfl, rfl, rfl⟩
end

section
/-! PROOFS. 43_control.md R268: DECOMPRESS right after COMPRESS. -/

namespace Sys2Proof.Machine

open Sys2Proof.Reference

variable {s t : State} {ts : List Nat}

/-! ### What the stages of COMPRESS leave when they succeed -/

/-- A token with a code is that of a leaf. -/
theorem exists_leaf_of_isCode (hwf : TreeWellFormed s) {k : Nat} {p : List Bool} (h : IsCode s k p) :
    ∃ i < s.nodeCount.toNat, s.mem.nodeAt i = .leaf k := by
  unfold IsCode at h
  cases hroot : s.mem.nodeAt s.root.toNat with
  | leaf k' =>
    rw [hroot] at h
    obtain ⟨rfl, -⟩ := h
    exact ⟨_, hwf.v2, hroot⟩
  | internal l r =>
    rw [hroot] at h
    obtain ⟨x, hx, hleaf⟩ := h
    exact ⟨x, walk_lt hwf hwf.v2 hx, hleaf⟩

/-- The tokens with a code in the tree that HUFF_BUILD makes are those of the frequency table (41_huffman.md R176, R182). -/
theorem HuffBuilt.exists_isCode_iff {out : List (Node × Nat)} (h : HuffBuilt s t out) {k : Nat} :
    (∃ p, IsCode t k p) ↔ k ∈ freqTokens s := by
  refine ⟨fun ⟨p, hp⟩ => ?_, h.built.exists_isCode h.wellFormed⟩
  obtain ⟨i, hi, hleaf⟩ := exists_leaf_of_isCode h.wellFormed hp
  rw [← h.built.tokens]
  exact List.mem_filterMap.2 ⟨_, mem_heldNodes.2 ⟨i, hi, hleaf⟩, rfl⟩

/-- A FREQ_COUNT that succeeds has counted the tokens held, which all have a FREQ entry (41_huffman.md R171, R173). -/
theorem mem_freqTokens_of_freqCountStage (hc : s.cfg.legal = true) (h : freqCountStage s = .ok t) {k : Nat} :
    k ∈ freqTokens t ↔ k ∈ s.mem.tokens s.tokLen.toNat := by
  rcases freqCountStage_cases s with ⟨m, htok, hloop, -⟩ | ⟨e, hfailed, -⟩
  · rw [freqCountFrom_eq] at hloop
    split at hloop
    · next hbound =>
      obtain ⟨m, hok, hfreq⟩ := freqCountStage_of_bound hc htok hbound
      cases h.symm.trans hok
      exact mem_freqTokens_of_counts (s := { s with mem := m }) hbound hfreq
    · cases hloop
  · cases h.symm.trans hfailed

/-- A HUFF_CODES that succeeds has listed the codes of a well-formed tree (41_huffman.md R195, R196). -/
theorem table_of_huffCodesStage (hc : s.cfg.legal = true) (h : huffCodesStage s = .ok t) :
    ∀ k p, (∃ e, codeEntry? t.code k = some e ∧ e.toBits = p) ↔ IsCode s k p := by
  rcases huffCodesStage_cases s with ⟨hwf, hmax, -⟩ | ⟨-, -, hfailed⟩ | ⟨-, hfailed⟩
  · have hwf := wellFormedTree_iff.1 hwf
    obtain ⟨code, hok, htable⟩ := huffCodesStage_of_wellFormed hc hwf fun k p hp => hmax (k, p) ((mem_treeCodes hwf).2 hp)
    cases h.symm.trans hok
    exact htable
  · cases h.symm.trans hfailed
  · cases h.symm.trans hfailed

theorem cfg_of_ok {i : Instr} (h : commandOutcome i s = .ok t) : t.cfg = s.cfg := by
  have hcfg := commandOutcome_cfg i s
  rwa [h] at hcfg

theorem agreeOutside_of_ok {i : Instr} (h : commandOutcome i s = .ok t) : AgreeOutside (commandWrites i) s t := by
  have hframe := commandOutcome_frame i s
  rwa [h] at hframe

/-- ENT_ENC leaves tree and table alone, and stores the codes of the table (30_encoding.md R105; 42_entropy.md R222). -/
theorem compressed_of_entEncStage {b c : State} (hc : s.cfg.legal = true) (henc : LzwEncoded s c ts) (hwf : TreeWellFormed b)
    (hcodes : commandOutcome .huffCodes b = .ok c) (hstream : commandOutcome .entEnc c = .ok t) :
    ∃ ps, Compressed s b t ts ps ∧ t.bitLen.toNat ≤ s.cfg.bitCap := by
  have hcfg : c.cfg = b.cfg := cfg_of_ok hcodes
  have hframe := agreeOutside_of_ok hcodes
  have hframe' := agreeOutside_of_ok hstream
  have hbc : SameTree b c := .of_node (hframe .node (by decide)) (hframe .nodeCount (by decide)) (hframe .root (by decide))
  have hct : SameTree c t := .of_node (hframe' .node (by decide)) (hframe' .nodeCount (by decide)) (hframe' .root (by decide))
  have ht : LzwEncoded s t ts := henc.stage (i := .entEnc) (by decide) hstream
  have htable := table_of_huffCodesStage (hcfg ▸ henc.cfg ▸ hc) hcodes
  have hcode : t.code = c.code := hframe' .code (by decide)
  obtain ⟨-, ps, hps, hfit, hbits⟩ := stored_of_entEnc_succeeded (henc.cfg ▸ hc) (exec_of_ok hstream) t.succeeded_complete
  rw [henc.tokLen, henc.tokens] at hps
  have hlen : t.bitLen.toNat = ps.flatten.length := by
    rw [← hbits, Memory.length_stream, State.complete_bitLen]
  refine ⟨ps, ⟨ht, hbc.trans hct, (hbc.trans hct).wellFormed (ht.cfg.trans (henc.cfg.symm.trans hcfg)) hwf, hcode ▸ htable,
    hps.imp fun k p hp => ?_, hlen, hlen ▸ hbits⟩, henc.cfg ▸ hfit⟩
  exact (htable k p).1 (codeEntry?_of_codeFor hp)

/-- A COMPRESS that succeeds leaves the tree of its tokens, and their codes as the stream (R266). -/
theorem compressed_of_ok (hc : s.cfg.legal = true) (h : commandOutcome .compress s = .ok t) :
    ∃ b ts ps, Compressed s b t ts ps ∧ (∀ k, (∃ p, IsCode b k p) ↔ k ∈ ts) ∧ t.bitLen.toNat ≤ s.cfg.bitCap := by
  rw [commandOutcome, compressStages_eq] at h
  obtain ⟨a, hlzw, hrun⟩ := runStages_cons_eq_ok (onFailure_eq_ok h)
  obtain ⟨a', hcount, hrun⟩ := runStages_cons_eq_ok hrun
  obtain ⟨b, hbuild, hrun⟩ := runStages_cons_eq_ok hrun
  obtain ⟨c, hcodes, hrun⟩ := runStages_cons_eq_ok hrun
  obtain ⟨d, hstream, hrun⟩ := runStages_cons_eq_ok hrun
  cases hrun
  obtain ⟨ts, ha⟩ := lzwEncoded_of_stage hc hlzw
  have ha' := ha.stage (by decide) hcount
  have henc := (ha'.stage (by decide) hbuild).stage (by decide) hcodes
  obtain ⟨out, hbuilt⟩ := huffBuilt_of_ok (ha'.cfg ▸ hc) hbuild
  obtain ⟨ps, hcompressed, hfit⟩ := compressed_of_entEncStage hc henc hbuilt.wellFormed hcodes hstream
  refine ⟨b, ts, ps, hcompressed, fun k => ?_, hfit⟩
  rw [hbuilt.exists_isCode_iff, mem_freqTokens_of_freqCountStage (ha.cfg ▸ hc) hcount, ha.tokLen, ha.tokens]

/-! ### DECOMPRESS of what COMPRESS leaves -/

/-- DECOMPRESS decodes the stream to the tokens, and the tokens to the symbols (R267; 40_lzw.md R149; 42_entropy.md R238). -/
theorem decompress_of_compressed {b : State} {ps : List (List Bool)} (hc : s.cfg.legal = true) (h : Compressed s b t ts ps)
    (hfit : t.bitLen.toNat ≤ s.cfg.bitCap) :
    ∃ u, exec .decompress t = .next u ∧ u.Succeeded ∧ u.symLen = s.symLen
      ∧ u.mem.symbols s.symLen.toNat = s.mem.symbols s.symLen.toNat ∧ u.tokLen = t.tokLen ∧ u.mem.tokens ts.length = ts := by
  have hcfg := h.encoded.cfg
  have hnext := h.encoded.dictNext_le
  have hcount := h.encoded.count
  have hdict := (Config.dictCap_range hc).1
  have hsym := Memory.length_symbols s.mem s.symLen.toNat
  have hdecode := lzwDecode_lzwEncode (s.mem.symbols s.symLen.toNat)
  rw [h.encoded.source] at hdecode
  unfold dictNext at hnext
  obtain ⟨u, hexec, hok, hsymLen, hsymbols, htokLen, htokens, -⟩ := decompressDecodesStream t ts ps _ _ (hcfg ▸ hc) h.wellFormed
    (hcfg ▸ hfit) (h.codes.imp fun k p hp => h.tree.isCode.2 hp) (h.bitLen ▸ h.stream) (hcfg ▸ h.encoded.tokCap) hdecode
    (by rw [hsym, hcfg]; exact h.encoded.symCap) (by rw [hcfg]; omega)
  rw [hsym] at hsymLen hsymbols
  exact ⟨u, hexec, hok, BitVec.eq_of_toNat_eq hsymLen, hsymbols,
    BitVec.eq_of_toNat_eq (htokLen.trans h.encoded.tokLen.symm), htokens⟩

end Sys2Proof.Machine

open Sys2Proof.Machine Sys2Proof.Reference

/-- Settles O52: a successful COMPRESS leaves the codes of its tokens as the stream, and the tree that DECOMPRESS needs. -/
theorem compositeRoundTrip : Obligations.CompositeRoundTrip := by
  intro s t hc hexec ht
  obtain ⟨t, hout, rfl⟩ := commandOutcome_of_succeeded hexec ht
  obtain ⟨b, ts, ps, hcompressed, hleaves, hfit⟩ := compressed_of_ok hc hout
  have h := hcompressed.complete Report.ok
  obtain ⟨u, hdecompress, hok, hsymLen, hsymbols, htokLen, htokens⟩ := decompress_of_compressed hc h hfit
  rw [h.encoded.tokLen, h.encoded.tokens]
  exact ⟨h.encoded.symLen, h.encoded.sym, h.wellFormed, fun k => by simp only [h.tree.isCode, hleaves], u, hdecompress, hok,
    hsymLen, hsymbols, htokLen, htokens⟩
end

section
/-! SUPPORT. The stage that a command reports as the failing one, the error it reports, and what a failure leaves in the outputs
(60_exceptions.md R300 to R306). -/

namespace Sys2Proof.Machine

open Sys2Proof.Reference

variable {i st : Instr} {is : List Instr} {s t u : State} {e : ErrorKind} {f : State → State}

/-! ### The failing stage -/

/-- The stage that a failing outcome reports. -/
def StageOutcome.failedStage : StageOutcome → Option Instr
  | .ok _ => none
  | .failed _ st _ => some st

theorem StageOutcome.failedStage_onFailure (o : StageOutcome) (f : State → State) :
    (o.onFailure f).failedStage = o.failedStage := by
  cases o <;> rfl

/-- The report of the command before leaves no trace in the stages that follow it (43_control.md R265). -/
theorem firstFailing_complete (h : ∀ j ∈ is, j ∈ stageCommands) (s : State) (r : Report) :
    firstFailing is (s.complete r) = firstFailing is s := by
  cases is with
  | nil => rfl
  | cons i is => rw [firstFailing_cons, firstFailing_cons, finish_stage_complete (h i List.mem_cons_self)]

/-- The stage that a run of stages reports is the first that reports an error when they run as commands (R303). -/
theorem firstFailing_eq_failedStage (h : ∀ j ∈ is, j ∈ stageCommands) (s : State) :
    firstFailing is s = (runStages is (.ok s)).failedStage := by
  induction is generalizing s with
  | nil => rfl
  | cons i is ih =>
    have his : ∀ j ∈ is, j ∈ stageCommands := fun j hj => h j (List.mem_cons_of_mem _ hj)
    rw [firstFailing_cons, runStages_cons_ok]
    cases ho : commandOutcome i s with
    | ok t => rw [finish_ok, if_pos (by rfl), firstFailing_complete his, ih his]
    | failed t st e =>
      obtain ⟨rfl, -⟩ := stage_error (h i List.mem_cons_self) ho
      rw [finish_failed, if_neg (t.errCode_complete_failure _ _), runStages_failed, StageOutcome.failedStage]

theorem commandOutcome_failedStage (i : Instr) (s : State) :
    (commandOutcome i s).failedStage = firstFailing (failingStages i) s := by
  rw [firstFailing_eq_failedStage (failingStages_subset i)]
  cases i with
  | compress => rw [commandOutcome, compressStages_eq, StageOutcome.failedStage_onFailure]
  | decompress => rw [commandOutcome, decompressStages_eq, StageOutcome.failedStage_onFailure]
  | clear | lzwEnc | lzwDec | freqCount | huffBuild | huffCodes | entEnc | entDec => rfl

/-! ### The error reported -/

/-- A command reports no error, or the error its outcome failed with (43_control.md R263, R264). -/
theorem exec_report_cases (h : exec i s = .next t) :
    t.errCode.toNat = 0 ∨ ∃ u st e, commandOutcome i s = .failed u st e ∧ t.errCode = e.code ∧ t.errInfo = e.info := by
  by_cases ht : t.errCode = 0#8
  · exact .inl (congrArg BitVec.toNat ht)
  · obtain ⟨u, st, e, hfailed, rfl⟩ := commandOutcome_of_errCode_ne_zero h ht
    exact .inr ⟨u, st, e, hfailed, rfl, rfl⟩

/-- An index below a bound is reported as one below it. -/
theorem toNat_ofNat_lt {j n w : Nat} (h : j < n) : (BitVec.ofNat w j).toNat < n :=
  BitVec.toNat_ofNat j w ▸ (Nat.mod_le _ _).trans_lt h

/-- The node that WEIGHT_OVERFLOW reports is the one a merge of the `L` leaves would have made (41_huffman.md R181). -/
theorem huffBuildStage_weightOverflow {node : Nat} (h : huffBuildStage s = .failed u st (.weightOverflow node)) :
    ∃ m, m + 1 < (freqTokens s).length ∧ node = (freqTokens s).length + m := by
  have hne : freqTokens s ≠ [] := fun hnil => by cases h.symm.trans (huffBuildStage_of_no_tokens hnil)
  rcases huffBuildStage_cases s with ⟨nds, -, hok⟩ | ⟨e', htree, hfailed⟩
  · cases h.symm.trans hok
  · cases h.symm.trans hfailed
    rcases huffTree_run hne with ⟨out, hout, -, -⟩ | ⟨m, hm, herr, -⟩
    · cases htree.symm.trans hout
    · cases htree.symm.trans herr
      exact ⟨m, hm, rfl⟩

/-- In a legal configuration the number of that node fits in ERR_INFO. -/
theorem toNat_info_weightOverflow (hc : s.cfg.legal = true) {m : Nat} (hm : m + 1 < (freqTokens s).length) :
    (ErrorKind.weightOverflow ((freqTokens s).length + m)).info.toNat = (freqTokens s).length + m := by
  have hdict := (Config.dictCap_range hc).2
  have htoks := length_freqTokens_le s
  exact Nat.mod_eq_of_lt (by omega)

/-! ### The outputs after a failure -/

/-- A stage that fails has applied its failure rule. -/
theorem StageForm.eq_fail_of_failed (form : StageForm i) (h : commandOutcome i s = .failed u st e) : u = form.fail s := by
  rw [form.outcome] at h
  cases hr : form.compute s with
  | ok a => rw [hr] at h; cases h
  | error e' => rw [hr] at h; cases h; rfl

/-- The failure rules of the stages are the rows of the table (R306). -/
theorem stage_failedOutputs (hi : i ∈ stageCommands) (h : commandOutcome i s = .failed u st e) : failedOutputs u i := by
  cases i with
  | lzwEnc => exact lzwEncForm.eq_fail_of_failed h ▸ ⟨rfl, rfl, rfl⟩
  | lzwDec => exact lzwDecForm.eq_fail_of_failed h ▸ ⟨rfl, rfl, rfl⟩
  | freqCount => exact freqCountForm.eq_fail_of_failed h ▸ Memory.freqOf_clear s.mem
  | huffBuild => exact huffBuildForm.eq_fail_of_failed h ▸ ⟨rfl, rfl⟩
  | huffCodes => exact huffCodesForm.eq_fail_of_failed h ▸ fun _ => rfl
  | entEnc => exact entEncForm.eq_fail_of_failed h ▸ rfl
  | entDec => exact entDecForm.eq_fail_of_failed h ▸ rfl
  | compress | decompress | clear => exact absurd hi (by decide)

/-- Completion writes no output. -/
theorem failedOutputs_complete (r : Report) (h : failedOutputs t i) : failedOutputs (t.complete r) i := by
  cases i <;> exact h

/-- Clearing BIT_LEN, as COMPRESS does on failure, leaves the rows of the table true. -/
theorem failedOutputs_clear_bitLen (h : failedOutputs t i) : failedOutputs { t with bitLen := 0#32 } i := by
  cases i with
  | entEnc | compress => rfl
  | _ => exact h

/-- Clearing SYM_LEN, as DECOMPRESS does on failure, leaves the rows of the table true. -/
theorem failedOutputs_clear_symLen (h : failedOutputs t i) : failedOutputs { t with symLen := 0#32 } i := by
  cases i with
  | lzwDec => exact ⟨rfl, h.2⟩
  | decompress => rfl
  | _ => exact h

/-- A composite command that fails leaves what its failing stage left, changed as the composite says (43_control.md R266, R267). -/
theorem exists_failedOutputs_of_runStages (his : ∀ j ∈ is, j ∈ stageCommands)
    (h : (runStages is (.ok s)).onFailure f = .failed u st e) : ∃ u', failedOutputs u' st ∧ u = f u' := by
  cases hrun : runStages is (.ok s) with
  | ok t => rw [hrun] at h; cases h
  | failed u' st' e' =>
    rw [hrun] at h
    cases h
    obtain ⟨j, hj, t, hfailed⟩ := exists_failed_of_runStages hrun
    obtain ⟨rfl, -⟩ := stage_error (his j hj) hfailed
    exact ⟨u', stage_failedOutputs (his _ hj) hfailed, rfl⟩

/-- A failing command leaves the outputs of its failing stage, and its own length, as the table says (R306). -/
theorem commandOutcome_failedOutputs (h : commandOutcome i s = .failed u st e) : failedOutputs u st ∧ failedOutputs u i := by
  cases i with
  | compress =>
    obtain ⟨u', hu, rfl⟩ := exists_failedOutputs_of_runStages (failingStages_subset .compress) h
    exact ⟨failedOutputs_clear_bitLen hu, rfl⟩
  | decompress =>
    obtain ⟨u', hu, rfl⟩ := exists_failedOutputs_of_runStages (failingStages_subset .decompress) h
    exact ⟨failedOutputs_clear_symLen hu, rfl⟩
  | clear => cases h
  | lzwEnc | lzwDec | freqCount | huffBuild | huffCodes | entEnc | entDec =>
    obtain ⟨rfl, -⟩ := stage_error (by decide) h
    exact ⟨stage_failedOutputs (by decide) h, stage_failedOutputs (by decide) h⟩

end Sys2Proof.Machine
end

section
/-! PROOFS. 60_exceptions.md R300 to R306: ERROR, ERR_INFO, and the outputs of a failing command. -/

open Sys2Proof Sys2Proof.Machine Sys2Proof.Reference

/-- Settles O17: running the stages stops at the first that fails, which is the one reported; an illegal word reports its opcode
field. -/
theorem errorStageIsFailingStage : Obligations.ErrorStageIsFailingStage := by
  intro s t h
  refine ⟨fun i hi => ?_, fun hillegal => ?_⟩
  · rw [engineStep_of_command hi, exec_eq] at h
    cases h
    rw [← commandOutcome_failedStage]
    cases commandOutcome i s with
    | ok u => exact ⟨fun _ => ⟨rfl, rfl⟩, fun hne => absurd rfl hne⟩
    | failed u st e => exact ⟨fun hz => absurd hz (u.errCode_complete_failure _ _), fun _ => ⟨st, rfl, rfl⟩⟩
  · rw [engineStep_of_illegal hillegal] at h
    cases h
    exact toNat_opcodeField s.latch

/-- Settles O18: what each stage fails with is what is reported. -/
theorem errorCodesOfStages : Obligations.ErrorCodesOfStages := by
  refine ⟨fun s t h => ?_, fun s t h => ?_, fun s t h => ?_, fun s t h => ?_, fun s t h => ?_, fun s t h => ?_, fun s t h => ?_⟩
  all_goals refine (exec_report_cases h).imp_right fun ⟨u, st, e, hfailed, hcode, hinfo⟩ => ?_
  all_goals rw [hcode, hinfo]
  · obtain ⟨-, rfl | rfl | rfl⟩ := lzwEncStage_error hfailed <;> decide
  · obtain ⟨-, ⟨j, hj, rfl⟩ | rfl | rfl | rfl⟩ := lzwDecStage_error hfailed
    · exact .inl ⟨rfl, toNat_ofNat_lt hj⟩
    all_goals exact .inr (by decide)
  · obtain ⟨-, rfl | rfl⟩ := freqCountStage_error hfailed <;> decide
  · obtain ⟨-, rfl | ⟨node, rfl⟩⟩ := huffBuildStage_error hfailed
    · exact .inl ⟨rfl, rfl⟩
    · obtain ⟨m, hm, rfl⟩ := huffBuildStage_weightOverflow hfailed
      exact .inr ⟨rfl, fun hc => ⟨m, hm, toNat_info_weightOverflow hc hm⟩⟩
  · obtain ⟨-, rfl | rfl⟩ := huffCodesStage_error hfailed <;> decide
  · obtain ⟨-, ⟨j, hj, rfl⟩ | rfl | rfl⟩ := entEncStage_error hfailed
    · exact .inl ⟨rfl, toNat_ofNat_lt hj⟩
    all_goals exact .inr (by decide)
  · obtain ⟨-, ⟨j, hj, rfl | rfl⟩ | rfl | rfl | rfl⟩ := entDecStage_error hfailed
    · exact .inr (.inr (.inl ⟨rfl, toNat_ofNat_lt hj⟩))
    · exact .inl ⟨rfl, toNat_ofNat_lt hj⟩
    · exact .inr (.inl (by decide))
    · exact .inr (.inl (by decide))
    · exact .inr (.inr (.inr ⟨rfl, rfl⟩))

/-- Settles O19: the failing stage applies its failure rule, which clearing the composite's length and completion keep. -/
theorem failuresLeaveNoPartialOutput : Obligations.FailuresLeaveNoPartialOutput := by
  intro i s t h ht
  obtain ⟨u, st, e, hfailed, rfl⟩ := commandOutcome_of_errCode_ne_zero h ht
  obtain ⟨hstage, hcommand⟩ := commandOutcome_failedOutputs hfailed
  exact ⟨⟨st, (commandOutcome_failed hfailed).1, rfl, failedOutputs_complete _ hstage⟩, failedOutputs_complete _ hcommand,
    exec_frame h⟩
end

section
/-! PROOFS. 70_reset_and_hazards.md R340, R341: the reset state, and the step that puts it into the block. -/

namespace Sys2Proof.Machine

/-! ### The values that the reset state reads -/

theorem State.readReg_error_of_no_error {s : State} (hcode : s.errCode = 0#8) (hstage : s.errStage = 0#8) :
    s.readReg .error = 0#32 := by
  rw [State.readReg, hcode, hstage]
  decide

/-- The CODE window reads 0 while no entry is valid, also beyond the entries (10_state.md R46; 20_memory.md R73). -/
theorem State.readOffset_codeWindow_of_no_codes {s : State} {off : Nat} (hs : s.code = []) (hlo : 0x500000 ≤ off)
    (hhi : off < 0x600000) : s.readOffset off = 0#32 := by
  rw [State.readOffset, locate_codeWindow hlo hhi]
  split
  · exact State.readCode_invalid (by rw [hs]; rfl) _
  · rfl

/-- An unlisted word of a drawn buffer is its free value, cut to the bits stored (10_state.md R53). -/
theorem Memory.read_drawn (draw : Nat) (b : BufId) (i : Nat) :
    (Memory.drawn draw).read b i = Config.freeWord draw b i &&& wordMask b i := by
  cases b <;> rfl

/-! ### The step -/

theorem step_reset {s : State} {rest : List Input} (h : s.inputs = .reset :: rest) :
    step s = .next (State.applyReset { s with inputs := rest }) := by
  rw [step, h]

theorem step_resetOver {s : State} {a : Access} {rest : List Input} (h : s.inputs = .resetOver a :: rest) :
    step s = .next (resetOverAccess a { s with inputs := rest }) := by
  rw [step, h]

/-- Reset over an access is reset, and a read adds the free value to the values read (R340; log 12). -/
theorem resetOverAccess_eq (a : Access) (s : State) :
    resetOverAccess a s = { s.applyReset with
      reads := s.reads ++ (match a.kind with | .read => [Config.freeRead s.draws] | .write _ => []) } := by
  unfold resetOverAccess
  cases a.kind with
  | read => rfl
  | write v => simp only [List.append_nil]; rfl

end Sys2Proof.Machine

open Sys2Proof.Machine

/-- Settles O24: each register reads its field of the reset state, and the CODE table has no valid entry. -/
theorem resetValues : Obligations.ResetValues := by
  intro c draw s
  have hr := s.readOffset_reg
  exact ⟨hr .id, hr .status, (hr .error).trans (State.readReg_error_of_no_error rfl rfl), hr .errInfo, hr .irqEnable, hr .symLen,
    hr .tokLen, hr .bitLen, hr .nodeCount, hr .root, hr .dictNext, hr .capSym, hr .capTok, hr .capBit, hr .capDict,
    hr .capCodeLen, hr .capNode, fun _ => State.readOffset_codeWindow_of_no_codes rfl, rfl, rfl, rfl⟩

/-- Settles O25: both reset inputs apply the reset, which keeps nothing of the latch, and the buffers are drawn afresh. -/
theorem resetDiscardsLatchedCommand : Obligations.ResetDiscardsLatchedCommand := by
  intro s rest
  refine ⟨step_reset, fun a hi => ⟨_, step_resetOver hi, ?busy, resetOverAccess_eq a _⟩, Memory.read_drawn s.draws⟩
  case busy => rw [resetOverAccess_eq]; rfl

/-- Settles O59: no flag is set, the tables are empty, and no buffer lists a word. -/
theorem resetMeetsInvariant : Obligations.ResetMeetsInvariant := by
  intro c draw hc
  exact {
    legal := hc
    memory := Memory.wf_drawn c draw
    flags := (State.flagsOk_applyReset (State.afterReset c draw)).congr rfl
    dict := State.dictOk_of_empty hc rfl
    code := State.codeOk_of_empty rfl }
end
